-- ==== Sys2Proof/Word.lean ====
section
/-! DEFINITION. The value types of the block: registers, bytes, bits and pixels (00_scope.md R7, R10, R11, R14). -/

namespace Sys2Proof

/-- A 32-bit host register or a 32-bit transaction value (00_scope.md R7, REG_BITS). -/
abbrev Word := BitVec 32

/-- One byte of MSG, KEY or OUT, and one colour channel of a pixel (00_scope.md R7, CHANNEL_BITS). -/
abbrev Byte := BitVec 8

/-- One element of a bit sequence, 0 or 1 (00_scope.md R11, R12). -/
abbrev Bit := BitVec 1

/-- A pixel: three 8-bit channels and nothing else; there is no alpha channel (00_scope.md R14). -/
structure Pixel where
  r : Byte
  g : Byte
  b : Byte
deriving DecidableEq, Repr, Inhabited

end Sys2Proof
end

