-- ==== Sys2Proof/Config.lean ====
section
/-! DEFINITION. What a platform fixes (the OPEN parameters of 92_eei_decisions.md) and the free values (the draws
of 93_implementation_defined.md Part 1). Every free value is an opaque constant: no proof can see what it is. -/

namespace Sys2Proof

/-- The four memory spaces (20_memory.md R50). -/
inductive Space where
  | raster | msg | key | out
deriving DecidableEq, Repr

/-- The windows through which the host reaches the block (20_memory.md R53): the registers and the four spaces. -/
inductive Window where
  | registers
  | elements (sp : Space)
deriving DecidableEq, Repr

/-- The sizes of the four memories (00_scope.md R8), held so that every value of the type meets R8's constraints:
P_MAX - 1 below 65535*65535, M_MAX a 28-bit number, K_MAX - 1 below 2^28 - 1, and O_MAX as its least
admitted value plus a slack. -/
structure Sizes where
  pMaxPred : Fin 4294836225
  mMaxBits : BitVec 28
  kMaxPred : Fin 268435455
  oMaxSlack : Nat
deriving DecidableEq, Repr, Inhabited

/-- P_MAX, the number of pixel elements of RASTER: 1 to 65535*65535 (00_scope.md R8). -/
def Sizes.pMax (z : Sizes) : Nat := z.pMaxPred.val + 1

/-- M_MAX, the number of bytes of MSG: 0 to 2^28 - 1 (00_scope.md R8). -/
def Sizes.mMax (z : Sizes) : Nat := z.mMaxBits.toNat

/-- K_MAX, the number of bytes of KEY: 1 to 2^28 - 1 (00_scope.md R8). -/
def Sizes.kMax (z : Sizes) : Nat := z.kMaxPred.val + 1

/-- O_MAX, the number of bytes of OUT: at least max(0, floor(P_MAX/8) - 3), the natural difference (00_scope.md R8). -/
def Sizes.oMax (z : Sizes) : Nat := z.pMax / 8 - 3 + z.oMaxSlack

/-- The number of elements of a space (20_memory.md R50). -/
def Sizes.of (z : Sizes) : Space → Nat
  | .raster => z.pMax
  | .msg => z.mMax
  | .key => z.kMax
  | .out => z.oMax

/-- The sizes of the block just after reset: OPEN parameters, no value chosen (log entry 1). -/
opaque Config.sizes : Sizes

/-- BUS_MAP: where each window sits on the host's bus, OPEN; no rule reads it (20_memory.md R53; log entry 2). -/
opaque Config.busMap : Window → Nat

/-- The value an unlisted RASTER element holds: draw number, index (93 U2, U8, U11; log entry 3). -/
opaque Config.freePixel : Nat → Nat → Pixel

/-- The value an unlisted MSG, KEY or OUT element holds: space, draw number, index (93 U2, U3, U8, U11; log entry 3). -/
opaque Config.freeByte : Space → Nat → Nat → Byte

/-- What a memory-window read while BUSY returns, by draw number (43_host_bus.md R176; 93 U4; log entry 5). -/
opaque Config.freeWord : Nat → Word

/-- How many host transactions happen before the engine's next step while both agents are enabled, by draw number
(43_host_bus.md R170, R178; 93 U12, U13; log entry 6). -/
opaque Config.freeTurns : Nat → Nat

end Sys2Proof
end

