-- ==== Sys2Proof/Machine/Txn.lean ====
section
/-! DEFINITION. The host's transactions, the register names, and the host-program notation with its
pseudo-instructions (30_encoding.md R77, R78; 43_host_bus.md R170 to R174; 10_state.md R22). -/

namespace Sys2Proof.Machine

/-- One item of what reaches the block from outside, in the order in which it arrives. -/
inductive HostOp where
  /-- `rd`: a register read of `width` bits at byte offset `off` (43_host_bus.md R171). -/
  | rd (width off : Nat)
  /-- `wr`: a register write of `width` bits at byte offset `off` (43_host_bus.md R172). -/
  | wr (width off : Nat) (v : Word)
  /-- `mrd`: a memory-window read of element `i` (43_host_bus.md R173). -/
  | mrd (sp : Space) (i : Nat)
  /-- `mwr`: a memory-window write of element `i` (43_host_bus.md R174). -/
  | mwr (sp : Space) (i : Nat) (v : Word)
  /-- `poll`: read STATUS until it shows STATE != BUSY, one read a host step (30_encoding.md R78). -/
  | poll
  /-- The platform's reset input: not a host transaction (43_host_bus.md R181, 70_reset_and_hazards.md R220). -/
  | reset
deriving DecidableEq, Repr

/-- Which items are the host's transactions: a reset is none (43_host_bus.md R181). -/
def HostOp.isTransaction : HostOp → Bool
  | .rd _ _ => true
  | .wr _ _ _ => true
  | .mrd _ _ => true
  | .mwr _ _ _ => true
  | .poll => true
  | .reset => false

/-- The registers of the register window (10_state.md R22); `reserved` stands for offsets 0x28 to 0xFC (R35). -/
inductive RegName where
  | cmd | status | width | height | msgLen | keyLen | capacity | reqBits | outLen | bitCount | reserved
deriving DecidableEq, Repr

/-- The register at a word-aligned offset of the window (10_state.md R22, R35). -/
def regAt : Nat → RegName
  | 0x00 => .cmd
  | 0x04 => .status
  | 0x08 => .width
  | 0x0C => .height
  | 0x10 => .msgLen
  | 0x14 => .keyLen
  | 0x18 => .capacity
  | 0x1C => .reqBits
  | 0x20 => .outLen
  | 0x24 => .bitCount
  | _ => .reserved

/-- The offset of CMD (10_state.md R22). -/
def cmdOffset : Nat := 0x00

/-- The offset of STATUS (10_state.md R22). -/
def statusOffset : Nat := 0x04

/-- The pseudo-instructions of a host program and a plain transaction (30_encoding.md R78). -/
inductive HostItem where
  | txn (op : HostOp)
  | cmd (w : Word)
  | poll
  | load (sp : Space) (vs : List Word)
  | fill (sp : Space) (n : Nat) (v : Word)
  | clrlost
deriving DecidableEq, Repr

/-- Memory-window writes of consecutive elements from index `i` on, in increasing order. -/
def loadFrom (sp : Space) : Nat → List Word → List HostOp
  | _, [] => []
  | i, v :: vs => .mwr sp i v :: loadFrom sp (i + 1) vs

/-- The expansion of one item (30_encoding.md R78). -/
def HostItem.expand : HostItem → List HostOp
  | .txn op => [op]
  | .cmd w => [.wr 32 cmdOffset w]
  | .poll => [.poll]
  | .load sp vs => loadFrom sp 0 vs
  | .fill sp n v => loadFrom sp 0 (List.replicate n v)
  | .clrlost => [.wr 32 statusOffset 0x00000200#32]

/-- The transactions of a host program (43_host_bus.md R170). -/
def expandProgram (items : List HostItem) : List HostOp := items.flatMap HostItem.expand

end Sys2Proof.Machine
end

