-- ==== Sys2Proof/Syntax.lean ====
section
/-! DEFINITION. The commands of SBPC-1, one constructor per row of the opcode table (30_encoding.md R72).
A command word carries no operand fields and no immediates (R73): each command reads its operands from the
registers and memories, so no constructor has arguments. -/

namespace Sys2Proof

/-- The three commands of SBPC-1 (30_encoding.md R72). -/
inductive Instr where
  /-- CAN_EMBED, word 0x00000001 (42_commands.md R135). -/
  | canEmbed
  /-- EMBED, word 0x00000002 (42_commands.md R137 to R141). -/
  | embed
  /-- EXTRACT, word 0x00000003 (42_commands.md R143 to R147). -/
  | extract
deriving DecidableEq, Repr

end Sys2Proof
end

