-- ==== Sys2Proof/WellFormed.lean ====
section
/-! DEFINITION. Which instructions and which host transactions are well formed. A command word has no operand
fields (30_encoding.md R73), so every command is; a host transaction is when it is none of the first three kinds
that 43_host_bus.md R177 refuses. -/

namespace Sys2Proof

/-- Every command of SBPC-1 is well formed: it has no operand that could be ill formed (30_encoding.md R73). -/
def Instr.wellFormed : Instr → Bool
  | .canEmbed => true
  | .embed => true
  | .extract => true

namespace Machine

/-- A register access has a meaning: 32 bits, at a multiple of 4, in 0x00..0xFC (20_memory.md R55). -/
def registerAccessOk (width off : Nat) : Bool := width == 32 && off % 4 == 0 && off ≤ 0xFC

/-- A memory-window access has a meaning: its index is below the size of the space (20_memory.md R57). -/
def elementAccessOk (z : Sizes) (sp : Space) (i : Nat) : Bool := i < z.of sp

/-- A transaction that is not refused for its form (43_host_bus.md R177 (1) to (3)). -/
def HostOp.wellFormed (z : Sizes) : HostOp → Bool
  | .rd width off => registerAccessOk width off
  | .wr width off _ => registerAccessOk width off
  | .mrd sp i => elementAccessOk z sp i
  | .mwr sp i _ => elementAccessOk z sp i
  | .poll => true
  | .reset => true

end Machine
end Sys2Proof
end

