-- ==== Sys2Proof/Decode.lean ====
section
/-! DEFINITION. The command word: its two fields, the decoder and the encoder (30_encoding.md R70 to R75). -/

namespace Sys2Proof

/-- OPC, bits [3:0] of the command word (30_encoding.md R70). -/
def opcField (w : Word) : BitVec 4 := w.extractLsb' 0 4

/-- RSVD, bits [31:4] of the command word (30_encoding.md R70). -/
def rsvdField (w : Word) : BitVec 28 := w.extractLsb' 4 28

/-- Why a word is illegal (30_encoding.md R74). -/
inductive DecodeError where
  /-- RSVD is not 0. -/
  | reservedBits
  /-- OPC is 0x0 or 0x4 to 0xF. -/
  | reservedOpcode
deriving DecidableEq, Repr

/-- The decoder, total on 32-bit words (30_encoding.md R72, R74, R75); an error is ILLEGAL. -/
def decode (w : Word) : Except DecodeError Instr :=
  if rsvdField w ≠ 0#28 then .error .reservedBits
  else if opcField w = 0x1#4 then .ok .canEmbed
  else if opcField w = 0x2#4 then .ok .embed
  else if opcField w = 0x3#4 then .ok .extract
  else .error .reservedOpcode

/-- The opcode of a command (30_encoding.md R72, column OPC). -/
def opcode : Instr → BitVec 4
  | .canEmbed => 0x1#4
  | .embed => 0x2#4
  | .extract => 0x3#4

/-- The command word: RSVD = 0 above OPC (30_encoding.md R70, R72). -/
def encode (i : Instr) : Word := 0#28 ++ opcode i

/-- What the decoder reads from the low `nbits` bits of `w`, bits above them being 0; a command is one 32-bit word
and no other length exists (30_encoding.md R70, R71). -/
def decodeTableWord (nbits w : Nat) : Option Instr :=
  if nbits ≤ 32 then
    match decode (BitVec.ofNat 32 (w % 2 ^ nbits)) with
    | .ok i => some i
    | .error _ => none
  else none

theorem decode_canEmbed_word : decode 0b00000000000000000000000000000001#32 = .ok .canEmbed := by decide
theorem decode_embed_word : decode 0b00000000000000000000000000000010#32 = .ok .embed := by decide
theorem decode_extract_word : decode 0b00000000000000000000000000000011#32 = .ok .extract := by decide

end Sys2Proof
end

