-- ==== Sys2Proof/Machine/BitCodec.lean ====
section
/-! DEFINITION. The BitCodec datapath: the functional forms (40_bitcodec.md R100 to R107) and the hardware forms
(R109 to R111). An input outside a function's stated precondition is refused: the function answers none
(93_implementation_defined.md U1; log entry 10). -/

namespace Sys2Proof.Machine

/-- Bit `i` of a byte, numbered from 0, the least significant (00_scope.md R10). -/
def bitOf (v : Byte) (i : Nat) : Bit := v.extractLsb' i 1

/-- The 8 bits of a byte, most significant first. -/
def byteBits (v : Byte) : List Bit :=
  [bitOf v 7, bitOf v 6, bitOf v 5, bitOf v 4, bitOf v 3, bitOf v 2, bitOf v 1, bitOf v 0]

/-- bytesToBits, the serializer (R100). -/
def bytesToBits : List Byte → List Bit
  | [] => []
  | v :: rest => byteBits v ++ bytesToBits rest

/-- The byte whose bit 7 is the first of eight bits (R101). -/
def byteOfBits (b7 b6 b5 b4 b3 b2 b1 b0 : Bit) : Byte :=
  b7 ++ (b6 ++ (b5 ++ (b4 ++ (b3 ++ (b2 ++ (b1 ++ b0))))))

/-- bitsToBytes (R101); none on a length that is no multiple of 8. -/
def bitsToBytes : List Bit → Option (List Byte)
  | [] => some []
  | b7 :: b6 :: b5 :: b4 :: b3 :: b2 :: b1 :: b0 :: rest =>
    (bitsToBytes rest).map (fun bs => byteOfBits b7 b6 b5 b4 b3 b2 b1 b0 :: bs)
  | _ => none

/-- MARKER: the three bytes 0x00, 0x00, 0x03 (00_scope.md R7). -/
def marker : List Byte := [0x00, 0x00, 0x03]

/-- appendEndMarker (R102). -/
def appendEndMarker (b : List Byte) : List Byte := b ++ marker

/-- endMarkerBits (R103). -/
def endMarkerBits : List Bit := bytesToBits marker

/-- isEndMarker (R104): the 24 bits before position `n`; none unless 24 <= n <= len(t). -/
def isEndMarker (t : List Bit) (n : Nat) : Option Bool :=
  if 24 ≤ n ∧ n ≤ t.length then some ((t.take n).drop (n - 24) == endMarkerBits) else none

/-- messageBitLength (R105), exact. -/
def messageBitLength (len : Nat) : Nat := 8 * len + 24

/-- toBits with marker (R106). -/
def toBitsWithMarker (b : List Byte) : List Bit := bytesToBits (appendEndMarker b)

/-- stripMarker (R107): the trailing 24 bits removed; none on fewer than 24 bits. -/
def stripMarker (t : List Bit) : Option (List Bit) :=
  if 24 ≤ t.length then some (t.take (t.length - 24)) else none

/-- The bit of byte `v` at position `k` of a stream, `(v >> (7 - (k mod 8))) & 1` (R109). -/
def serialBitOf (v : Byte) (k : Nat) : Bit := ((v >>> (7 - k % 8)) &&& 1#8).setWidth 1

/-- serialBit (R109); none unless k < 8*len(s). -/
def serialBit (s : List Byte) (k : Nat) : Option Bit := (s[k / 8]?).map (fun v => serialBitOf v k)

/-- What one `accumulate` leaves: ACC, ACC_CNT, and the completed byte if the eighth bit was taken (R110). -/
structure Accumulated where
  acc : Byte
  accCnt : BitVec 3
  completed : Option Byte
deriving DecidableEq, Repr

/-- accumulate (R110). -/
def accumulate (acc : Byte) (accCnt : BitVec 3) (bit : Bit) : Accumulated :=
  let acc' := (acc <<< 1) ||| bit.setWidth 8
  if accCnt = 7#3 then { acc := acc', accCnt := 0#3, completed := some acc' }
  else { acc := acc', accCnt := accCnt + 1#3, completed := none }

/-- What one `pushByte` gives: the byte leaving the window, whether it is a payload byte, WIN and NBYTES after, and
whether the marker is found (R111). -/
structure Pushed where
  outgoing : Byte
  emit : Bool
  win : BitVec 24
  nbytes : Word
  found : Bool
deriving DecidableEq, Repr

/-- pushByte (R111). The third byte can match: the pseudocode of R111 and of 42_commands.md R144 tests NBYTES >= 3 after the push,
against R144's sentence that the first three whole bytes never match (DEDUCED, unsafe: log entry 14). -/
def pushByte (win : BitVec 24) (nbytes : Word) (c : Byte) : Pushed :=
  let win' := (win <<< 8) ||| c.setWidth 24
  let nbytes' := nbytes + 1#32
  { outgoing := win.extractLsb' 16 8
    emit := decide (3 ≤ nbytes.toNat)
    win := win'
    nbytes := nbytes'
    found := decide (3 ≤ nbytes'.toNat ∧ win' = 0x000003#24) }

end Sys2Proof.Machine
end

