-- ==== Sys2Proof/Machine/State.lean ====
section
/-! DEFINITION. The state of the block (10_state.md R21), the model's own fields beside it, the reasons a step can
stop, and the state after reset (10_state.md R40). -/

namespace Sys2Proof.Machine

/-- STATUS.STATE (10_state.md R25). -/
inductive EngineState where
  | idle | busy | doneOk | doneErr
deriving DecidableEq, Repr

/-- STATUS.ERR: the codes 0 to 5; codes 6 to 15 are never produced (10_state.md R26). -/
inductive ErrCode where
  | noError | capacityExceeded | noMarkerFound | keyEmpty | badLength | illegalCommand
deriving DecidableEq, Repr

/-- Why the machine stops. The spec has no fault (93_implementation_defined.md, end of Part 1): each of these answers only
in a state that breaks the invariant `Inv` of Safety.lean, which no run from reset reaches. All are safe. -/
inductive Fault where
  /-- Raised by the engine's step when STATE = BUSY and no step of R138 or R144 is enabled. Safe: unreachable. -/
  | engineNotEnabled
  /-- Raised by an engine access outside its memory (20_memory.md R57 says there is none). Safe: unreachable. -/
  | engineOutOfRange
  /-- Raised by an engine access to KEY with KEY_LEN = 0, an index modulo 0 (41_xor.md R124). Safe: unreachable. -/
  | engineKeyEmpty
deriving DecidableEq, Repr

/-- What has no meaning in the spec. All are safe: no claim about the run can be proved past them. -/
inductive Refusal where
  /-- An instruction that has no meaning yet; no arm of exec answers it. Safe. -/
  | notModelled (mnemonic : String)
  /-- Raised by a register access that is not 32 bits wide (43_host_bus.md R177 (2)). Safe. -/
  | registerWidth
  /-- Raised by a register access at an offset that is no multiple of 4, or above 0xFC (R177 (1)). Safe. -/
  | registerOffset
  /-- Raised by a window access at an index at or above the space's size (R177 (3)). Safe. -/
  | elementOutOfRange
  /-- Raised by a window write while STATE = BUSY (R177 (4)). Safe. -/
  | windowWriteWhileBusy
deriving DecidableEq, Repr

/-- One memory space: the elements written since its last draw, by index, and the number of that draw. An unlisted
element has no written value: it holds the free value of (draw, index) (log entry 3). -/
structure Memory (α : Type) where
  cells : List (Nat × α)
  draw : Nat
deriving DecidableEq, Repr

/-- The canonical form of a memory: indices strictly rising. No entry equals what an unlisted index finds, which is
no written value. -/
abbrev Memory.wf {α : Type} (m : Memory α) : Prop := m.cells.Pairwise (fun a b => a.1 < b.1)

/-- The state of the block and of what surrounds it. -/
structure State where
  /-- CMD: the last accepted word (10_state.md R23). -/
  cmd : Word
  /-- STATUS.STATE (R25). -/
  state : EngineState
  /-- STATUS.ERR (R26). -/
  err : ErrCode
  /-- STATUS.FITS (R24). -/
  fits : Bool
  /-- STATUS.LOST (R24). -/
  lost : Bool
  /-- WIDTH [15:0] (R27). -/
  width : BitVec 16
  /-- HEIGHT [15:0] (R28). -/
  height : BitVec 16
  /-- MSG_LEN [27:0] (R29). -/
  msgLen : BitVec 28
  /-- KEY_LEN [27:0] (R30). -/
  keyLen : BitVec 28
  /-- OUT_LEN (R33). -/
  outLen : Word
  /-- PIX, which BIT_COUNT reads (R34, R36). -/
  pix : Word
  /-- OP, hidden (R38). -/
  op : BitVec 4
  /-- ACC, hidden (R38). -/
  acc : Byte
  /-- ACC_CNT, hidden (R38). -/
  accCnt : BitVec 3
  /-- WIN, hidden (R38). -/
  win : BitVec 24
  /-- NBYTES, hidden (R38). -/
  nbytes : Word
  /-- RASTER (20_memory.md R50). -/
  raster : Memory Pixel
  /-- MSG (20_memory.md R50). -/
  msg : Memory Byte
  /-- KEY (20_memory.md R50). -/
  key : Memory Byte
  /-- OUT (20_memory.md R50). -/
  out : Memory Byte
  /-- The sizes of the memories, a parameter no step writes (00_scope.md R8; log entry 1). -/
  sizes : Sizes
  /-- The refusal recorded in this run, if there is one (43_host_bus.md R177, R182). -/
  refusal : Option Refusal
  /-- The model's own: what the host and the platform have still to do, in order (R170; log entry 7). -/
  program : List HostOp
  /-- The model's own: host transactions before each coming engine step, while both may move (R170; log entry 6). -/
  turns : List Nat
  /-- The model's own: the number of free values drawn so far (log entry 5). -/
  draws : Nat
  /-- The model's own: what the host's reads returned, newest first (R171, R173; log entry 7). -/
  answers : List Word
deriving DecidableEq, Repr

/-- The block just after reset (10_state.md R40, 70_reset_and_hazards.md R220). The memories list nothing: every element
holds a free value. -/
def State.reset : State where
  cmd := 0
  state := .idle
  err := .noError
  fits := false
  lost := false
  width := 0
  height := 0
  msgLen := 0
  keyLen := 0
  outLen := 0
  pix := 0
  op := 0
  acc := 0
  accCnt := 0
  win := 0
  nbytes := 0
  raster := { cells := [], draw := 0 }
  msg := { cells := [], draw := 0 }
  key := { cells := [], draw := 0 }
  out := { cells := [], draw := 0 }
  sizes := Config.sizes
  refusal := none
  program := []
  turns := []
  draws := 0
  answers := []

end Sys2Proof.Machine
end

