-- ==== Sys2Proof/Machine/Ops.lean ====
section
/-! DEFINITION. The named operations over the memories and the registers, the end of a command in an error
(60_exceptions.md R205, which is this block's whole exception mechanism: R210, R211), and the reset input. -/

namespace Sys2Proof.Machine

/-! ## Memory cells -/

/-- The value written at index `i`, if there is one. -/
def findCell {α : Type} : List (Nat × α) → Nat → Option α
  | [], _ => none
  | (a, v) :: rest, i => if a = i then some v else findCell rest i

/-- The cells with the value at index `i` set, indices kept rising. -/
def insertCell {α : Type} : List (Nat × α) → Nat → α → List (Nat × α)
  | [], i, v => [(i, v)]
  | (a, w) :: rest, i, v =>
    if i < a then (i, v) :: (a, w) :: rest
    else if i = a then (i, v) :: rest
    else (a, w) :: insertCell rest i v

/-- The value written at index `i` of a memory, if there is one. -/
def Memory.find {α : Type} (m : Memory α) (i : Nat) : Option α := findCell m.cells i

/-- MemWrite (00_scope.md R13): one element changes. -/
def Memory.store {α : Type} (m : Memory α) (i : Nat) (v : α) : Memory α :=
  { m with cells := insertCell m.cells i v }

/-- Every element from index `n` on takes any value (93_implementation_defined.md U3): a new draw. -/
def Memory.keepBelow {α : Type} (m : Memory α) (n : Nat) : Memory α where
  cells := m.cells.filter (fun c => c.1 < n)
  draw := m.draw + 1

/-- Every element takes any value (93_implementation_defined.md U2, U8): a new draw. -/
def Memory.forget {α : Type} (m : Memory α) : Memory α where
  cells := []
  draw := m.draw + 1

/-! ## Reads of one element (MemRead, 00_scope.md R13) -/

/-- RASTER[i]. -/
def pixelAt (s : State) (i : Nat) : Pixel := (s.raster.find i).getD (Config.freePixel s.raster.draw i)

/-- MSG[i]. -/
def msgAt (s : State) (i : Nat) : Byte := (s.msg.find i).getD (Config.freeByte .msg s.msg.draw i)

/-- KEY[i]. -/
def keyAt (s : State) (i : Nat) : Byte := (s.key.find i).getD (Config.freeByte .key s.key.draw i)

/-- OUT[i]. -/
def outAt (s : State) (i : Nat) : Byte := (s.out.find i).getD (Config.freeByte .out s.out.draw i)

/-! ## Writes of one element -/

def storePixel (i : Nat) (p : Pixel) (s : State) : State := { s with raster := s.raster.store i p }
def storeMsg (i : Nat) (v : Byte) (s : State) : State := { s with msg := s.msg.store i v }
def storeKey (i : Nat) (v : Byte) (s : State) : State := { s with key := s.key.store i v }
def storeOut (i : Nat) (v : Byte) (s : State) : State := { s with out := s.out.store i v }

/-! ## The engine's accesses, in range by 20_memory.md R57 -/

/-- The engine's MemRead of RASTER. -/
def engineReadPixel (s : State) (i : Nat) : Except Fault Pixel :=
  if i < s.sizes.pMax then .ok (pixelAt s i) else .error .engineOutOfRange

/-- The engine's MemRead of MSG. -/
def engineReadMsg (s : State) (i : Nat) : Except Fault Byte :=
  if i < s.sizes.mMax then .ok (msgAt s i) else .error .engineOutOfRange

/-- The engine's read of the key byte for payload byte `j`, KEY[j mod KL] (41_xor.md R122, R126). -/
def engineReadKey (s : State) (j : Nat) : Except Fault Byte :=
  if s.keyLen.toNat = 0 then .error .engineKeyEmpty
  else if j % s.keyLen.toNat < s.sizes.kMax then .ok (keyAt s (j % s.keyLen.toNat))
  else .error .engineOutOfRange

/-- The engine's MemWrite of OUT. -/
def engineWriteOut (s : State) (i : Nat) (v : Byte) : Except Fault State :=
  if i < s.sizes.oMax then .ok (storeOut i v s) else .error .engineOutOfRange

/-! ## Registers -/

/-- The `raise` primitive: ERR <- code(E), STATE <- DONE_ERR (60_exceptions.md R205). No pc is saved, no mode changes and
there is no handler and no return (R210, R211). -/
def raise (e : ErrCode) (s : State) : State := { s with err := e, state := .doneErr }

/-- A dropped host write: LOST <- 1 and nothing else (43_host_bus.md R175). -/
def dropWrite (s : State) : State := { s with lost := true }

/-- A write to an operand register: dropped while BUSY (43_host_bus.md R172, R175). -/
def unlessBusy (write : State → State) (s : State) : State :=
  if s.state = .busy then dropWrite s else write s

/-- WIDTH <- v[15:0] (10_state.md R27). -/
def loadWidth (v : Word) (s : State) : State := { s with width := v.setWidth 16 }

/-- HEIGHT <- v[15:0] (10_state.md R28). -/
def loadHeight (v : Word) (s : State) : State := { s with height := v.setWidth 16 }

/-- MSG_LEN <- v[27:0] (10_state.md R29). -/
def loadMsgLen (v : Word) (s : State) : State := { s with msgLen := v.setWidth 28 }

/-- KEY_LEN <- v[27:0] (10_state.md R30). -/
def loadKeyLen (v : Word) (s : State) : State := { s with keyLen := v.setWidth 28 }

/-- A write to STATUS: LOST <- 0 when bit 9 of the word is 1, and nothing else (10_state.md R24). -/
def writeStatus (v : Word) (s : State) : State := { s with lost := s.lost && !v.getLsbD 9 }

/-- What every accepted word does before its own effect (42_commands.md R130). -/
def acceptWord (w : Word) (s : State) : State :=
  { s with
    cmd := w
    err := .noError
    pix := 0
    acc := 0
    accCnt := 0
    win := 0
    nbytes := 0
    op := w.extractLsb' 0 4 }

/-- A write of `w` to CMD: accepted with the command's own effect, or dropped while BUSY (42_commands.md R130,
43_host_bus.md R175). -/
def issue (w : Word) (effect : State → State) (s : State) : State :=
  unlessBusy (fun s => effect (acceptWord w s)) s

/-! ## The host's side -/

/-- The host gets a word back (43_host_bus.md R171, R173). -/
def answer (v : Word) (s : State) : State := { s with answers := v :: s.answers }

/-- The host gets any word back (43_host_bus.md R176): a new draw. -/
def answerFree (s : State) : State :=
  { s with answers := Config.freeWord s.draws :: s.answers, draws := s.draws + 1 }

/-- The run is marked refused; nothing else changes (43_host_bus.md R177). -/
def refuse (r : Refusal) (s : State) : State := { s with refusal := some r }

/-- The reset input (70_reset_and_hazards.md R220, R221): every register and hidden register takes its reset value, every
memory element any value, and a new run starts with no refusal recorded (43_host_bus.md R182). What is not the block's
stays: the sizes, the host's program and its answers, the interleaving. -/
def resetBlock (s : State) : State :=
  { State.reset with
    raster := s.raster.forget
    msg := s.msg.forget
    key := s.key.forget
    out := s.out.forget
    sizes := s.sizes
    program := s.program
    turns := s.turns
    draws := s.draws
    answers := s.answers }

end Sys2Proof.Machine
end

