-- ==== Sys2Proof/Machine/Xor.lean ====
section
/-! DEFINITION. The cyclic-key XOR stage (41_xor.md). -/

namespace Sys2Proof.Machine

/-- The bytes from position `i` on, each XORed with `key[i mod len(key)]` (41_xor.md R120); `pad` stands for a key byte
that does not exist, which a non-empty key never asks for. -/
def xorFrom (key : List Byte) (pad : Byte) : Nat → List Byte → List Byte
  | _, [] => []
  | i, v :: rest => (v ^^^ (key[i % key.length]?).getD pad) :: xorFrom key pad (i + 1) rest

/-- xorCyclic (41_xor.md R120); none on an empty key, which never reaches the stage (R124). -/
def xorCyclic (b : List Byte) : List Byte → Option (List Byte)
  | [] => none
  | k0 :: ks => some (xorFrom (k0 :: ks) k0 0 b)

end Sys2Proof.Machine
end

