-- ==== Sys2Proof/Machine/Operands.lean ====
section
/-! DEFINITION. The operands of the commands (30_encoding.md R73), the element word formats (20_memory.md R52), the
embed stream (42_commands.md R134) and the source's bit buffer (R147). -/

namespace Sys2Proof.Machine

/-- CAPACITY: W*H, exact (10_state.md R31, 00_scope.md R9). -/
def capacity (s : State) : Nat := s.width.toNat * s.height.toNat

/-- REQ_BITS: messageBitLength(L), exact (10_state.md R32). -/
def reqBits (s : State) : Nat := messageBitLength s.msgLen.toNat

/-- MSG[0..L). -/
def message (s : State) : List Byte := (List.range s.msgLen.toNat).map (msgAt s)

/-- KEY[0..KL). -/
def keyBytes (s : State) : List Byte := (List.range s.keyLen.toNat).map (keyAt s)

/-- OUT[0..OUT_LEN). -/
def outBytes (s : State) : List Byte := (List.range s.outLen.toNat).map (outAt s)

/-- The blue bit 0 of RASTER[k] (42_commands.md R144). -/
def blueBit (s : State) (k : Nat) : Bit := ((pixelAt s k).b &&& 1#8).setWidth 1

/-- `t_n`: the blue bits of the first n pixels, the source's growing bit buffer (42_commands.md R147). -/
def bitBuffer (s : State) (n : Nat) : List Bit := (List.range n).map (blueBit s)

/-- The host word of a pixel, {0x00, r, g, b} (20_memory.md R52). -/
def pixelWord (p : Pixel) : Word := 0x00#8 ++ p.r ++ p.g ++ p.b

/-- The pixel a host word writes; bits [31:24] are ignored (20_memory.md R52). -/
def pixelOfWord (w : Word) : Pixel where
  r := w.extractLsb' 16 8
  g := w.extractLsb' 8 8
  b := w.extractLsb' 0 8

/-- The host word of a byte element (20_memory.md R52). -/
def byteWord (v : Byte) : Word := v.setWidth 32

/-- The byte a host word writes; bits [31:8] are ignored (20_memory.md R52). -/
def byteOfWord (w : Word) : Byte := w.extractLsb' 0 8

/-- Element `i` of a space as a host word (20_memory.md R52). -/
def readElement (s : State) (sp : Space) (i : Nat) : Word :=
  match sp with
  | .raster => pixelWord (pixelAt s i)
  | .msg => byteWord (msgAt s i)
  | .key => byteWord (keyAt s i)
  | .out => byteWord (outAt s i)

/-- Element `i` of a space set from a host word (20_memory.md R52). -/
def writeElement (sp : Space) (i : Nat) (v : Word) (s : State) : State :=
  match sp with
  | .raster => storePixel i (pixelOfWord v) s
  | .msg => storeMsg i (byteOfWord v) s
  | .key => storeKey i (byteOfWord v) s
  | .out => storeOut i (byteOfWord v) s

/-- streamByte (42_commands.md R134): the obfuscated message byte, or the marker byte. -/
def streamByte (s : State) (j : Nat) : Except Fault Byte :=
  if j < s.msgLen.toNat then
    match engineReadMsg s j with
    | .error f => .error f
    | .ok m =>
      match engineReadKey s j with
      | .error f => .error f
      | .ok k => .ok (m ^^^ k)
  else
    match marker[j - s.msgLen.toNat]? with
    | some v => .ok v
    | none => .error .engineNotEnabled

/-- streamBit (42_commands.md R134). -/
def streamBit (s : State) (k : Nat) : Except Fault Bit :=
  match streamByte s (k / 8) with
  | .error f => .error f
  | .ok v => .ok (serialBitOf v k)

/-- The whole stream of an EMBED: appendEndMarker(xorCyclic(MSG[0..L), KEY[0..KL))) (42_commands.md R134); none on an empty
key. -/
def embedStream (s : State) : Option (List Byte) := (xorCyclic (message s) (keyBytes s)).map appendEndMarker

/-- A pixel with its blue bit 0 set to `bit`: `(p.b & 0xFE) | bit`, red and green as they were (42_commands.md R138). -/
def withBlueBit (p : Pixel) (bit : Bit) : Pixel := { p with b := (p.b &&& 0xFE#8) ||| bit.setWidth 8 }

end Sys2Proof.Machine
end

