-- ==== Sys2Proof/Machine/Flags.lean ====
section
/-! DEFINITION. STATUS and its fields (10_state.md R24 to R26), and the checks at acceptance that decide the error
(42_commands.md R131, R132; 60_exceptions.md R207). -/

namespace Sys2Proof.Machine

/-- The 2-bit code of STATE (10_state.md R25). -/
def EngineState.code : EngineState → BitVec 2
  | .idle => 0
  | .busy => 1
  | .doneOk => 2
  | .doneErr => 3

/-- The 4-bit code of ERR (10_state.md R26). -/
def ErrCode.code : ErrCode → BitVec 4
  | .noError => 0
  | .capacityExceeded => 1
  | .noMarkerFound => 2
  | .keyEmpty => 3
  | .badLength => 4
  | .illegalCommand => 5

/-- STATUS as the host reads it: [31:10] and [3:2] read 0 (10_state.md R24). -/
def statusWord (s : State) : Word :=
  0#22 ++ BitVec.ofBool s.lost ++ BitVec.ofBool s.fits ++ s.err.code ++ 0#2 ++ s.state.code

/-- EMBED's checks in order; the first that fails decides the error (42_commands.md R131). -/
def validateEmbed (s : State) : Option ErrCode :=
  if s.sizes.pMax < capacity s ∨ s.sizes.mMax < s.msgLen.toNat ∨ s.sizes.kMax < s.keyLen.toNat then some .badLength
  else if s.keyLen.toNat = 0 then some .keyEmpty
  else if capacity s < reqBits s then some .capacityExceeded
  else none

/-- EXTRACT's checks in order; MSG_LEN is not checked (42_commands.md R132). -/
def validateExtract (s : State) : Option ErrCode :=
  if s.sizes.pMax < capacity s ∨ s.sizes.kMax < s.keyLen.toNat then some .badLength
  else if s.keyLen.toNat = 0 then some .keyEmpty
  else if capacity s = 0 then some .noMarkerFound
  else none

/-- STATE <- BUSY (42_commands.md R137, R143). -/
def startBusy (s : State) : State := { s with state := .busy }

/-- STATE <- BUSY if no check fails; else the command ends in the error (42_commands.md R137). -/
def enterBusy (failed : Option ErrCode) (s : State) : State :=
  match failed with
  | some e => raise e s
  | none => startBusy s

end Sys2Proof.Machine
end

