-- ==== Sys2Proof/Machine/CanEmbed.lean ====
section
/-! DEFINITION. CAN_EMBED (42_commands.md R135) and the illegal command word (R136). -/

namespace Sys2Proof.Machine

/-- canEmbed(): FITS <- messageBitLength(L) <= W*H, STATE <- DONE_OK (R135). -/
def canEmbedEffect (s : State) : State :=
  { s with fits := decide (reqBits s ≤ capacity s), state := .doneOk }

/-- CAN_EMBED: the write of its word to CMD, run entirely at acceptance (R130, R135). -/
def execCanEmbed (s : State) : Host.Outcome State Fault Refusal :=
  .next (issue (encode .canEmbed) canEmbedEffect s)

/-- A write to CMD of a word that decodes as ILLEGAL: ERR <- ILLEGAL_COMMAND, STATE <- DONE_ERR (R130, R136). -/
def issueIllegal (w : Word) (s : State) : State := issue w (raise .illegalCommand) s

end Sys2Proof.Machine
end

