-- ==== Sys2Proof/Machine/Embed.lean ====
section
/-! DEFINITION. EMBED: its acceptance (42_commands.md R137) and its engine step (R138, R139). -/

namespace Sys2Proof.Machine

/-- acceptEmbed() (R137). -/
def embedEffect (s : State) : State := enterBusy (validateEmbed s) s

/-- EMBED: the write of its word to CMD (R130, R137); the engine's steps follow (R138). -/
def execEmbed (s : State) : Host.Outcome State Fault Refusal :=
  .next (issue (encode .embed) embedEffect s)

/-- The end of an EMBED step at scan index k: the pixel is written, PIX <- k + 1, and the step that writes the last bit
sets STATE <- DONE_OK (R138, R139). -/
def embedWrite (p : Pixel) (bit : Bit) (s : State) : State :=
  { s with
    raster := s.raster.store s.pix.toNat (withBlueBit p bit)
    pix := s.pix + 1#32
    state := if s.pix.toNat + 1 = reqBits s then .doneOk else s.state }

/-- embedStep(), one atomic step (R138). -/
def embedStep (s : State) : Host.Outcome State Fault Refusal :=
  if s.pix.toNat < reqBits s then
    match streamBit s s.pix.toNat with
    | .error f => .fault f
    | .ok bit =>
      match engineReadPixel s s.pix.toNat with
      | .error f => .fault f
      | .ok p => .next (embedWrite p bit s)
  else .fault .engineNotEnabled

end Sys2Proof.Machine
end

