-- ==== Sys2Proof/Machine/Extract.lean ====
section
/-! DEFINITION. EXTRACT: its acceptance (42_commands.md R143) and its engine step (R144 to R146). -/

namespace Sys2Proof.Machine

/-- OUT_LEN <- 0 (R143). -/
def clearOutLen (s : State) : State := { s with outLen := 0 }

/-- NO_MARKER_FOUND, raised at acceptance for W*H = 0 or by the step that visits the last pixel: OUT_LEN <- 0, and all of
OUT is unspecified (60_exceptions.md R201; R146; 92 D12; log entries 4 and 11). -/
def scanMissed (s : State) : State := raise .noMarkerFound { s with outLen := 0, out := s.out.forget }

/-- EXTRACT ends at acceptance in the error of the check that failed: OUT_LEN <- 0 (R143), no memory is written (R133), and
for NO_MARKER_FOUND OUT is unspecified (60_exceptions.md R201; DEDUCED, safe: log entry 11). -/
def failExtract (e : ErrCode) (s : State) : State :=
  if e = .noMarkerFound then scanMissed s else raise e (clearOutLen s)

/-- acceptExtract(): OUT_LEN <- 0 even when validation then fails (R143). -/
def extractEffect (s : State) : State :=
  match validateExtract s with
  | some e => failExtract e s
  | none => startBusy (clearOutLen s)

/-- EXTRACT: the write of its word to CMD (R130, R143); the engine's steps follow (R144). -/
def execExtract (s : State) : Host.Outcome State Fault Refusal :=
  .next (issue (encode .extract) extractEffect s)

/-- FOUND: OUT_LEN <- NBYTES - 3, STATE <- DONE_OK (R145); OUT from OUT_LEN on is unspecified (R148). -/
def scanFound (s : State) : State :=
  { s with
    outLen := s.nbytes - 3#32
    state := .doneOk
    out := s.out.keepBelow (s.nbytes - 3#32).toNat }

/-- The end of a step that has not found the marker: NOT_FOUND if it visited the last pixel (R144, R146). -/
def scanOn (s : State) : State := if s.pix.toNat = capacity s then scanMissed s else s

/-- PIX <- k + 1 with the accumulator as the step leaves it (R144). -/
def takeBit (a : Accumulated) (s : State) : State :=
  { s with pix := s.pix + 1#32, acc := a.acc, accCnt := a.accCnt }

/-- WIN and NBYTES as a completed byte leaves them (R144). -/
def takeByte (q : Pushed) (s : State) : State := { s with win := q.win, nbytes := q.nbytes }

/-- The payload byte leaving the window is written to OUT, XORed with its key byte, when there is one (R144;
41_xor.md R126). -/
def emitByte (q : Pushed) (s : State) : Except Fault State :=
  if q.emit then
    match engineReadKey s (s.nbytes.toNat - 3) with
    | .error f => .error f
    | .ok k => engineWriteOut s (s.nbytes.toNat - 3) (q.outgoing ^^^ k)
  else .ok s

/-- extractStep(), one atomic step (R144). -/
def extractStep (s : State) : Host.Outcome State Fault Refusal :=
  if s.pix.toNat < capacity s then
    match engineReadPixel s s.pix.toNat with
    | .error f => .fault f
    | .ok p =>
      let a := accumulate s.acc s.accCnt ((p.b &&& 1#8).setWidth 1)
      match a.completed with
      | none => .next (scanOn (takeBit a s))
      | some c =>
        let q := pushByte s.win s.nbytes c
        match emitByte q s with
        | .error f => .fault f
        | .ok t =>
          if q.found then .next (scanFound (takeByte q (takeBit a t)))
          else .next (scanOn (takeByte q (takeBit a t)))
  else .fault .engineNotEnabled

end Sys2Proof.Machine
end

