-- ==== Sys2Proof/Machine/HostBus.lean ====
section
/-! DEFINITION. The host's transactions (43_host_bus.md R171 to R177) and the reset input (70_reset_and_hazards.md R220). -/

namespace Sys2Proof.Machine

/-- The value of a register (10_state.md R22 to R35), reserved bits as 0. -/
def readReg (s : State) : RegName → Word
  | .cmd => s.cmd
  | .status => statusWord s
  | .width => s.width.setWidth 32
  | .height => s.height.setWidth 32
  | .msgLen => s.msgLen.setWidth 32
  | .keyLen => s.keyLen.setWidth 32
  | .capacity => BitVec.ofNat 32 (capacity s)
  | .reqBits => BitVec.ofNat 32 (reqBits s)
  | .outLen => s.outLen
  | .bitCount => s.pix
  | .reserved => 0

/-- A write to CMD (10_state.md R23; 42_commands.md R130). -/
def writeCmd (w : Word) (s : State) : Host.Outcome State Fault Refusal :=
  match decode w with
  | .ok i => exec i s
  | .error _ => .next (issueIllegal w s)

/-- The effect of a register write (43_host_bus.md R172). -/
def writeReg (r : RegName) (v : Word) (s : State) : Host.Outcome State Fault Refusal :=
  match r with
  | .cmd => writeCmd v s
  | .status => .next (writeStatus v s)
  | .width => .next (unlessBusy (loadWidth v) s)
  | .height => .next (unlessBusy (loadHeight v) s)
  | .msgLen => .next (unlessBusy (loadMsgLen v) s)
  | .keyLen => .next (unlessBusy (loadKeyLen v) s)
  | .capacity => .next s
  | .reqBits => .next s
  | .outLen => .next s
  | .bitCount => .next s
  | .reserved => .next s

/-- Why a register access is refused, if it is (43_host_bus.md R177 (1), (2)). -/
def registerRefusal (width off : Nat) : Option Refusal :=
  if width ≠ 32 then some .registerWidth
  else if off % 4 ≠ 0 ∨ 0xFC < off then some .registerOffset
  else none

/-- A register read (43_host_bus.md R171). -/
def performRd (width off : Nat) (s : State) : Host.Outcome State Fault Refusal :=
  match registerRefusal width off with
  | some r => .next (refuse r s)
  | none => .next (answer (readReg s (regAt off)) s)

/-- A register write (43_host_bus.md R172). -/
def performWr (width off : Nat) (v : Word) (s : State) : Host.Outcome State Fault Refusal :=
  match registerRefusal width off with
  | some r => .next (refuse r s)
  | none => writeReg (regAt off) v s

/-- A memory-window read (43_host_bus.md R173, R176). -/
def performMrd (sp : Space) (i : Nat) (s : State) : Host.Outcome State Fault Refusal :=
  if s.sizes.of sp ≤ i then .next (refuse .elementOutOfRange s)
  else if s.state = .busy then .next (answerFree s)
  else .next (answer (readElement s sp i) s)

/-- A memory-window write (43_host_bus.md R174, R176). -/
def performMwr (sp : Space) (i : Nat) (v : Word) (s : State) : Host.Outcome State Fault Refusal :=
  if s.sizes.of sp ≤ i then .next (refuse .elementOutOfRange s)
  else if s.state = .busy then .next (refuse .windowWriteWhileBusy s)
  else .next (writeElement sp i v s)

/-- The poll is to be read again. -/
def pollAgain (s : State) : State := { s with program := .poll :: s.program }

/-- One read of a poll: STATUS is read, and the poll stays at the head of the program while it shows BUSY
(30_encoding.md R78). -/
def performPoll (s : State) : Host.Outcome State Fault Refusal :=
  if s.state = .busy then .next (pollAgain (answer (statusWord s) s)) else .next (answer (statusWord s) s)

/-- The host's or the platform's next item, taken off the program already (43_host_bus.md R170). -/
def performHost (op : HostOp) (s : State) : Host.Outcome State Fault Refusal :=
  match op with
  | .rd width off => performRd width off s
  | .wr width off v => performWr width off v s
  | .mrd sp i => performMrd sp i s
  | .mwr sp i v => performMwr sp i v s
  | .poll => performPoll s
  | .reset => .next (resetBlock s)

end Sys2Proof.Machine
end

