-- ==== Sys2Proof/Machine/System.lean ====
section
/-! DEFINITION. Who moves, and the step of the whole system (43_host_bus.md R170; 42_commands.md R152). -/

namespace Sys2Proof.Machine

/-- The engine's step: R138 or R144 by OP (42_commands.md R152). -/
def engineStep (s : State) : Host.Outcome State Fault Refusal :=
  if s.op = 0x2#4 then embedStep s
  else if s.op = 0x3#4 then extractStep s
  else .fault .engineNotEnabled

/-- How many host transactions come before the engine's next step, while both may move: the head of `turns`, or a draw
(log entry 6). A natural number, so the engine is weakly fair (43_host_bus.md R178). -/
def turnsLeft (s : State) : Nat :=
  match s.turns with
  | n :: _ => n
  | [] => Config.freeTurns s.draws

/-- The draws used once `turnsLeft` has been read. -/
def drawsAfterTurn (s : State) : Nat :=
  match s.turns with
  | _ :: _ => s.draws
  | [] => s.draws + 1

/-- The engine moves: this entry of `turns` is used up. -/
def engineTurn (s : State) : State := { s with turns := s.turns.tail, draws := drawsAfterTurn s }

/-- The host moves while the engine could: one transaction fewer before the engine's step. -/
def hostTurn (s : State) : State :=
  { s with turns := (turnsLeft s - 1) :: s.turns.tail, draws := drawsAfterTurn s }

/-- One transaction is taken off the program. -/
def dropHead (s : State) : State := { s with program := s.program.tail }

/-- The host performs its next item `op`, or, while BUSY, the engine may step first (43_host_bus.md R170). -/
def moveHost (op : HostOp) (s : State) : Host.Outcome State Fault Refusal :=
  if s.state = .busy then
    if turnsLeft s = 0 then engineStep (engineTurn s)
    else performHost op (dropHead (hostTurn s))
  else performHost op (dropHead s)

/-- Nothing left for the host: the engine steps while BUSY, and otherwise nothing moves (43_host_bus.md R179; log entry 7). -/
def moveAlone (s : State) : Host.Outcome State Fault Refusal :=
  if s.state = .busy then engineStep s else .next s

/-- A run marked refused stays refused (43_host_bus.md R177), until a reset starts a new run (70_reset_and_hazards.md R220). -/
def moveRefused (r : Refusal) (s : State) : Host.Outcome State Fault Refusal :=
  match s.program with
  | .reset :: _ => .next (resetBlock (dropHead s))
  | _ => .refused r

/-- One step of the system. -/
def systemStep (s : State) : Host.Outcome State Fault Refusal :=
  match s.refusal with
  | some r => moveRefused r s
  | none =>
    match s.program with
    | [] => moveAlone s
    | op :: _ => moveHost op s

/-- The host writes the word `w` to CMD in the very next step: the write heads the program, no refusal is recorded, and
while BUSY the host has the next turn (log entry 7). -/
def withCommand (s : State) (w : Word) : State :=
  { s with
    program := .wr 32 cmdOffset w :: s.program
    refusal := none
    turns := if s.state = .busy then (match s.turns with | n :: rest => (n + 1) :: rest | [] => [1]) else s.turns }

end Sys2Proof.Machine
end

