-- ==== Sys2Proof/Machine/Step.lean ====
section
/-! DEFINITION. The step of the machine, and how a command is placed to run next. The block fetches nothing (20_memory.md
R64): a command runs when the host writes its word to CMD. -/

namespace Sys2Proof.Machine

/-- One step (43_host_bus.md R170). -/
def step (s : State) : Host.Outcome State Fault Refusal := systemStep s

/-- `s` with the command of `w` the very next thing that happens; bits from `nbits` on are 0 (log entry 7). -/
def State.withFetchWord (s : State) (nbits w : Nat) : State := withCommand s (BitVec.ofNat 32 (w % 2 ^ nbits))

end Sys2Proof.Machine
end

