-- ==== Sys2Proof/Safety.lean ====
section
/-! DEFINITION. The terms in which claims are stated: the launch premise and the end of a run (43_host_bus.md R179, R182),
the invariant of the machine, and the invariant of an EXTRACT's scan (42_commands.md R147). -/

namespace Sys2Proof.Machine

/-- CleanEntry: STATE != BUSY, LOST = 0 and no refusal recorded (43_host_bus.md R182). -/
abbrev CleanEntry (s : State) : Prop := s.state ≠ .busy ∧ s.lost = false ∧ s.refusal = none

/-- The end of a run: the host has no transaction left and STATE != BUSY (43_host_bus.md R179). A reset is no transaction (R181),
so one still to come does not keep the run from its end. -/
abbrev RunEnded (s : State) : Prop := (∀ op ∈ s.program, op.isTransaction = false) ∧ s.state ≠ .busy

/-- A good run: not refused (43_host_bus.md R179). -/
abbrev GoodRun (s : State) : Prop := s.refusal = none

/-- What is observed at the end of a run: the registers of R22 in the order of their offsets, and the contents of the four
memories from element 0 on (R179). -/
structure Observation where
  registers : List Word
  raster : List Pixel
  msg : List Byte
  key : List Byte
  out : List Byte
deriving DecidableEq, Repr

/-- The observation of a state (43_host_bus.md R179). -/
def observe (s : State) : Observation where
  registers := [.cmd, .status, .width, .height, .msgLen, .keyLen, .capacity, .reqBits, .outLen, .bitCount].map (readReg s)
  raster := (List.range s.sizes.pMax).map (pixelAt s)
  msg := (List.range s.sizes.mMax).map (msgAt s)
  key := (List.range s.sizes.kMax).map (keyAt s)
  out := (List.range s.sizes.oMax).map (outAt s)

/-- It is the engine that takes the next step: STATE = BUSY in a run not refused, and the host has nothing left or it is not
its turn (43_host_bus.md R170; log entry 6). -/
abbrev EngineMoves (s : State) : Prop := s.refusal = none ∧ s.state = .busy ∧ (s.program = [] ∨ turnsLeft s = 0)

/-- Every listed index of a memory is below its size (20_memory.md R50). -/
abbrev listedBelow {α : Type} (m : Memory α) (n : Nat) : Prop := ∀ c ∈ m.cells, c.1 < n

/-- The four memories are in canonical form and list only elements that exist. -/
structure MemoriesOk (s : State) : Prop where
  raster_wf : s.raster.wf
  msg_wf : s.msg.wf
  key_wf : s.key.wf
  out_wf : s.out.wf
  raster_in : listedBelow s.raster s.sizes.pMax
  msg_in : listedBelow s.msg s.sizes.mMax
  key_in : listedBelow s.key s.sizes.kMax
  out_in : listedBelow s.out s.sizes.oMax

/-- An EMBED is in progress: its checks passed (42_commands.md R131) and PIX < N (R138). -/
structure EmbedRunning (s : State) : Prop where
  busy : s.state = .busy
  cmd : s.cmd = encode .embed
  op : s.op = 0x2
  checked : validateEmbed s = none
  pix_lt : s.pix.toNat < reqBits s

/-- An EXTRACT is in progress: its checks passed (42_commands.md R132), PIX < W*H (R144), the counters follow PIX (R147) and
OUT_LEN is still the 0 of acceptance (R143). -/
structure ExtractRunning (s : State) : Prop where
  busy : s.state = .busy
  cmd : s.cmd = encode .extract
  op : s.op = 0x3
  checked : validateExtract s = none
  pix_lt : s.pix.toNat < capacity s
  accCnt_eq : s.accCnt.toNat = s.pix.toNat % 8
  nbytes_eq : s.nbytes.toNat = s.pix.toNat / 8
  outLen_eq : s.outLen = 0

/-- What the recorded error says of the other registers (60_exceptions.md R200 to R204). -/
def errorRecord (s : State) : Prop :=
  match s.err with
  | .noError => True
  | .capacityExceeded => s.cmd = encode .embed ∧ s.pix = 0
  | .noMarkerFound => s.cmd = encode .extract ∧ s.outLen = 0
  | .keyEmpty => s.pix = 0 ∧ (s.cmd = encode .embed ∨ (s.cmd = encode .extract ∧ s.outLen = 0))
  | .badLength => s.pix = 0 ∧ (s.cmd = encode .embed ∨ (s.cmd = encode .extract ∧ s.outLen = 0))
  | .illegalCommand => s.pix = 0 ∧ (decode s.cmd).toOption = none

/-- The invariant of the machine: it holds just after reset and every step keeps it. -/
structure Inv (s : State) : Prop where
  memories : MemoriesOk s
  /-- OP is the low four bits of CMD (10_state.md R38, 42_commands.md R130). -/
  op_eq : s.op = s.cmd.extractLsb' 0 4
  /-- ERR is an error code exactly when STATE = DONE_ERR (10_state.md R26). -/
  err_iff : s.err ≠ .noError ↔ s.state = .doneErr
  record : errorRecord s
  /-- IDLE: no command since reset (10_state.md R25), so what only commands write has its reset value (R40). -/
  idle : s.state = .idle →
    s.cmd = 0 ∧ s.fits = false ∧ s.lost = false ∧ s.outLen = 0 ∧ s.pix = 0 ∧ s.acc = 0 ∧ s.accCnt = 0 ∧ s.win = 0 ∧ s.nbytes = 0
  /-- DONE_OK is the end of a command (10_state.md R25). -/
  doneOk : s.state = .doneOk → ∃ i, s.cmd = encode i
  /-- The message of the last successful EXTRACT lies in OUT (10_state.md R33). -/
  outLen_le : s.outLen.toNat ≤ s.sizes.oMax
  /-- BUSY: EMBED or EXTRACT is in progress (42_commands.md R152). -/
  busy : s.state = .busy → EmbedRunning s ∨ ExtractRunning s

/-- Byte `d` places before the newest of the whole bytes read, 0 where there is none (42_commands.md R147). -/
def newestByte (bs : List Byte) (d : Nat) : Byte := if d < bs.length then (bs[bs.length - 1 - d]?).getD 0 else 0

/-- The invariant of the scan (42_commands.md R147): `bs` stands for B_n, with n = PIX. -/
structure ScanInv (s : State) (bs : List Byte) : Prop where
  bytes : bitsToBytes (bitBuffer s (8 * (s.pix.toNat / 8))) = some bs
  accCnt_eq : s.accCnt.toNat = s.pix.toNat % 8
  acc_bits : ∀ i, i < s.pix.toNat % 8 → bitOf s.acc i = blueBit s (s.pix.toNat - 1 - i)
  nbytes_eq : s.nbytes.toNat = bs.length
  length_eq : bs.length = s.pix.toNat / 8
  win_0 : s.win.extractLsb' 0 8 = newestByte bs 0
  win_1 : s.win.extractLsb' 8 8 = newestByte bs 1
  win_2 : s.win.extractLsb' 16 8 = newestByte bs 2
  out_eq : ∀ j v, j + 3 < bs.length → bs[j]? = some v → s.out.find j = some (v ^^^ keyAt s (j % s.keyLen.toNat))
  no_marker : ∀ n, 24 ≤ n → n ≤ s.pix.toNat → n % 8 = 0 → isEndMarker (bitBuffer s n) n = some false

/-- How far an EMBED has come (42_commands.md R138, R140): `st` is its stream, `ras` the raster at acceptance; the pixels
below PIX carry the stream's bits and the others are as they were. -/
structure EmbedProgress (ras : Nat → Pixel) (st : List Byte) (s : State) : Prop where
  stream : embedStream s = some st
  written : ∀ k bit, k < s.pix.toNat → (bytesToBits st)[k]? = some bit → pixelAt s k = withBlueBit (ras k) bit
  untouched : ∀ k, s.pix.toNat ≤ k → pixelAt s k = ras k

/-- The three bytes 0x00, 0x00, 0x03 at positions i, i+1 and i+2 of a byte sequence (42_commands.md R149, R150). -/
abbrev MarkerAt (bs : List Byte) (i : Nat) : Prop := bs[i]? = some 0x00 ∧ bs[i + 1]? = some 0x00 ∧ bs[i + 2]? = some 0x03

/-- `n` steps of the system (Host.Core.run), the form in which claims speak of a whole command. -/
abbrev runFor (n : Nat) (s : State) : Host.Outcome State Fault Refusal := Sys2Proof.core.run n s

/-- `t` is the first state of the run from `a` in which STATE != BUSY, `n` steps on, whoever moves on the way. After the
acceptance `a` of a command it is the end of that command, or a reset has abandoned it and t.state is IDLE
(42_commands.md R153, 70_reset_and_hazards.md R221). -/
abbrev CommandEnds (n : Nat) (a t : State) : Prop :=
  runFor n a = .next t ∧ t.state ≠ .busy ∧ ∀ m, m < n → ∃ u, runFor m a = .next u ∧ u.state = .busy

/-- Bits taken one after another by the accumulator (40_bitcodec.md R110). -/
def accumulateBits : Accumulated → List Bit → Accumulated
  | a, [] => a
  | a, b :: rest => accumulateBits (accumulate a.acc a.accCnt b) rest

/-- Bytes pushed one after another into the marker window (40_bitcodec.md R111). -/
def pushBytes : Pushed → List Byte → Pushed
  | q, [] => q
  | q, c :: rest => pushBytes (pushByte q.win q.nbytes c) rest

/-- The window at acceptance: WIN = 0 and NBYTES = 0 (42_commands.md R130). -/
def emptyWindow : Pushed where
  outgoing := 0
  emit := false
  win := 0
  nbytes := 0
  found := false

end Sys2Proof.Machine
end

