-- ==== Sys2Proof/Certificates/Slice0/Obligations.lean ====
section
/-! DEFINITION. The statements for the provers. Each docstring names the rule of spec/ it formalises. -/

open Sys2Proof Sys2Proof.Machine

/-! ## Encoding -/

/-- 30_encoding.md R72, R74: the three words of the opcode map and four illegal words. -/
def Obligations.TableWordsDecode : Prop :=
  decode 0x00000001#32 = .ok .canEmbed ∧ decode 0x00000002#32 = .ok .embed ∧ decode 0x00000003#32 = .ok .extract ∧
  decode 0x00000000#32 = .error .reservedOpcode ∧ decode 0x00000004#32 = .error .reservedOpcode ∧
  decode 0x00000011#32 = .error .reservedBits ∧ decode 0xFFFFFFFF#32 = .error .reservedBits

/-- R75: the decoder on every 32-bit word. -/
def Obligations.DecoderIsTheSpecsCaseSplit : Prop :=
  ∀ w : Word, (decode w).toOption =
    if w = 0x00000001#32 then some .canEmbed
    else if w = 0x00000002#32 then some .embed
    else if w = 0x00000003#32 then some .extract
    else none

/-- R72: the decoder gives a command on exactly one word, the one the encoder gives it. -/
def Obligations.DecodeInvertsEncode : Prop :=
  ∀ (w : Word) (i : Instr), i.wellFormed = true → (decode w = .ok i ↔ w = encode i)

/-! ## The step -/

/-- 43_host_bus.md R170, 42_commands.md R152: in a run not refused the step performs the host's next item, whatever it is, after the
item is taken off the program; while BUSY the engine may step first (`turnsLeft`, log entry 6). A CMD write runs the decoded
command, or the illegal word's effect (R130, R136). -/
def Obligations.StepRunsTheDecodedCommand : Prop :=
  ∀ (s : State) (op : HostOp) (rest : List HostOp), s.refusal = none → s.program = op :: rest →
    (s.state ≠ .busy → step s = performHost op { s with program := rest }) ∧
    (s.state = .busy → turnsLeft s ≠ 0 → step s = performHost op { hostTurn s with program := rest }) ∧
    (s.state = .busy → turnsLeft s = 0 → step s = engineStep (engineTurn s)) ∧
    (∀ (w : Word) (i : Instr), op = .wr 32 0x00 w → decode w = .ok i →
      (s.state ≠ .busy → step s = exec i { s with program := rest }) ∧
      (s.state = .busy → turnsLeft s ≠ 0 → step s = exec i { hostTurn s with program := rest })) ∧
    (∀ (w : Word) (e : DecodeError), op = .wr 32 0x00 w → decode w = .error e →
      (s.state ≠ .busy → step s = .next (issueIllegal w { s with program := rest })) ∧
      (s.state = .busy → turnsLeft s ≠ 0 → step s = .next (issueIllegal w { hostTurn s with program := rest })))

/-- The model's own (log entry 7): a placed command is the very next thing that runs. -/
def Obligations.PlacedCommandRunsNext : Prop :=
  ∀ (s : State) (nbits w : Nat) (i : Instr), decodeTableWord nbits w = some i →
    ∃ u : State, step (s.withFetchWord nbits w) = exec i u ∧ u = { s with refusal := none, turns := u.turns } ∧
      (u.turns = s.turns ∨ (s.state = .busy ∧ s.turns = [] ∧ u.turns = [0]))

/-- 42_commands.md R152, 43_host_bus.md R170: with nothing left for the host the engine steps while BUSY; otherwise the
block keeps all state (60_exceptions.md R218). -/
def Obligations.BlockAloneStepsOrStays : Prop :=
  ∀ s : State, s.refusal = none → s.program = [] →
    (s.state = .busy → step s = engineStep s) ∧ (s.state ≠ .busy → step s = .next s)

/-! ## Reset -/

/-- 10_state.md R40: the values after reset; the memories list nothing, so every element holds a free value (log entry 3). -/
def Obligations.ResetLeavesTheSpecValues : Prop :=
  (∀ r : RegName, readReg State.reset r = if r = .reqBits then 0x18#32 else 0#32) ∧
  State.reset.state = .idle ∧ State.reset.err = .noError ∧ State.reset.fits = false ∧ State.reset.lost = false ∧
  State.reset.op = 0 ∧ State.reset.acc = 0 ∧ State.reset.accCnt = 0 ∧ State.reset.win = 0 ∧ State.reset.nbytes = 0 ∧
  CleanEntry State.reset ∧
  (∀ i, pixelAt State.reset i = Config.freePixel 0 i) ∧ (∀ i, msgAt State.reset i = Config.freeByte .msg 0 i) ∧
  (∀ i, keyAt State.reset i = Config.freeByte .key 0 i) ∧ (∀ i, outAt State.reset i = Config.freeByte .out 0 i)

/-- 70_reset_and_hazards.md R220, R221: the reset input, BUSY or not, marked refused or not; the memories take a new draw
(log entry 3). -/
def Obligations.ResetInputResetsTheBlock : Prop :=
  ∀ (s : State) (rest : List HostOp), s.program = .reset :: rest →
    (s.refusal ≠ none ∨ s.state ≠ .busy ∨ turnsLeft s ≠ 0) →
    ∃ t : State, step s = .next t ∧ CleanEntry t ∧ t.program = rest ∧ t.sizes = s.sizes ∧ t.answers = s.answers ∧
      (∀ r : RegName, readReg t r = readReg State.reset r) ∧ t.state = .idle ∧ t.err = .noError ∧
      t.op = 0 ∧ t.acc = 0 ∧ t.accCnt = 0 ∧ t.win = 0 ∧ t.nbytes = 0 ∧
      (∀ i, pixelAt t i = Config.freePixel (s.raster.draw + 1) i) ∧
      (∀ i, msgAt t i = Config.freeByte .msg (s.msg.draw + 1) i) ∧
      (∀ i, keyAt t i = Config.freeByte .key (s.key.draw + 1) i) ∧
      (∀ i, outAt t i = Config.freeByte .out (s.out.draw + 1) i)

/-! ## Acceptance of the commands -/

/-- 42_commands.md R135: CAN_EMBED, its result and its frame. -/
def Obligations.CanEmbedSetsFits : Prop :=
  ∀ s : State, s.state ≠ .busy →
    exec .canEmbed s = .next
      { s with
        cmd := 0x00000001, err := .noError, pix := 0, acc := 0, accCnt := 0, win := 0, nbytes := 0, op := 0x1
        fits := decide (8 * s.msgLen.toNat + 24 ≤ s.width.toNat * s.height.toNat)
        state := .doneOk }

/-- R131, and the order of 60_exceptions.md R207: which error ends EMBED at acceptance. -/
def Obligations.EmbedChecksInOrder : Prop :=
  ∀ s : State, s.state ≠ .busy →
    exec .embed s = .next
      (let a : State :=
        { s with cmd := 0x00000002, err := .noError, pix := 0, acc := 0, accCnt := 0, win := 0, nbytes := 0, op := 0x2 }
      if s.sizes.pMax < s.width.toNat * s.height.toNat ∨ s.sizes.mMax < s.msgLen.toNat ∨ s.sizes.kMax < s.keyLen.toNat then
        { a with err := .badLength, state := .doneErr }
      else if s.keyLen.toNat = 0 then { a with err := .keyEmpty, state := .doneErr }
      else if s.width.toNat * s.height.toNat < 8 * s.msgLen.toNat + 24 then
        { a with err := .capacityExceeded, state := .doneErr }
      else { a with state := .busy })

/-- R132, R143, and the order of 60_exceptions.md R207: which error ends EXTRACT at acceptance; OUT_LEN is cleared in
every case, and no other memory changes (R133). That OUT is unspecified after NO_MARKER_FOUND (60_exceptions.md R201) is log entry 11. -/
def Obligations.ExtractChecksInOrder : Prop :=
  ∀ s : State, s.state ≠ .busy →
    exec .extract s = .next
      (let a : State :=
        { s with
          cmd := 0x00000003, err := .noError, pix := 0, acc := 0, accCnt := 0, win := 0, nbytes := 0, op := 0x3
          outLen := 0 }
      if s.sizes.pMax < s.width.toNat * s.height.toNat ∨ s.sizes.kMax < s.keyLen.toNat then
        { a with err := .badLength, state := .doneErr }
      else if s.keyLen.toNat = 0 then { a with err := .keyEmpty, state := .doneErr }
      else if s.width.toNat * s.height.toNat = 0 then
        { a with err := .noMarkerFound, state := .doneErr, out := s.out.forget }
      else { a with state := .busy })

/-- R136, 60_exceptions.md R204: an illegal word, its result and its frame. -/
def Obligations.IllegalWordEndsInError : Prop :=
  ∀ (s : State) (w : Word), s.state ≠ .busy → w ≠ 0x00000001 → w ≠ 0x00000002 → w ≠ 0x00000003 →
    performHost (.wr 32 0x00 w) s = .next
      { s with
        cmd := w, pix := 0, acc := 0, accCnt := 0, win := 0, nbytes := 0, op := w.setWidth 4
        err := .illegalCommand, state := .doneErr }

/-- R130, R133: what the acceptance of any word leaves unchanged. OUT is free after NO_MARKER_FOUND alone (60_exceptions.md R201; log
entry 11). -/
def Obligations.AcceptanceFrame : Prop :=
  ∀ (s : State) (w : Word), s.state ≠ .busy →
    ∃ t : State, performHost (.wr 32 0x00 w) s = .next t ∧
      t.cmd = w ∧ t.op = w.setWidth 4 ∧ t.pix = 0 ∧ t.acc = 0 ∧ t.accCnt = 0 ∧ t.win = 0 ∧ t.nbytes = 0 ∧
      (t.state ≠ .doneErr → t.err = .noError) ∧ (w ≠ 0x00000001 → t.fits = s.fits) ∧ (w ≠ 0x00000003 → t.outLen = s.outLen) ∧
      (t.out = s.out ∨ (w = 0x00000003 ∧ t.err = .noMarkerFound ∧ t.out = s.out.forget)) ∧
      t = { s with
            cmd := t.cmd, op := t.op, pix := t.pix, acc := t.acc, accCnt := t.accCnt, win := t.win, nbytes := t.nbytes
            err := t.err, state := t.state, fits := t.fits, outLen := t.outLen, out := t.out }

/-- R142: what the FITS that a CAN_EMBED gives says of an EMBED with the same W, H and L. -/
def Obligations.FitsPredictsEmbed : Prop :=
  ∀ s u : State, s.state ≠ .busy → u.state ≠ .busy → u.width = s.width → u.height = s.height → u.msgLen = s.msgLen →
    ∃ c e : State, exec .canEmbed s = .next c ∧ exec .embed u = .next e ∧
      (c.fits = true → u.width.toNat * u.height.toNat ≤ u.sizes.pMax → u.msgLen.toNat ≤ u.sizes.mMax →
        1 ≤ u.keyLen.toNat → u.keyLen.toNat ≤ u.sizes.kMax → e.state = .busy) ∧
      (c.fits = false → e.state = .doneErr ∧
        (e.err = .badLength ∧ (u.sizes.pMax < u.width.toNat * u.height.toNat ∨ u.sizes.mMax < u.msgLen.toNat ∨
            u.sizes.kMax < u.keyLen.toNat) ∨
          e.err = .keyEmpty ∧ u.keyLen.toNat = 0 ∨
          e.err = .capacityExceeded ∧ u.width.toNat * u.height.toNat ≤ u.sizes.pMax ∧ u.msgLen.toNat ≤ u.sizes.mMax ∧
            u.keyLen.toNat ≤ u.sizes.kMax ∧ u.keyLen.toNat ≠ 0))

/-! ## The host's transactions -/

/-- R172: a register write, register by register; an access that R177 refuses only marks the run. -/
def Obligations.RegisterWritesFollowTheTable : Prop :=
  ∀ (s : State) (v : Word),
    (s.state ≠ .busy →
      (∀ i, decode v = .ok i → performHost (.wr 32 0x00 v) s = exec i s) ∧
      (∀ e, decode v = .error e → performHost (.wr 32 0x00 v) s = .next (issueIllegal v s)) ∧
      performHost (.wr 32 0x08 v) s = .next { s with width := v.extractLsb' 0 16 } ∧
      performHost (.wr 32 0x0C v) s = .next { s with height := v.extractLsb' 0 16 } ∧
      performHost (.wr 32 0x10 v) s = .next { s with msgLen := v.extractLsb' 0 28 } ∧
      performHost (.wr 32 0x14 v) s = .next { s with keyLen := v.extractLsb' 0 28 }) ∧
    (s.state = .busy → ∀ off, off ∈ [0x00, 0x08, 0x0C, 0x10, 0x14] →
      performHost (.wr 32 off v) s = .next { s with lost := true }) ∧
    performHost (.wr 32 0x04 v) s = .next (if v.getLsbD 9 then { s with lost := false } else s) ∧
    (∀ off, 0x18 ≤ off → off ≤ 0xFC → off % 4 = 0 → performHost (.wr 32 off v) s = .next s) ∧
    (∀ off, (off % 4 ≠ 0 ∨ 0xFC < off) → ∃ r, performHost (.wr 32 off v) s = .next { s with refusal := some r })

/-- R171, 10_state.md R22 to R35: a register read returns the register's value and changes nothing else, in every STATE; an
access that R177 refuses only marks the run. STATUS is written out in the numbers of R24, R25 and R26. -/
def Obligations.RegisterReadsReturnTheRegister : Prop :=
  ∀ (s : State) (off : Nat),
    ((off % 4 ≠ 0 ∨ 0xFC < off) → ∃ r, performHost (.rd 32 off) s = .next { s with refusal := some r }) ∧
    (off % 4 = 0 → off ≤ 0xFC →
      ∃ v : Word, performHost (.rd 32 off) s = .next { s with answers := v :: s.answers } ∧
        (off = 0x00 → v = s.cmd) ∧
        (off = 0x04 → v.toNat =
          (match s.state with | .idle => 0 | .busy => 1 | .doneOk => 2 | .doneErr => 3) +
          2 ^ 4 * (match s.err with
            | .noError => 0 | .capacityExceeded => 1 | .noMarkerFound => 2
            | .keyEmpty => 3 | .badLength => 4 | .illegalCommand => 5) +
          2 ^ 8 * (if s.fits then 1 else 0) + 2 ^ 9 * (if s.lost then 1 else 0)) ∧
        (off = 0x08 → v.toNat = s.width.toNat) ∧ (off = 0x0C → v.toNat = s.height.toNat) ∧
        (off = 0x10 → v.toNat = s.msgLen.toNat) ∧ (off = 0x14 → v.toNat = s.keyLen.toNat) ∧
        (off = 0x18 → v.toNat = s.width.toNat * s.height.toNat) ∧ (off = 0x1C → v.toNat = 8 * s.msgLen.toNat + 24) ∧
        (off = 0x20 → v = s.outLen) ∧ (off = 0x24 → v = s.pix) ∧ (0x28 ≤ off → v = 0))

/-- 20_memory.md R52: which bits of an element's host word are which channel, and the word written and read back; R50: no element
of one space is an element of another. -/
def Obligations.ElementWordsReadBack : Prop :=
  (∀ (s : State) (i : Nat),
    (readElement s .raster i).toNat =
      2 ^ 16 * (pixelAt s i).r.toNat + 2 ^ 8 * (pixelAt s i).g.toNat + (pixelAt s i).b.toNat ∧
    (readElement s .msg i).toNat = (msgAt s i).toNat ∧ (readElement s .key i).toNat = (keyAt s i).toNat ∧
    (readElement s .out i).toNat = (outAt s i).toNat) ∧
  (∀ (s : State) (sp sp' : Space) (i j : Nat) (v : Word),
    readElement (writeElement sp i v s) sp' j =
      if sp' = sp ∧ j = i then (if sp = .raster then v &&& 0x00FFFFFF#32 else v &&& 0x000000FF#32)
      else readElement s sp' j)

/-- 43_host_bus.md R173, R176: a window read. While BUSY it returns a free value (log entry 5). -/
def Obligations.WindowReads : Prop :=
  ∀ (s : State) (sp : Space) (i : Nat), i < s.sizes.of sp →
    (s.state ≠ .busy → performHost (.mrd sp i) s = .next { s with answers := readElement s sp i :: s.answers }) ∧
    (s.state = .busy →
      performHost (.mrd sp i) s = .next { s with answers := Config.freeWord s.draws :: s.answers, draws := s.draws + 1 })

/-- R174: a window write, its effect on every element and its frame; what R177 refuses only marks the run. -/
def Obligations.WindowWrites : Prop :=
  ∀ (s : State) (sp : Space) (i : Nat) (v : Word),
    (s.sizes.of sp ≤ i ∨ s.state = .busy → ∃ r, performHost (.mwr sp i v) s = .next { s with refusal := some r }) ∧
    (i < s.sizes.of sp → s.state ≠ .busy →
      ∃ t : State, performHost (.mwr sp i v) s = .next t ∧
        t = { s with raster := t.raster, msg := t.msg, key := t.key, out := t.out } ∧
        (∀ j, pixelAt t j = if sp = .raster ∧ j = i then
          ⟨v.extractLsb' 16 8, v.extractLsb' 8 8, v.extractLsb' 0 8⟩ else pixelAt s j) ∧
        (∀ j, msgAt t j = if sp = .msg ∧ j = i then v.extractLsb' 0 8 else msgAt s j) ∧
        (∀ j, keyAt t j = if sp = .key ∧ j = i then v.extractLsb' 0 8 else keyAt s j) ∧
        (∀ j, outAt t j = if sp = .out ∧ j = i then v.extractLsb' 0 8 else outAt s j))

/-- R177: the four refused transactions, their one effect, and that the run stays refused (until a reset starts another). -/
def Obligations.RefusedTransactionsMarkTheRun : Prop :=
  (∀ (s : State) (width off : Nat) (v : Word), (width ≠ 32 ∨ off % 4 ≠ 0 ∨ 0xFC < off) →
    ∃ r, performHost (.rd width off) s = .next { s with refusal := some r } ∧
      performHost (.wr width off v) s = .next { s with refusal := some r }) ∧
  (∀ (s : State) (sp : Space) (i : Nat) (v : Word), s.sizes.of sp ≤ i →
    ∃ r, performHost (.mrd sp i) s = .next { s with refusal := some r } ∧
      performHost (.mwr sp i v) s = .next { s with refusal := some r }) ∧
  (∀ (s : State) (sp : Space) (i : Nat) (v : Word), s.state = .busy →
    ∃ r, performHost (.mwr sp i v) s = .next { s with refusal := some r }) ∧
  (∀ (s : State) (r : Refusal), s.refusal = some r → (∀ rest, s.program ≠ .reset :: rest) → step s = .refused r)

/-- R177, R219: a step is refused only in a run that is marked. -/
def Obligations.OnlyMarkedRunsAreRefused : Prop :=
  ∀ (s : State) (r : Refusal),
    step s = .refused r ↔ s.refusal = some r ∧ ∀ rest, s.program ≠ .reset :: rest

/-- 30_encoding.md R78: one read of a poll. -/
def Obligations.PollReadsUntilNotBusy : Prop :=
  ∀ s : State,
    (s.state = .busy → performHost .poll s =
      .next { s with answers := statusWord s :: s.answers, program := .poll :: s.program }) ∧
    (s.state ≠ .busy → performHost .poll s = .next { s with answers := statusWord s :: s.answers }) ∧
    (s.state = .busy ↔ (statusWord s).extractLsb' 0 2 = 1)

/-- R175: a dropped write sets LOST and does nothing else; LOST stays 1 until a STATUS write with bit 9 = 1 or a reset; the
operand registers are constant while BUSY. -/
def Obligations.DroppedWritesLeaveTheirMark : Prop :=
  (∀ (s : State) (off : Nat) (v : Word), s.state = .busy → off ∈ [0x00, 0x08, 0x0C, 0x10, 0x14] →
    performHost (.wr 32 off v) s = .next { s with lost := true }) ∧
  (∀ (s : State) (i : Instr), s.state = .busy → exec i s = .next { s with lost := true }) ∧
  (∀ s t : State, step s = .next t →
    (s.lost = true → t.lost = true ∨ (∃ v rest, s.program = .wr 32 0x04 v :: rest ∧ v.getLsbD 9 = true) ∨
      ∃ rest, s.program = .reset :: rest) ∧
    (s.state = .busy →
      (t.width = s.width ∧ t.height = s.height ∧ t.msgLen = s.msgLen ∧ t.keyLen = s.keyLen) ∨
        ∃ rest, s.program = .reset :: rest))

/-! ## The BitCodec datapath and the XOR stage -/

/-- 40_bitcodec.md R100: most significant bit first, bytes in order. -/
def Obligations.BytesToBitsIsMsbFirst : Prop :=
  bytesToBits [] = [] ∧
  (∀ (v : Byte) (rest : List Byte),
    bytesToBits (v :: rest) =
      [v.extractLsb' 7 1, v.extractLsb' 6 1, v.extractLsb' 5 1, v.extractLsb' 4 1, v.extractLsb' 3 1, v.extractLsb' 2 1,
        v.extractLsb' 1 1, v.extractLsb' 0 1] ++ bytesToBits rest) ∧
  (∀ bs : List Byte, (bytesToBits bs).length = 8 * bs.length)

/-- R101: bit `t[8*i]` is bit 7 of byte i; a length that is no multiple of 8 is refused. -/
def Obligations.BitsToBytesSumsEachOctet : Prop :=
  ∀ t : List Bit,
    (t.length % 8 ≠ 0 → bitsToBytes t = none) ∧
    (t.length % 8 = 0 → ∃ bs, bitsToBytes t = some bs ∧ bs.length = t.length / 8 ∧
      ∀ (i : Nat) (v : Byte), bs[i]? = some v →
        v.toNat = ((List.range 8).map (fun j => ((t[8 * i + j]?).getD 0).toNat * 2 ^ (7 - j))).sum)

/-- R108: the four laws of the functional forms. -/
def Obligations.BitCodecLaws : Prop :=
  (∀ bs : List Byte, bitsToBytes (bytesToBits bs) = some bs) ∧
  (∀ t : List Bit, t.length % 8 = 0 → (bitsToBytes t).map bytesToBits = some t) ∧
  (∀ a b : List Byte, bytesToBits (a ++ b) = bytesToBits a ++ bytesToBits b) ∧
  (∀ bs : List Byte, (bytesToBits bs).length = 8 * bs.length)

/-- R104: the test reads the 24-bit window alone, and is true on the marker's pattern only. -/
def Obligations.EndMarkerTestReadsTheWindow : Prop :=
  ∀ before window after : List Bit, window.length = 24 →
    isEndMarker (before ++ window ++ after) (before.length + 24) =
      some (decide (window = List.replicate 22 0#1 ++ [1#1, 1#1]))

/-- R106, R107: the bitstream's length, its end, and the stripping of the marker. -/
def Obligations.MarkedStreamEndsWithTheMarker : Prop :=
  ∀ b : List Byte,
    (toBitsWithMarker b).length = messageBitLength b.length ∧
    isEndMarker (toBitsWithMarker b) (toBitsWithMarker b).length = some true ∧
    stripMarker (toBitsWithMarker b) = some (bytesToBits b)

/-- R109: the serializer's hardware form, bit by bit, and its agreement with the functional form. That both are absent from
8*len(s) on is the model's choice (log entry 10). -/
def Obligations.SerialBitAgrees : Prop :=
  ∀ (bs : List Byte) (k : Nat),
    serialBit bs k = (bytesToBits bs)[k]? ∧
    (∀ v, bs[k / 8]? = some v → ∃ bit, serialBit bs k = some bit ∧ bit.toNat = v.toNat / 2 ^ (7 - k % 8) % 2)

/-- R110: one bit into the accumulator, and eight bits from ACC_CNT = 0, which complete the byte bitsToBytes gives them, whatever
ACC held; no byte completes before. -/
def Obligations.AccumulatorGathersAByte : Prop :=
  (∀ (acc : Byte) (accCnt : BitVec 3) (bit : Bit),
    (accumulate acc accCnt bit).acc.toNat = (2 * acc.toNat + bit.toNat) % 256 ∧
    (accCnt = 7 → (accumulate acc accCnt bit).accCnt = 0 ∧
      (accumulate acc accCnt bit).completed = some (accumulate acc accCnt bit).acc) ∧
    (accCnt ≠ 7 → (accumulate acc accCnt bit).accCnt.toNat = accCnt.toNat + 1 ∧
      (accumulate acc accCnt bit).completed = none)) ∧
  ∀ (a : Accumulated) (t : List Bit), a.accCnt = 0 →
    (t.length < 8 → t ≠ [] → (accumulateBits a t).completed = none ∧ (accumulateBits a t).accCnt.toNat = t.length) ∧
    (t.length = 8 → ∃ v, bitsToBytes t = some [v] ∧ (accumulateBits a t).completed = some v ∧
      (accumulateBits a t).accCnt = 0)

/-- R111: one byte into the window; and after any pushes from the empty window, WIN holds the last three bytes, NBYTES counts them,
and the match is the source's test at that byte boundary. -/
def Obligations.MarkerDetectorAgrees : Prop :=
  (∀ (win : BitVec 24) (nbytes : Word) (c : Byte), nbytes.toNat + 1 < 2 ^ 32 →
    (pushByte win nbytes c).outgoing = win.extractLsb' 16 8 ∧
    ((pushByte win nbytes c).emit = true ↔ 3 ≤ nbytes.toNat) ∧
    (pushByte win nbytes c).win.toNat = (2 ^ 8 * win.toNat + c.toNat) % 2 ^ 24 ∧
    (pushByte win nbytes c).nbytes.toNat = nbytes.toNat + 1 ∧
    ((pushByte win nbytes c).found = true ↔ 3 ≤ nbytes.toNat + 1 ∧ (pushByte win nbytes c).win = 0x000003#24)) ∧
  ∀ (cs : List Byte) (c : Byte), (cs ++ [c]).length < 2 ^ 32 →
    (pushBytes emptyWindow (cs ++ [c])).nbytes.toNat = (cs ++ [c]).length ∧
    (∀ d, d < 3 → (pushBytes emptyWindow (cs ++ [c])).win.extractLsb' (8 * d) 8 = newestByte (cs ++ [c]) d) ∧
    ((pushBytes emptyWindow (cs ++ [c])).found = true ↔
      isEndMarker (bytesToBits (cs ++ [c])) (8 * (cs ++ [c]).length) = some true)

/-- R113 (2): an aligned match before the end of a marked stream lies wholly inside the payload. -/
def Obligations.EarlyMatchesLieInThePayload : Prop :=
  ∀ (b : List Byte) (n : Nat), 24 ≤ n → n % 8 = 0 → n < messageBitLength b.length →
    (isEndMarker (toBitsWithMarker b) n = some true ↔ MarkerAt b (n / 8 - 3))

/-- 41_xor.md R120: byte i of the result, and its length. That an empty key gives no result is the model's choice (log entry 10);
no command asks (R124). -/
def Obligations.XorCyclicBytes : Prop :=
  ∀ b k : List Byte,
    (k = [] → xorCyclic b k = none) ∧
    (k ≠ [] → ∃ res, xorCyclic b k = some res ∧ res.length = b.length ∧
      ∀ (i : Nat) (v x : Byte), b[i]? = some v → k[i % k.length]? = some x → res[i]? = some (v ^^^ x))

/-- R121: the involution. -/
def Obligations.XorIsAnInvolution : Prop :=
  ∀ b k c : List Byte, xorCyclic b k = some c → xorCyclic c k = some b

/-- R123: the effect of a wrong key, byte by byte. -/
def Obligations.WrongKeyGarblesBytewise : Prop :=
  ∀ m k1 k2 c g : List Byte, xorCyclic m k1 = some c → xorCyclic c k2 = some g →
    g.length = m.length ∧
    ∀ (i : Nat) (v x y : Byte), m[i]? = some v → k1[i % k1.length]? = some x → k2[i % k2.length]? = some y →
      (g[i]? = some v ↔ x = y)

/-- R125: the one-byte key 0x00. -/
def Obligations.ZeroKeyIsTheIdentity : Prop :=
  ∀ b : List Byte, xorCyclic b [0x00] = some b

/-! ## EMBED -/

/-- 42_commands.md R134: the stream's bytes and bits, and the source's bitstream. -/
def Obligations.EmbedStreamIsTheSourcesBitstream : Prop :=
  ∀ s : State, s.msgLen.toNat ≤ s.sizes.mMax → s.keyLen.toNat ≤ s.sizes.kMax → s.keyLen.toNat ≠ 0 →
    reqBits s = 8 * s.msgLen.toNat + 24 ∧
    (∀ j, j < s.msgLen.toNat + 3 → streamByte s j = .ok
      (if j < s.msgLen.toNat then msgAt s j ^^^ keyAt s (j % s.keyLen.toNat)
       else if j = s.msgLen.toNat + 2 then 0x03 else 0x00)) ∧
    ∃ payload, xorCyclic (message s) (keyBytes s) = some payload ∧ embedStream s = some (appendEndMarker payload) ∧
      (bytesToBits (appendEndMarker payload)).length = reqBits s ∧
      ∀ k, k < reqBits s → ∃ v bit, streamByte s (k / 8) = .ok v ∧ streamBit s k = .ok bit ∧
        bit.toNat = v.toNat / 2 ^ (7 - k % 8) % 2 ∧ (bytesToBits (appendEndMarker payload))[k]? = some bit

/-- R138, R139: one engine step of EMBED, on every pixel, with its frame. -/
def Obligations.EmbedStepWritesOnePixel : Prop :=
  ∀ s : State, EmbedRunning s →
    ∃ (t : State) (bit : Bit), streamBit s s.pix.toNat = .ok bit ∧ engineStep s = .next t ∧
      t = { s with raster := t.raster, pix := t.pix, state := t.state } ∧
      t.pix.toNat = s.pix.toNat + 1 ∧
      t.state = (if s.pix.toNat + 1 = 8 * s.msgLen.toNat + 24 then .doneOk else .busy) ∧
      ∀ j, pixelAt t j =
        if j = s.pix.toNat then
          { r := (pixelAt s j).r, g := (pixelAt s j).g, b := ((pixelAt s j).b &&& 0xFE#8) ||| bit.setWidth 8 }
        else pixelAt s j

/-- R137, R139, R153: an EMBED whose checks pass enters BUSY, with its frame, and with the host idle ends after exactly N engine
steps, N at most W*H. -/
def Obligations.EmbedCompletes : Prop :=
  ∀ s : State, s.state ≠ .busy → s.width.toNat * s.height.toNat ≤ s.sizes.pMax → s.msgLen.toNat ≤ s.sizes.mMax →
    s.keyLen.toNat ≤ s.sizes.kMax → s.keyLen.toNat ≠ 0 →
    8 * s.msgLen.toNat + 24 ≤ s.width.toNat * s.height.toNat →
    ∃ a : State,
      a = { s with
            cmd := 0x00000002, err := .noError, pix := 0, acc := 0, accCnt := 0, win := 0, nbytes := 0, op := 0x2
            state := .busy } ∧
      exec .embed s = .next a ∧
      (s.refusal = none → s.program = [] →
        ∃ t : State, CommandEnds (8 * s.msgLen.toNat + 24) a t ∧ t = { a with raster := t.raster, pix := t.pix, state := .doneOk })

/-- R140: what EMBED has done when it completes, whatever the host did meanwhile: the stream's bits in the blue bits 0 of the
first N pixels, and nothing else of the block but LOST, which the engine leaves: it is as before unless the host's program has a
register write for the time meanwhile (a dropped one, or one to STATUS). -/
def Obligations.EmbedResult : Prop :=
  ∀ (s a t : State) (n : Nat), s.state ≠ .busy → exec .embed s = .next a → a.state = .busy → CommandEnds n a t →
    t.state ≠ .idle →
    ∃ st : List Byte, embedStream s = some st ∧ (bytesToBits st).length = 8 * s.msgLen.toNat + 24 ∧
      t.state = .doneOk ∧ t.err = .noError ∧ t.pix.toNat = 8 * s.msgLen.toNat + 24 ∧
      t = { a with
            raster := t.raster, pix := t.pix, state := t.state, lost := t.lost
            refusal := t.refusal, program := t.program, turns := t.turns, draws := t.draws, answers := t.answers } ∧
      ((∀ width off v, .wr width off v ∉ s.program) → t.lost = s.lost) ∧
      t.fits = s.fits ∧ t.outLen = s.outLen ∧ t.msg = s.msg ∧ t.key = s.key ∧ t.out = s.out ∧
      (∀ k bit, (bytesToBits st)[k]? = some bit → pixelAt t k =
        { r := (pixelAt s k).r, g := (pixelAt s k).g, b := ((pixelAt s k).b &&& 0xFE#8) ||| bit.setWidth 8 }) ∧
      (∀ k, 8 * s.msgLen.toNat + 24 ≤ k → pixelAt t k = pixelAt s k)

/-- R140 under every interleaving (43_host_bus.md R170, R176): whoever moves, an EMBED in progress stays one, completes with its
stream written, or is abandoned by a reset. -/
def Obligations.EmbedProgressesUnderEveryInterleaving : Prop :=
  ∀ (s t : State) (ras : Nat → Pixel) (st : List Byte), EmbedRunning s → EmbedProgress ras st s → step s = .next t →
    (EmbedRunning t ∧ EmbedProgress ras st t) ∨
    (t.state = .doneOk ∧ t.err = s.err ∧ t.pix.toNat = reqBits s ∧ EmbedProgress ras st t) ∨
    (∃ rest, s.program = .reset :: rest ∧ t.state = .idle)

/-- R141 (3): EMBED again with the same operands leaves the raster as it is, whatever the host did meanwhile. -/
def Obligations.EmbedTwiceIsEmbedOnce : Prop :=
  ∀ (s a t : State) (n : Nat), s.state ≠ .busy → exec .embed s = .next a → a.state = .busy → CommandEnds n a t →
    t.state ≠ .idle →
    ∃ a' : State, exec .embed t = .next a' ∧ a'.state = .busy ∧
      ∀ (m : Nat) (t' : State), CommandEnds m a' t' → t'.state ≠ .idle → ∀ k, pixelAt t' k = pixelAt t k

/-! ## EXTRACT -/

/-- R144: one engine step of EXTRACT that completes no byte. -/
def Obligations.ExtractStepInsideAByte : Prop :=
  ∀ s : State, ExtractRunning s → s.accCnt ≠ 7 →
    ∃ t : State, engineStep s = .next t ∧ t.pix.toNat = s.pix.toNat + 1 ∧
      t.acc = ((s.acc <<< 1) ||| ((pixelAt s s.pix.toNat).b &&& 1#8)) ∧ t.accCnt.toNat = s.accCnt.toNat + 1 ∧
      (s.pix.toNat + 1 ≠ s.width.toNat * s.height.toNat →
        t = { s with pix := t.pix, acc := t.acc, accCnt := t.accCnt }) ∧
      (s.pix.toNat + 1 = s.width.toNat * s.height.toNat →
        t = { s with
              pix := t.pix, acc := t.acc, accCnt := t.accCnt, out := t.out
              outLen := 0, err := .noMarkerFound, state := .doneErr })

/-- R144, R145: one engine step of EXTRACT that completes a byte. The elements of OUT that are unspecified afterwards are left
to the model's rendering (log entry 4): below OUT_LEN, or while BUSY, every element written stays written. -/
def Obligations.ExtractStepAtAByteBoundary : Prop :=
  ∀ s : State, ExtractRunning s → s.accCnt = 7 →
    ∃ (t : State) (c : Byte), engineStep s = .next t ∧ t.pix.toNat = s.pix.toNat + 1 ∧
      c = ((s.acc <<< 1) ||| ((pixelAt s s.pix.toNat).b &&& 1#8)) ∧ t.acc = c ∧ t.accCnt = 0 ∧
      t.win = ((s.win <<< 8) ||| c.setWidth 24) ∧ t.nbytes.toNat = s.nbytes.toNat + 1 ∧
      (3 ≤ t.nbytes.toNat ∧ t.win = 0x000003 →
        t = { s with
              pix := t.pix, acc := t.acc, accCnt := t.accCnt, win := t.win, nbytes := t.nbytes, out := t.out
              outLen := t.nbytes - 3, state := .doneOk }) ∧
      (¬ (3 ≤ t.nbytes.toNat ∧ t.win = 0x000003) → s.pix.toNat + 1 ≠ s.width.toNat * s.height.toNat →
        t = { s with
              pix := t.pix, acc := t.acc, accCnt := t.accCnt, win := t.win, nbytes := t.nbytes, out := t.out }) ∧
      (¬ (3 ≤ t.nbytes.toNat ∧ t.win = 0x000003) → s.pix.toNat + 1 = s.width.toNat * s.height.toNat →
        t = { s with
              pix := t.pix, acc := t.acc, accCnt := t.accCnt, win := t.win, nbytes := t.nbytes, out := t.out
              outLen := 0, err := .noMarkerFound, state := .doneErr }) ∧
      (t.state ≠ .doneErr → 3 ≤ s.nbytes.toNat →
        t.out.find (s.nbytes.toNat - 3) =
          some (s.win.extractLsb' 16 8 ^^^ keyAt s ((s.nbytes.toNat - 3) % s.keyLen.toNat))) ∧
      (∀ j, j + 3 ≠ s.nbytes.toNat → t.state = .busy ∨ (t.state = .doneOk ∧ j < t.outLen.toNat) →
        t.out.find j = s.out.find j)

/-- R143, R147: an accepted EXTRACT starts the scan with nothing read. -/
def Obligations.AcceptedExtractStartsTheScan : Prop :=
  ∀ s t : State, s.state ≠ .busy → exec .extract s = .next t → t.state = .busy → ExtractRunning t ∧ ScanInv t []

/-- R147: the scan's invariant holds after every step that leaves STATE = BUSY, whoever moved. -/
def Obligations.EveryStepKeepsTheScan : Prop :=
  ∀ (s t : State) (bs : List Byte), ExtractRunning s → ScanInv s bs → step s = .next t → t.state = .busy →
    ∃ bs', ExtractRunning t ∧ ScanInv t bs'

/-- R143, R153: an EXTRACT whose checks pass enters BUSY, with OUT_LEN cleared and its frame, and with the host idle ends after as
many engine steps as pixels read, at most W*H. -/
def Obligations.ExtractCompletes : Prop :=
  ∀ s : State, s.state ≠ .busy → s.width.toNat * s.height.toNat ≤ s.sizes.pMax → s.keyLen.toNat ≤ s.sizes.kMax →
    s.keyLen.toNat ≠ 0 → s.width.toNat * s.height.toNat ≠ 0 →
    ∃ a : State,
      a = { s with
            cmd := 0x00000003, err := .noError, pix := 0, acc := 0, accCnt := 0, win := 0, nbytes := 0, op := 0x3
            outLen := 0
            state := .busy } ∧
      exec .extract s = .next a ∧
      (s.refusal = none → s.program = [] →
        ∃ (n : Nat) (t : State), CommandEnds n a t ∧ t.state ≠ .idle ∧ n = t.pix.toNat ∧ n ≤ s.width.toNat * s.height.toNat)

/-- R148: the result of EXTRACT, the marker found or not, whatever the host did meanwhile. What is unspecified after it (OUT from
OUT_LEN on) is not spoken of; LOST, which only the host's dropped writes touch, neither. -/
def Obligations.ExtractResult : Prop :=
  ∀ (s a t : State) (m : Nat), s.state ≠ .busy → exec .extract s = .next a → a.state = .busy → CommandEnds m a t →
    t.state ≠ .idle →
    (t.raster = s.raster ∧ t.msg = s.msg ∧ t.key = s.key ∧ t.fits = s.fits ∧ t.width = s.width ∧ t.height = s.height ∧
      t.msgLen = s.msgLen ∧ t.keyLen = s.keyLen ∧ t.cmd = 0x00000003 ∧ t.op = 0x3 ∧ t.sizes = s.sizes) ∧
    (∀ n, 24 ≤ n → n ≤ s.width.toNat * s.height.toNat → n % 8 = 0 → isEndMarker (bitBuffer s n) n = some true →
      (∀ k, 24 ≤ k → k < n → k % 8 = 0 → isEndMarker (bitBuffer s k) k = some false) →
      ∃ p : List Byte, (stripMarker (bitBuffer s n)).bind bitsToBytes = some p ∧ xorCyclic p (keyBytes s) = some (outBytes t) ∧
        t.state = .doneOk ∧ t.err = .noError ∧ t.outLen.toNat = n / 8 - 3 ∧ t.pix.toNat = n) ∧
    ((∀ n, 24 ≤ n → n ≤ s.width.toNat * s.height.toNat → n % 8 = 0 → isEndMarker (bitBuffer s n) n = some false) →
      t.state = .doneErr ∧ t.err = .noMarkerFound ∧ t.outLen = 0 ∧ t.pix.toNat = s.width.toNat * s.height.toNat)

/-- R150: the round trip, whatever the host did while the commands ran. `e` is the block when the EMBED is done, `x` the block
before the EXTRACT: the first N pixels and the key as they were, and W*H at least N. -/
def Obligations.RoundTrip : Prop :=
  ∀ (s a e x b t : State) (n m : Nat) (payload : List Byte),
    s.state ≠ .busy → exec .embed s = .next a → a.state = .busy → CommandEnds n a e → e.state ≠ .idle →
    xorCyclic (message s) (keyBytes s) = some payload →
    x.state ≠ .busy → (∀ k, k < reqBits s → pixelAt x k = pixelAt e k) →
    x.keyLen = s.keyLen → keyBytes x = keyBytes s → x.keyLen.toNat ≤ x.sizes.kMax →
    capacity x ≤ x.sizes.pMax → reqBits s ≤ capacity x →
    exec .extract x = .next b → CommandEnds m b t → t.state ≠ .idle →
    ((t.state = .doneOk ∧ t.outLen.toNat = s.msgLen.toNat ∧ outBytes t = message s ∧ t.pix.toNat = reqBits s) ↔
      ∀ i, ¬ MarkerAt payload i)

/-- R149: a marker inside the obfuscated payload cuts the message short, whatever the host did while the commands ran. -/
def Obligations.MarkerInPayloadTruncates : Prop :=
  ∀ (s a e x b t : State) (n m : Nat) (payload : List Byte) (i : Nat),
    s.state ≠ .busy → exec .embed s = .next a → a.state = .busy → CommandEnds n a e → e.state ≠ .idle →
    xorCyclic (message s) (keyBytes s) = some payload →
    MarkerAt payload i → (∀ j, j < i → ¬ MarkerAt payload j) →
    x.state ≠ .busy → (∀ k, k < reqBits s → pixelAt x k = pixelAt e k) →
    x.keyLen = s.keyLen → keyBytes x = keyBytes s → x.keyLen.toNat ≤ x.sizes.kMax →
    capacity x ≤ x.sizes.pMax → reqBits s ≤ capacity x →
    exec .extract x = .next b → CommandEnds m b t → t.state ≠ .idle →
    t.state = .doneOk ∧ t.outLen.toNat = i ∧ outBytes t = (message s).take i ∧ t.pix.toNat = 8 * (i + 3)

/-- R151: what EXTRACT depends on, whatever the host did meanwhile, in either run. -/
def Obligations.ExtractDependsOnBlueBitsOnly : Prop :=
  ∀ (s s' a a' t t' : State) (n n' : Nat),
    s.state ≠ .busy → exec .extract s = .next a → CommandEnds n a t → t.state ≠ .idle →
    s'.state ≠ .busy → exec .extract s' = .next a' → CommandEnds n' a' t' → t'.state ≠ .idle →
    s'.sizes = s.sizes → capacity s' = capacity s → s'.keyLen = s.keyLen → keyBytes s' = keyBytes s →
    (∀ k, k < t.pix.toNat → blueBit s' k = blueBit s k) →
    t'.state = t.state ∧ t'.err = t.err ∧ t'.outLen = t.outLen ∧ t'.pix = t.pix ∧ outBytes t' = outBytes t

/-! ## Whole-machine rules -/

/-- 10_state.md R37: which events write each STATUS field. -/
def Obligations.StatusIsWrittenOnlyAsListed : Prop :=
  ∀ s t : State, step s = .next t →
    (t.fits ≠ s.fits →
      (s.state ≠ .busy ∧ ∃ rest, s.program = .wr 32 0x00 0x00000001 :: rest) ∨ ∃ rest, s.program = .reset :: rest) ∧
    (t.state ≠ s.state →
      (s.state ≠ .busy ∧ t.state ≠ .idle ∧ ∃ w rest, s.program = .wr 32 0x00 w :: rest) ∨
      (EngineMoves s ∧ (t.state = .doneOk ∨
        (t.state = .doneErr ∧ s.op = 0x3 ∧ t.err = .noMarkerFound ∧ t.pix.toNat = capacity s))) ∨
      (t.state = .idle ∧ ∃ rest, s.program = .reset :: rest)) ∧
    (t.err ≠ s.err →
      (s.state ≠ .busy ∧ ∃ w rest, s.program = .wr 32 0x00 w :: rest) ∨
      (EngineMoves s ∧ s.op = 0x3 ∧ t.err = .noMarkerFound ∧ t.state = .doneErr ∧ t.pix.toNat = capacity s) ∨
      (t.err = .noError ∧ ∃ rest, s.program = .reset :: rest)) ∧
    (t.lost ≠ s.lost →
      (t.lost = true ∧ s.state = .busy ∧ ∃ off v rest, off ∈ [0x00, 0x08, 0x0C, 0x10, 0x14] ∧ s.program = .wr 32 off v :: rest) ∨
      (t.lost = false ∧ ∃ v rest, s.program = .wr 32 0x04 v :: rest ∧ v.getLsbD 9 = true) ∨
      (t.lost = false ∧ ∃ rest, s.program = .reset :: rest))

/-- 20_memory.md R59, R60: who writes each memory, and where; no step changes the sizes (10_state.md R39). The last way in which an
OUT byte may change is log entry 11 (60_exceptions.md R201). -/
def Obligations.MemoriesAreWrittenOnlyAsListed : Prop :=
  ∀ s t : State, step s = .next t → t.sizes = s.sizes ∧ ((∀ rest, s.program ≠ .reset :: rest) →
    (∀ k, pixelAt t k ≠ pixelAt s k →
      (s.state ≠ .busy ∧ ∃ v rest, s.program = .mwr .raster k v :: rest) ∨
      (EngineMoves s ∧ s.op = 0x2 ∧ k = s.pix.toNat ∧ k < reqBits s ∧
        (pixelAt t k).r = (pixelAt s k).r ∧ (pixelAt t k).g = (pixelAt s k).g ∧
        (pixelAt t k).b >>> 1 = (pixelAt s k).b >>> 1)) ∧
    (∀ k, msgAt t k ≠ msgAt s k → s.state ≠ .busy ∧ ∃ v rest, s.program = .mwr .msg k v :: rest) ∧
    (∀ k, keyAt t k ≠ keyAt s k → s.state ≠ .busy ∧ ∃ v rest, s.program = .mwr .key k v :: rest) ∧
    (∀ k, outAt t k ≠ outAt s k →
      (s.state ≠ .busy ∧ ∃ v rest, s.program = .mwr .out k v :: rest) ∨ (EngineMoves s ∧ s.op = 0x3) ∨
      (s.state ≠ .busy ∧ capacity s = 0 ∧ t.err = .noMarkerFound ∧ ∃ rest, s.program = .wr 32 0x00 0x00000003 :: rest)))

/-- 10_state.md R36, 70_reset_and_hazards.md R230: PIX is kept or, by an engine step, raised by exactly 1, until an acceptance or
a reset sets it to 0. -/
def Obligations.PixCountsEngineSteps : Prop :=
  ∀ s t : State, Inv s → step s = .next t →
    t.pix = s.pix ∨ (EngineMoves s ∧ t.pix.toNat = s.pix.toNat + 1 ∧ t.pix.toNat ≤ capacity s) ∨
    (t.pix = 0 ∧ ((s.state ≠ .busy ∧ ∃ w rest, s.program = .wr 32 0x00 w :: rest) ∨ ∃ rest, s.program = .reset :: rest))

/-- The invariant of the machine holds just after reset. -/
def Obligations.ResetMeetsTheInvariant : Prop := Inv State.reset

/-- Every step keeps the invariant of the machine, from every state that meets it. -/
def Obligations.EveryStepKeepsTheInvariant : Prop :=
  ∀ s t : State, Inv s → step s = .next t → Inv t

/-- 93_implementation_defined.md, end of Part 1, and 20_memory.md R57: no fault in a state that meets the invariant. -/
def Obligations.NoStepFaults : Prop :=
  ∀ (s : State) (f : Fault), Inv s → step s ≠ .fault f

/-- 42_commands.md R153: a command leaves BUSY after at most W*H engine steps, one for each pixel, an EMBED after exactly N. -/
def Obligations.EveryCommandEnds : Prop :=
  ∀ s : State, Inv s → s.refusal = none → s.program = [] → s.state = .busy →
    ∃ (n : Nat) (t : State), n ≤ capacity s - s.pix.toNat ∧ CommandEnds n s t ∧ t.pix.toNat = s.pix.toNat + n ∧
      (s.op = 0x2 → n = reqBits s - s.pix.toNat ∧ t.state = .doneOk)

/-- 43_host_bus.md R178, R179: every host program reaches the end of its run, polls included, or is refused. The model's choice
of interleaving is weakly fair by its form (log entry 6). It goes on to an end at which no reset of the platform is to come either. -/
def Obligations.EveryRunEnds : Prop :=
  ∀ s : State, Inv s → ∃ (n : Nat) (t : State), runFor n s = .next t ∧ ((RunEnded t ∧ t.program = []) ∨ ¬ GoodRun t)

/-- 43_host_bus.md R179: what the end of a run shows is the registers of R22 and every element of the four memories, and nothing
else: not how the state was reached, and no field of the model's own. -/
def Obligations.ObservationIsRegistersAndContents : Prop :=
  ∀ s t : State, t.sizes = s.sizes →
    (observe t = observe s ↔
      (∀ r : RegName, readReg t r = readReg s r) ∧
      (∀ i, i < s.sizes.pMax → pixelAt t i = pixelAt s i) ∧ (∀ i, i < s.sizes.mMax → msgAt t i = msgAt s i) ∧
      (∀ i, i < s.sizes.kMax → keyAt t i = keyAt s i) ∧ (∀ i, i < s.sizes.oMax → outAt t i = outAt s i))
end

