-- ==== Sys2Proof/Laws/Memory.lean ====
section
/-! SUPPORT. Memory: a read after a write, the canonical form, and what each draw forgets. -/

namespace Sys2Proof.Machine

variable {α : Type}

theorem findCell_insertCell (cs : List (Nat × α)) (i j : Nat) (v : α) :
    findCell (insertCell cs i v) j = if j = i then some v else findCell cs j := by
  induction cs with
  | nil => simp only [insertCell, findCell]; split_ifs <;> first | rfl | omega
  | cons c rest ih =>
    obtain ⟨a, w⟩ := c
    simp only [insertCell]
    by_cases hlt : i < a
    · simp only [if_pos hlt, findCell]
      split_ifs <;> first | rfl | omega
    · by_cases heq : i = a
      · subst heq
        simp only [lt_irrefl, if_false, if_true, findCell]
        split_ifs <;> first | rfl | omega
      · simp only [if_neg hlt, if_neg heq, findCell, ih]
        split_ifs <;> first | rfl | omega

theorem findCell_eq_none_of_forall (cs : List (Nat × α)) (i : Nat) (h : ∀ c ∈ cs, c.1 ≠ i) : findCell cs i = none := by
  induction cs with
  | nil => rfl
  | cons c rest ih =>
    simp only [List.mem_cons, forall_eq_or_imp] at h
    simp only [findCell, if_neg h.1, ih h.2]

theorem mem_insertCell {cs : List (Nat × α)} {i : Nat} {v : α} {c : Nat × α} (h : c ∈ insertCell cs i v) :
    c = (i, v) ∨ c ∈ cs := by
  induction cs with
  | nil => simpa [insertCell] using h
  | cons d rest ih =>
    obtain ⟨a, w⟩ := d
    simp only [insertCell] at h
    split_ifs at h
    · simpa using h
    · rcases List.mem_cons.1 h with h | h
      · exact .inl h
      · exact .inr (List.mem_cons_of_mem _ h)
    · rcases List.mem_cons.1 h with h | h
      · exact .inr (h ▸ List.mem_cons_self)
      · rcases ih h with h | h
        · exact .inl h
        · exact .inr (List.mem_cons_of_mem _ h)

theorem insertCell_rising (cs : List (Nat × α)) (i : Nat) (v : α) (h : cs.Pairwise (fun a b => a.1 < b.1)) :
    (insertCell cs i v).Pairwise (fun a b => a.1 < b.1) := by
  induction cs with
  | nil => simp [insertCell]
  | cons c rest ih =>
    obtain ⟨a, w⟩ := c
    obtain ⟨h1, h2⟩ := List.pairwise_cons.1 h
    simp only [insertCell]
    split_ifs with hlt heq
    · refine List.pairwise_cons.2 ⟨fun b hb => ?_, h⟩
      rcases List.mem_cons.1 hb with rfl | hb
      · exact hlt
      · exact Nat.lt_trans hlt (h1 b hb)
    · subst heq
      exact List.pairwise_cons.2 ⟨h1, h2⟩
    · refine List.pairwise_cons.2 ⟨fun b hb => ?_, ih h2⟩
      rcases mem_insertCell hb with rfl | hb
      · show a < i
        omega
      · exact h1 b hb

theorem findCell_filter_below (cs : List (Nat × α)) (n i : Nat) :
    findCell (cs.filter (fun c => c.1 < n)) i = if i < n then findCell cs i else none := by
  induction cs with
  | nil => simp [findCell]
  | cons c rest ih =>
    obtain ⟨a, w⟩ := c
    by_cases ha : a < n
    · simp only [List.filter_cons, ha, decide_true, if_true, findCell, ih]
      split_ifs <;> first | rfl | omega
    · simp only [List.filter_cons, ha, decide_false, Bool.false_eq_true, if_false, ih, findCell]
      split_ifs <;> first | rfl | omega

/-- A read after a write: the value written at its index, the old value elsewhere. -/
theorem find_store (m : Memory α) (i j : Nat) (v : α) :
    (m.store i v).find j = if j = i then some v else m.find j := findCell_insertCell m.cells i j v

theorem find_store_same (m : Memory α) (i : Nat) (v : α) : (m.store i v).find i = some v := by simp [find_store]

theorem find_store_other (m : Memory α) {i j : Nat} (v : α) (h : j ≠ i) : (m.store i v).find j = m.find j := by
  simp [find_store, h]

@[simp] theorem draw_store (m : Memory α) (i : Nat) (v : α) : (m.store i v).draw = m.draw := rfl

theorem find_keepBelow (m : Memory α) (n i : Nat) : (m.keepBelow n).find i = if i < n then m.find i else none :=
  findCell_filter_below m.cells n i

@[simp] theorem find_forget (m : Memory α) (i : Nat) : m.forget.find i = none := rfl

theorem wf_store (m : Memory α) (i : Nat) (v : α) (h : m.wf) : (m.store i v).wf := insertCell_rising m.cells i v h

theorem wf_keepBelow (m : Memory α) (n : Nat) (h : m.wf) : (m.keepBelow n).wf := List.Pairwise.filter _ h

theorem wf_forget (m : Memory α) : m.forget.wf := List.Pairwise.nil

theorem listedBelow_store (m : Memory α) {i n : Nat} (v : α) (h : listedBelow m n) (hi : i < n) :
    listedBelow (m.store i v) n := by
  intro c hc
  rcases mem_insertCell hc with rfl | hc
  · exact hi
  · exact h c hc

theorem listedBelow_keepBelow (m : Memory α) (k n : Nat) (h : listedBelow m n) : listedBelow (m.keepBelow k) n :=
  fun c hc => h c (List.mem_filter.1 hc).1

theorem listedBelow_forget (m : Memory α) (n : Nat) : listedBelow m.forget n := fun _ hc => nomatch hc

/-- The memories just after reset are in canonical form. -/
theorem reset_memories_wf :
    State.reset.raster.wf ∧ State.reset.msg.wf ∧ State.reset.key.wf ∧ State.reset.out.wf :=
  ⟨List.Pairwise.nil, List.Pairwise.nil, List.Pairwise.nil, List.Pairwise.nil⟩

end Sys2Proof.Machine
end

