-- ==== Sys2Proof/Laws/State.lean ====
section
/-! SUPPORT. One lemma per field of State per named update, so that no proof unfolds a record update. -/

namespace Sys2Proof.Machine

variable (s : State)

/-! ### storePixel -/

@[simp] theorem storePixel_cmd (i : Nat) (p : Pixel) : (storePixel i p s).cmd = s.cmd := rfl
@[simp] theorem storePixel_state (i : Nat) (p : Pixel) : (storePixel i p s).state = s.state := rfl
@[simp] theorem storePixel_err (i : Nat) (p : Pixel) : (storePixel i p s).err = s.err := rfl
@[simp] theorem storePixel_fits (i : Nat) (p : Pixel) : (storePixel i p s).fits = s.fits := rfl
@[simp] theorem storePixel_lost (i : Nat) (p : Pixel) : (storePixel i p s).lost = s.lost := rfl
@[simp] theorem storePixel_width (i : Nat) (p : Pixel) : (storePixel i p s).width = s.width := rfl
@[simp] theorem storePixel_height (i : Nat) (p : Pixel) : (storePixel i p s).height = s.height := rfl
@[simp] theorem storePixel_msgLen (i : Nat) (p : Pixel) : (storePixel i p s).msgLen = s.msgLen := rfl
@[simp] theorem storePixel_keyLen (i : Nat) (p : Pixel) : (storePixel i p s).keyLen = s.keyLen := rfl
@[simp] theorem storePixel_outLen (i : Nat) (p : Pixel) : (storePixel i p s).outLen = s.outLen := rfl
@[simp] theorem storePixel_pix (i : Nat) (p : Pixel) : (storePixel i p s).pix = s.pix := rfl
@[simp] theorem storePixel_op (i : Nat) (p : Pixel) : (storePixel i p s).op = s.op := rfl
@[simp] theorem storePixel_acc (i : Nat) (p : Pixel) : (storePixel i p s).acc = s.acc := rfl
@[simp] theorem storePixel_accCnt (i : Nat) (p : Pixel) : (storePixel i p s).accCnt = s.accCnt := rfl
@[simp] theorem storePixel_win (i : Nat) (p : Pixel) : (storePixel i p s).win = s.win := rfl
@[simp] theorem storePixel_nbytes (i : Nat) (p : Pixel) : (storePixel i p s).nbytes = s.nbytes := rfl
@[simp] theorem storePixel_raster (i : Nat) (p : Pixel) : (storePixel i p s).raster = s.raster.store i p := rfl
@[simp] theorem storePixel_msg (i : Nat) (p : Pixel) : (storePixel i p s).msg = s.msg := rfl
@[simp] theorem storePixel_key (i : Nat) (p : Pixel) : (storePixel i p s).key = s.key := rfl
@[simp] theorem storePixel_out (i : Nat) (p : Pixel) : (storePixel i p s).out = s.out := rfl
@[simp] theorem storePixel_sizes (i : Nat) (p : Pixel) : (storePixel i p s).sizes = s.sizes := rfl
@[simp] theorem storePixel_refusal (i : Nat) (p : Pixel) : (storePixel i p s).refusal = s.refusal := rfl
@[simp] theorem storePixel_program (i : Nat) (p : Pixel) : (storePixel i p s).program = s.program := rfl
@[simp] theorem storePixel_turns (i : Nat) (p : Pixel) : (storePixel i p s).turns = s.turns := rfl
@[simp] theorem storePixel_draws (i : Nat) (p : Pixel) : (storePixel i p s).draws = s.draws := rfl
@[simp] theorem storePixel_answers (i : Nat) (p : Pixel) : (storePixel i p s).answers = s.answers := rfl

/-! ### storeMsg -/

@[simp] theorem storeMsg_cmd (i : Nat) (v : Byte) : (storeMsg i v s).cmd = s.cmd := rfl
@[simp] theorem storeMsg_state (i : Nat) (v : Byte) : (storeMsg i v s).state = s.state := rfl
@[simp] theorem storeMsg_err (i : Nat) (v : Byte) : (storeMsg i v s).err = s.err := rfl
@[simp] theorem storeMsg_fits (i : Nat) (v : Byte) : (storeMsg i v s).fits = s.fits := rfl
@[simp] theorem storeMsg_lost (i : Nat) (v : Byte) : (storeMsg i v s).lost = s.lost := rfl
@[simp] theorem storeMsg_width (i : Nat) (v : Byte) : (storeMsg i v s).width = s.width := rfl
@[simp] theorem storeMsg_height (i : Nat) (v : Byte) : (storeMsg i v s).height = s.height := rfl
@[simp] theorem storeMsg_msgLen (i : Nat) (v : Byte) : (storeMsg i v s).msgLen = s.msgLen := rfl
@[simp] theorem storeMsg_keyLen (i : Nat) (v : Byte) : (storeMsg i v s).keyLen = s.keyLen := rfl
@[simp] theorem storeMsg_outLen (i : Nat) (v : Byte) : (storeMsg i v s).outLen = s.outLen := rfl
@[simp] theorem storeMsg_pix (i : Nat) (v : Byte) : (storeMsg i v s).pix = s.pix := rfl
@[simp] theorem storeMsg_op (i : Nat) (v : Byte) : (storeMsg i v s).op = s.op := rfl
@[simp] theorem storeMsg_acc (i : Nat) (v : Byte) : (storeMsg i v s).acc = s.acc := rfl
@[simp] theorem storeMsg_accCnt (i : Nat) (v : Byte) : (storeMsg i v s).accCnt = s.accCnt := rfl
@[simp] theorem storeMsg_win (i : Nat) (v : Byte) : (storeMsg i v s).win = s.win := rfl
@[simp] theorem storeMsg_nbytes (i : Nat) (v : Byte) : (storeMsg i v s).nbytes = s.nbytes := rfl
@[simp] theorem storeMsg_raster (i : Nat) (v : Byte) : (storeMsg i v s).raster = s.raster := rfl
@[simp] theorem storeMsg_msg (i : Nat) (v : Byte) : (storeMsg i v s).msg = s.msg.store i v := rfl
@[simp] theorem storeMsg_key (i : Nat) (v : Byte) : (storeMsg i v s).key = s.key := rfl
@[simp] theorem storeMsg_out (i : Nat) (v : Byte) : (storeMsg i v s).out = s.out := rfl
@[simp] theorem storeMsg_sizes (i : Nat) (v : Byte) : (storeMsg i v s).sizes = s.sizes := rfl
@[simp] theorem storeMsg_refusal (i : Nat) (v : Byte) : (storeMsg i v s).refusal = s.refusal := rfl
@[simp] theorem storeMsg_program (i : Nat) (v : Byte) : (storeMsg i v s).program = s.program := rfl
@[simp] theorem storeMsg_turns (i : Nat) (v : Byte) : (storeMsg i v s).turns = s.turns := rfl
@[simp] theorem storeMsg_draws (i : Nat) (v : Byte) : (storeMsg i v s).draws = s.draws := rfl
@[simp] theorem storeMsg_answers (i : Nat) (v : Byte) : (storeMsg i v s).answers = s.answers := rfl

/-! ### storeKey -/

@[simp] theorem storeKey_cmd (i : Nat) (v : Byte) : (storeKey i v s).cmd = s.cmd := rfl
@[simp] theorem storeKey_state (i : Nat) (v : Byte) : (storeKey i v s).state = s.state := rfl
@[simp] theorem storeKey_err (i : Nat) (v : Byte) : (storeKey i v s).err = s.err := rfl
@[simp] theorem storeKey_fits (i : Nat) (v : Byte) : (storeKey i v s).fits = s.fits := rfl
@[simp] theorem storeKey_lost (i : Nat) (v : Byte) : (storeKey i v s).lost = s.lost := rfl
@[simp] theorem storeKey_width (i : Nat) (v : Byte) : (storeKey i v s).width = s.width := rfl
@[simp] theorem storeKey_height (i : Nat) (v : Byte) : (storeKey i v s).height = s.height := rfl
@[simp] theorem storeKey_msgLen (i : Nat) (v : Byte) : (storeKey i v s).msgLen = s.msgLen := rfl
@[simp] theorem storeKey_keyLen (i : Nat) (v : Byte) : (storeKey i v s).keyLen = s.keyLen := rfl
@[simp] theorem storeKey_outLen (i : Nat) (v : Byte) : (storeKey i v s).outLen = s.outLen := rfl
@[simp] theorem storeKey_pix (i : Nat) (v : Byte) : (storeKey i v s).pix = s.pix := rfl
@[simp] theorem storeKey_op (i : Nat) (v : Byte) : (storeKey i v s).op = s.op := rfl
@[simp] theorem storeKey_acc (i : Nat) (v : Byte) : (storeKey i v s).acc = s.acc := rfl
@[simp] theorem storeKey_accCnt (i : Nat) (v : Byte) : (storeKey i v s).accCnt = s.accCnt := rfl
@[simp] theorem storeKey_win (i : Nat) (v : Byte) : (storeKey i v s).win = s.win := rfl
@[simp] theorem storeKey_nbytes (i : Nat) (v : Byte) : (storeKey i v s).nbytes = s.nbytes := rfl
@[simp] theorem storeKey_raster (i : Nat) (v : Byte) : (storeKey i v s).raster = s.raster := rfl
@[simp] theorem storeKey_msg (i : Nat) (v : Byte) : (storeKey i v s).msg = s.msg := rfl
@[simp] theorem storeKey_key (i : Nat) (v : Byte) : (storeKey i v s).key = s.key.store i v := rfl
@[simp] theorem storeKey_out (i : Nat) (v : Byte) : (storeKey i v s).out = s.out := rfl
@[simp] theorem storeKey_sizes (i : Nat) (v : Byte) : (storeKey i v s).sizes = s.sizes := rfl
@[simp] theorem storeKey_refusal (i : Nat) (v : Byte) : (storeKey i v s).refusal = s.refusal := rfl
@[simp] theorem storeKey_program (i : Nat) (v : Byte) : (storeKey i v s).program = s.program := rfl
@[simp] theorem storeKey_turns (i : Nat) (v : Byte) : (storeKey i v s).turns = s.turns := rfl
@[simp] theorem storeKey_draws (i : Nat) (v : Byte) : (storeKey i v s).draws = s.draws := rfl
@[simp] theorem storeKey_answers (i : Nat) (v : Byte) : (storeKey i v s).answers = s.answers := rfl

/-! ### storeOut -/

@[simp] theorem storeOut_cmd (i : Nat) (v : Byte) : (storeOut i v s).cmd = s.cmd := rfl
@[simp] theorem storeOut_state (i : Nat) (v : Byte) : (storeOut i v s).state = s.state := rfl
@[simp] theorem storeOut_err (i : Nat) (v : Byte) : (storeOut i v s).err = s.err := rfl
@[simp] theorem storeOut_fits (i : Nat) (v : Byte) : (storeOut i v s).fits = s.fits := rfl
@[simp] theorem storeOut_lost (i : Nat) (v : Byte) : (storeOut i v s).lost = s.lost := rfl
@[simp] theorem storeOut_width (i : Nat) (v : Byte) : (storeOut i v s).width = s.width := rfl
@[simp] theorem storeOut_height (i : Nat) (v : Byte) : (storeOut i v s).height = s.height := rfl
@[simp] theorem storeOut_msgLen (i : Nat) (v : Byte) : (storeOut i v s).msgLen = s.msgLen := rfl
@[simp] theorem storeOut_keyLen (i : Nat) (v : Byte) : (storeOut i v s).keyLen = s.keyLen := rfl
@[simp] theorem storeOut_outLen (i : Nat) (v : Byte) : (storeOut i v s).outLen = s.outLen := rfl
@[simp] theorem storeOut_pix (i : Nat) (v : Byte) : (storeOut i v s).pix = s.pix := rfl
@[simp] theorem storeOut_op (i : Nat) (v : Byte) : (storeOut i v s).op = s.op := rfl
@[simp] theorem storeOut_acc (i : Nat) (v : Byte) : (storeOut i v s).acc = s.acc := rfl
@[simp] theorem storeOut_accCnt (i : Nat) (v : Byte) : (storeOut i v s).accCnt = s.accCnt := rfl
@[simp] theorem storeOut_win (i : Nat) (v : Byte) : (storeOut i v s).win = s.win := rfl
@[simp] theorem storeOut_nbytes (i : Nat) (v : Byte) : (storeOut i v s).nbytes = s.nbytes := rfl
@[simp] theorem storeOut_raster (i : Nat) (v : Byte) : (storeOut i v s).raster = s.raster := rfl
@[simp] theorem storeOut_msg (i : Nat) (v : Byte) : (storeOut i v s).msg = s.msg := rfl
@[simp] theorem storeOut_key (i : Nat) (v : Byte) : (storeOut i v s).key = s.key := rfl
@[simp] theorem storeOut_out (i : Nat) (v : Byte) : (storeOut i v s).out = s.out.store i v := rfl
@[simp] theorem storeOut_sizes (i : Nat) (v : Byte) : (storeOut i v s).sizes = s.sizes := rfl
@[simp] theorem storeOut_refusal (i : Nat) (v : Byte) : (storeOut i v s).refusal = s.refusal := rfl
@[simp] theorem storeOut_program (i : Nat) (v : Byte) : (storeOut i v s).program = s.program := rfl
@[simp] theorem storeOut_turns (i : Nat) (v : Byte) : (storeOut i v s).turns = s.turns := rfl
@[simp] theorem storeOut_draws (i : Nat) (v : Byte) : (storeOut i v s).draws = s.draws := rfl
@[simp] theorem storeOut_answers (i : Nat) (v : Byte) : (storeOut i v s).answers = s.answers := rfl

/-! ### raise -/

@[simp] theorem raise_cmd (e : ErrCode) : (raise e s).cmd = s.cmd := rfl
@[simp] theorem raise_state (e : ErrCode) : (raise e s).state = .doneErr := rfl
@[simp] theorem raise_err (e : ErrCode) : (raise e s).err = e := rfl
@[simp] theorem raise_fits (e : ErrCode) : (raise e s).fits = s.fits := rfl
@[simp] theorem raise_lost (e : ErrCode) : (raise e s).lost = s.lost := rfl
@[simp] theorem raise_width (e : ErrCode) : (raise e s).width = s.width := rfl
@[simp] theorem raise_height (e : ErrCode) : (raise e s).height = s.height := rfl
@[simp] theorem raise_msgLen (e : ErrCode) : (raise e s).msgLen = s.msgLen := rfl
@[simp] theorem raise_keyLen (e : ErrCode) : (raise e s).keyLen = s.keyLen := rfl
@[simp] theorem raise_outLen (e : ErrCode) : (raise e s).outLen = s.outLen := rfl
@[simp] theorem raise_pix (e : ErrCode) : (raise e s).pix = s.pix := rfl
@[simp] theorem raise_op (e : ErrCode) : (raise e s).op = s.op := rfl
@[simp] theorem raise_acc (e : ErrCode) : (raise e s).acc = s.acc := rfl
@[simp] theorem raise_accCnt (e : ErrCode) : (raise e s).accCnt = s.accCnt := rfl
@[simp] theorem raise_win (e : ErrCode) : (raise e s).win = s.win := rfl
@[simp] theorem raise_nbytes (e : ErrCode) : (raise e s).nbytes = s.nbytes := rfl
@[simp] theorem raise_raster (e : ErrCode) : (raise e s).raster = s.raster := rfl
@[simp] theorem raise_msg (e : ErrCode) : (raise e s).msg = s.msg := rfl
@[simp] theorem raise_key (e : ErrCode) : (raise e s).key = s.key := rfl
@[simp] theorem raise_out (e : ErrCode) : (raise e s).out = s.out := rfl
@[simp] theorem raise_sizes (e : ErrCode) : (raise e s).sizes = s.sizes := rfl
@[simp] theorem raise_refusal (e : ErrCode) : (raise e s).refusal = s.refusal := rfl
@[simp] theorem raise_program (e : ErrCode) : (raise e s).program = s.program := rfl
@[simp] theorem raise_turns (e : ErrCode) : (raise e s).turns = s.turns := rfl
@[simp] theorem raise_draws (e : ErrCode) : (raise e s).draws = s.draws := rfl
@[simp] theorem raise_answers (e : ErrCode) : (raise e s).answers = s.answers := rfl

/-! ### dropWrite -/

@[simp] theorem dropWrite_cmd : (dropWrite s).cmd = s.cmd := rfl
@[simp] theorem dropWrite_state : (dropWrite s).state = s.state := rfl
@[simp] theorem dropWrite_err : (dropWrite s).err = s.err := rfl
@[simp] theorem dropWrite_fits : (dropWrite s).fits = s.fits := rfl
@[simp] theorem dropWrite_lost : (dropWrite s).lost = true := rfl
@[simp] theorem dropWrite_width : (dropWrite s).width = s.width := rfl
@[simp] theorem dropWrite_height : (dropWrite s).height = s.height := rfl
@[simp] theorem dropWrite_msgLen : (dropWrite s).msgLen = s.msgLen := rfl
@[simp] theorem dropWrite_keyLen : (dropWrite s).keyLen = s.keyLen := rfl
@[simp] theorem dropWrite_outLen : (dropWrite s).outLen = s.outLen := rfl
@[simp] theorem dropWrite_pix : (dropWrite s).pix = s.pix := rfl
@[simp] theorem dropWrite_op : (dropWrite s).op = s.op := rfl
@[simp] theorem dropWrite_acc : (dropWrite s).acc = s.acc := rfl
@[simp] theorem dropWrite_accCnt : (dropWrite s).accCnt = s.accCnt := rfl
@[simp] theorem dropWrite_win : (dropWrite s).win = s.win := rfl
@[simp] theorem dropWrite_nbytes : (dropWrite s).nbytes = s.nbytes := rfl
@[simp] theorem dropWrite_raster : (dropWrite s).raster = s.raster := rfl
@[simp] theorem dropWrite_msg : (dropWrite s).msg = s.msg := rfl
@[simp] theorem dropWrite_key : (dropWrite s).key = s.key := rfl
@[simp] theorem dropWrite_out : (dropWrite s).out = s.out := rfl
@[simp] theorem dropWrite_sizes : (dropWrite s).sizes = s.sizes := rfl
@[simp] theorem dropWrite_refusal : (dropWrite s).refusal = s.refusal := rfl
@[simp] theorem dropWrite_program : (dropWrite s).program = s.program := rfl
@[simp] theorem dropWrite_turns : (dropWrite s).turns = s.turns := rfl
@[simp] theorem dropWrite_draws : (dropWrite s).draws = s.draws := rfl
@[simp] theorem dropWrite_answers : (dropWrite s).answers = s.answers := rfl

/-! ### loadWidth -/

@[simp] theorem loadWidth_cmd (v : Word) : (loadWidth v s).cmd = s.cmd := rfl
@[simp] theorem loadWidth_state (v : Word) : (loadWidth v s).state = s.state := rfl
@[simp] theorem loadWidth_err (v : Word) : (loadWidth v s).err = s.err := rfl
@[simp] theorem loadWidth_fits (v : Word) : (loadWidth v s).fits = s.fits := rfl
@[simp] theorem loadWidth_lost (v : Word) : (loadWidth v s).lost = s.lost := rfl
@[simp] theorem loadWidth_width (v : Word) : (loadWidth v s).width = v.setWidth 16 := rfl
@[simp] theorem loadWidth_height (v : Word) : (loadWidth v s).height = s.height := rfl
@[simp] theorem loadWidth_msgLen (v : Word) : (loadWidth v s).msgLen = s.msgLen := rfl
@[simp] theorem loadWidth_keyLen (v : Word) : (loadWidth v s).keyLen = s.keyLen := rfl
@[simp] theorem loadWidth_outLen (v : Word) : (loadWidth v s).outLen = s.outLen := rfl
@[simp] theorem loadWidth_pix (v : Word) : (loadWidth v s).pix = s.pix := rfl
@[simp] theorem loadWidth_op (v : Word) : (loadWidth v s).op = s.op := rfl
@[simp] theorem loadWidth_acc (v : Word) : (loadWidth v s).acc = s.acc := rfl
@[simp] theorem loadWidth_accCnt (v : Word) : (loadWidth v s).accCnt = s.accCnt := rfl
@[simp] theorem loadWidth_win (v : Word) : (loadWidth v s).win = s.win := rfl
@[simp] theorem loadWidth_nbytes (v : Word) : (loadWidth v s).nbytes = s.nbytes := rfl
@[simp] theorem loadWidth_raster (v : Word) : (loadWidth v s).raster = s.raster := rfl
@[simp] theorem loadWidth_msg (v : Word) : (loadWidth v s).msg = s.msg := rfl
@[simp] theorem loadWidth_key (v : Word) : (loadWidth v s).key = s.key := rfl
@[simp] theorem loadWidth_out (v : Word) : (loadWidth v s).out = s.out := rfl
@[simp] theorem loadWidth_sizes (v : Word) : (loadWidth v s).sizes = s.sizes := rfl
@[simp] theorem loadWidth_refusal (v : Word) : (loadWidth v s).refusal = s.refusal := rfl
@[simp] theorem loadWidth_program (v : Word) : (loadWidth v s).program = s.program := rfl
@[simp] theorem loadWidth_turns (v : Word) : (loadWidth v s).turns = s.turns := rfl
@[simp] theorem loadWidth_draws (v : Word) : (loadWidth v s).draws = s.draws := rfl
@[simp] theorem loadWidth_answers (v : Word) : (loadWidth v s).answers = s.answers := rfl

/-! ### loadHeight -/

@[simp] theorem loadHeight_cmd (v : Word) : (loadHeight v s).cmd = s.cmd := rfl
@[simp] theorem loadHeight_state (v : Word) : (loadHeight v s).state = s.state := rfl
@[simp] theorem loadHeight_err (v : Word) : (loadHeight v s).err = s.err := rfl
@[simp] theorem loadHeight_fits (v : Word) : (loadHeight v s).fits = s.fits := rfl
@[simp] theorem loadHeight_lost (v : Word) : (loadHeight v s).lost = s.lost := rfl
@[simp] theorem loadHeight_width (v : Word) : (loadHeight v s).width = s.width := rfl
@[simp] theorem loadHeight_height (v : Word) : (loadHeight v s).height = v.setWidth 16 := rfl
@[simp] theorem loadHeight_msgLen (v : Word) : (loadHeight v s).msgLen = s.msgLen := rfl
@[simp] theorem loadHeight_keyLen (v : Word) : (loadHeight v s).keyLen = s.keyLen := rfl
@[simp] theorem loadHeight_outLen (v : Word) : (loadHeight v s).outLen = s.outLen := rfl
@[simp] theorem loadHeight_pix (v : Word) : (loadHeight v s).pix = s.pix := rfl
@[simp] theorem loadHeight_op (v : Word) : (loadHeight v s).op = s.op := rfl
@[simp] theorem loadHeight_acc (v : Word) : (loadHeight v s).acc = s.acc := rfl
@[simp] theorem loadHeight_accCnt (v : Word) : (loadHeight v s).accCnt = s.accCnt := rfl
@[simp] theorem loadHeight_win (v : Word) : (loadHeight v s).win = s.win := rfl
@[simp] theorem loadHeight_nbytes (v : Word) : (loadHeight v s).nbytes = s.nbytes := rfl
@[simp] theorem loadHeight_raster (v : Word) : (loadHeight v s).raster = s.raster := rfl
@[simp] theorem loadHeight_msg (v : Word) : (loadHeight v s).msg = s.msg := rfl
@[simp] theorem loadHeight_key (v : Word) : (loadHeight v s).key = s.key := rfl
@[simp] theorem loadHeight_out (v : Word) : (loadHeight v s).out = s.out := rfl
@[simp] theorem loadHeight_sizes (v : Word) : (loadHeight v s).sizes = s.sizes := rfl
@[simp] theorem loadHeight_refusal (v : Word) : (loadHeight v s).refusal = s.refusal := rfl
@[simp] theorem loadHeight_program (v : Word) : (loadHeight v s).program = s.program := rfl
@[simp] theorem loadHeight_turns (v : Word) : (loadHeight v s).turns = s.turns := rfl
@[simp] theorem loadHeight_draws (v : Word) : (loadHeight v s).draws = s.draws := rfl
@[simp] theorem loadHeight_answers (v : Word) : (loadHeight v s).answers = s.answers := rfl

/-! ### loadMsgLen -/

@[simp] theorem loadMsgLen_cmd (v : Word) : (loadMsgLen v s).cmd = s.cmd := rfl
@[simp] theorem loadMsgLen_state (v : Word) : (loadMsgLen v s).state = s.state := rfl
@[simp] theorem loadMsgLen_err (v : Word) : (loadMsgLen v s).err = s.err := rfl
@[simp] theorem loadMsgLen_fits (v : Word) : (loadMsgLen v s).fits = s.fits := rfl
@[simp] theorem loadMsgLen_lost (v : Word) : (loadMsgLen v s).lost = s.lost := rfl
@[simp] theorem loadMsgLen_width (v : Word) : (loadMsgLen v s).width = s.width := rfl
@[simp] theorem loadMsgLen_height (v : Word) : (loadMsgLen v s).height = s.height := rfl
@[simp] theorem loadMsgLen_msgLen (v : Word) : (loadMsgLen v s).msgLen = v.setWidth 28 := rfl
@[simp] theorem loadMsgLen_keyLen (v : Word) : (loadMsgLen v s).keyLen = s.keyLen := rfl
@[simp] theorem loadMsgLen_outLen (v : Word) : (loadMsgLen v s).outLen = s.outLen := rfl
@[simp] theorem loadMsgLen_pix (v : Word) : (loadMsgLen v s).pix = s.pix := rfl
@[simp] theorem loadMsgLen_op (v : Word) : (loadMsgLen v s).op = s.op := rfl
@[simp] theorem loadMsgLen_acc (v : Word) : (loadMsgLen v s).acc = s.acc := rfl
@[simp] theorem loadMsgLen_accCnt (v : Word) : (loadMsgLen v s).accCnt = s.accCnt := rfl
@[simp] theorem loadMsgLen_win (v : Word) : (loadMsgLen v s).win = s.win := rfl
@[simp] theorem loadMsgLen_nbytes (v : Word) : (loadMsgLen v s).nbytes = s.nbytes := rfl
@[simp] theorem loadMsgLen_raster (v : Word) : (loadMsgLen v s).raster = s.raster := rfl
@[simp] theorem loadMsgLen_msg (v : Word) : (loadMsgLen v s).msg = s.msg := rfl
@[simp] theorem loadMsgLen_key (v : Word) : (loadMsgLen v s).key = s.key := rfl
@[simp] theorem loadMsgLen_out (v : Word) : (loadMsgLen v s).out = s.out := rfl
@[simp] theorem loadMsgLen_sizes (v : Word) : (loadMsgLen v s).sizes = s.sizes := rfl
@[simp] theorem loadMsgLen_refusal (v : Word) : (loadMsgLen v s).refusal = s.refusal := rfl
@[simp] theorem loadMsgLen_program (v : Word) : (loadMsgLen v s).program = s.program := rfl
@[simp] theorem loadMsgLen_turns (v : Word) : (loadMsgLen v s).turns = s.turns := rfl
@[simp] theorem loadMsgLen_draws (v : Word) : (loadMsgLen v s).draws = s.draws := rfl
@[simp] theorem loadMsgLen_answers (v : Word) : (loadMsgLen v s).answers = s.answers := rfl

/-! ### loadKeyLen -/

@[simp] theorem loadKeyLen_cmd (v : Word) : (loadKeyLen v s).cmd = s.cmd := rfl
@[simp] theorem loadKeyLen_state (v : Word) : (loadKeyLen v s).state = s.state := rfl
@[simp] theorem loadKeyLen_err (v : Word) : (loadKeyLen v s).err = s.err := rfl
@[simp] theorem loadKeyLen_fits (v : Word) : (loadKeyLen v s).fits = s.fits := rfl
@[simp] theorem loadKeyLen_lost (v : Word) : (loadKeyLen v s).lost = s.lost := rfl
@[simp] theorem loadKeyLen_width (v : Word) : (loadKeyLen v s).width = s.width := rfl
@[simp] theorem loadKeyLen_height (v : Word) : (loadKeyLen v s).height = s.height := rfl
@[simp] theorem loadKeyLen_msgLen (v : Word) : (loadKeyLen v s).msgLen = s.msgLen := rfl
@[simp] theorem loadKeyLen_keyLen (v : Word) : (loadKeyLen v s).keyLen = v.setWidth 28 := rfl
@[simp] theorem loadKeyLen_outLen (v : Word) : (loadKeyLen v s).outLen = s.outLen := rfl
@[simp] theorem loadKeyLen_pix (v : Word) : (loadKeyLen v s).pix = s.pix := rfl
@[simp] theorem loadKeyLen_op (v : Word) : (loadKeyLen v s).op = s.op := rfl
@[simp] theorem loadKeyLen_acc (v : Word) : (loadKeyLen v s).acc = s.acc := rfl
@[simp] theorem loadKeyLen_accCnt (v : Word) : (loadKeyLen v s).accCnt = s.accCnt := rfl
@[simp] theorem loadKeyLen_win (v : Word) : (loadKeyLen v s).win = s.win := rfl
@[simp] theorem loadKeyLen_nbytes (v : Word) : (loadKeyLen v s).nbytes = s.nbytes := rfl
@[simp] theorem loadKeyLen_raster (v : Word) : (loadKeyLen v s).raster = s.raster := rfl
@[simp] theorem loadKeyLen_msg (v : Word) : (loadKeyLen v s).msg = s.msg := rfl
@[simp] theorem loadKeyLen_key (v : Word) : (loadKeyLen v s).key = s.key := rfl
@[simp] theorem loadKeyLen_out (v : Word) : (loadKeyLen v s).out = s.out := rfl
@[simp] theorem loadKeyLen_sizes (v : Word) : (loadKeyLen v s).sizes = s.sizes := rfl
@[simp] theorem loadKeyLen_refusal (v : Word) : (loadKeyLen v s).refusal = s.refusal := rfl
@[simp] theorem loadKeyLen_program (v : Word) : (loadKeyLen v s).program = s.program := rfl
@[simp] theorem loadKeyLen_turns (v : Word) : (loadKeyLen v s).turns = s.turns := rfl
@[simp] theorem loadKeyLen_draws (v : Word) : (loadKeyLen v s).draws = s.draws := rfl
@[simp] theorem loadKeyLen_answers (v : Word) : (loadKeyLen v s).answers = s.answers := rfl

/-! ### writeStatus -/

@[simp] theorem writeStatus_cmd (v : Word) : (writeStatus v s).cmd = s.cmd := rfl
@[simp] theorem writeStatus_state (v : Word) : (writeStatus v s).state = s.state := rfl
@[simp] theorem writeStatus_err (v : Word) : (writeStatus v s).err = s.err := rfl
@[simp] theorem writeStatus_fits (v : Word) : (writeStatus v s).fits = s.fits := rfl
@[simp] theorem writeStatus_lost (v : Word) : (writeStatus v s).lost = (s.lost && !v.getLsbD 9) := rfl
@[simp] theorem writeStatus_width (v : Word) : (writeStatus v s).width = s.width := rfl
@[simp] theorem writeStatus_height (v : Word) : (writeStatus v s).height = s.height := rfl
@[simp] theorem writeStatus_msgLen (v : Word) : (writeStatus v s).msgLen = s.msgLen := rfl
@[simp] theorem writeStatus_keyLen (v : Word) : (writeStatus v s).keyLen = s.keyLen := rfl
@[simp] theorem writeStatus_outLen (v : Word) : (writeStatus v s).outLen = s.outLen := rfl
@[simp] theorem writeStatus_pix (v : Word) : (writeStatus v s).pix = s.pix := rfl
@[simp] theorem writeStatus_op (v : Word) : (writeStatus v s).op = s.op := rfl
@[simp] theorem writeStatus_acc (v : Word) : (writeStatus v s).acc = s.acc := rfl
@[simp] theorem writeStatus_accCnt (v : Word) : (writeStatus v s).accCnt = s.accCnt := rfl
@[simp] theorem writeStatus_win (v : Word) : (writeStatus v s).win = s.win := rfl
@[simp] theorem writeStatus_nbytes (v : Word) : (writeStatus v s).nbytes = s.nbytes := rfl
@[simp] theorem writeStatus_raster (v : Word) : (writeStatus v s).raster = s.raster := rfl
@[simp] theorem writeStatus_msg (v : Word) : (writeStatus v s).msg = s.msg := rfl
@[simp] theorem writeStatus_key (v : Word) : (writeStatus v s).key = s.key := rfl
@[simp] theorem writeStatus_out (v : Word) : (writeStatus v s).out = s.out := rfl
@[simp] theorem writeStatus_sizes (v : Word) : (writeStatus v s).sizes = s.sizes := rfl
@[simp] theorem writeStatus_refusal (v : Word) : (writeStatus v s).refusal = s.refusal := rfl
@[simp] theorem writeStatus_program (v : Word) : (writeStatus v s).program = s.program := rfl
@[simp] theorem writeStatus_turns (v : Word) : (writeStatus v s).turns = s.turns := rfl
@[simp] theorem writeStatus_draws (v : Word) : (writeStatus v s).draws = s.draws := rfl
@[simp] theorem writeStatus_answers (v : Word) : (writeStatus v s).answers = s.answers := rfl

/-! ### acceptWord -/

@[simp] theorem acceptWord_cmd (w : Word) : (acceptWord w s).cmd = w := rfl
@[simp] theorem acceptWord_state (w : Word) : (acceptWord w s).state = s.state := rfl
@[simp] theorem acceptWord_err (w : Word) : (acceptWord w s).err = .noError := rfl
@[simp] theorem acceptWord_fits (w : Word) : (acceptWord w s).fits = s.fits := rfl
@[simp] theorem acceptWord_lost (w : Word) : (acceptWord w s).lost = s.lost := rfl
@[simp] theorem acceptWord_width (w : Word) : (acceptWord w s).width = s.width := rfl
@[simp] theorem acceptWord_height (w : Word) : (acceptWord w s).height = s.height := rfl
@[simp] theorem acceptWord_msgLen (w : Word) : (acceptWord w s).msgLen = s.msgLen := rfl
@[simp] theorem acceptWord_keyLen (w : Word) : (acceptWord w s).keyLen = s.keyLen := rfl
@[simp] theorem acceptWord_outLen (w : Word) : (acceptWord w s).outLen = s.outLen := rfl
@[simp] theorem acceptWord_pix (w : Word) : (acceptWord w s).pix = 0 := rfl
@[simp] theorem acceptWord_op (w : Word) : (acceptWord w s).op = w.extractLsb' 0 4 := rfl
@[simp] theorem acceptWord_acc (w : Word) : (acceptWord w s).acc = 0 := rfl
@[simp] theorem acceptWord_accCnt (w : Word) : (acceptWord w s).accCnt = 0 := rfl
@[simp] theorem acceptWord_win (w : Word) : (acceptWord w s).win = 0 := rfl
@[simp] theorem acceptWord_nbytes (w : Word) : (acceptWord w s).nbytes = 0 := rfl
@[simp] theorem acceptWord_raster (w : Word) : (acceptWord w s).raster = s.raster := rfl
@[simp] theorem acceptWord_msg (w : Word) : (acceptWord w s).msg = s.msg := rfl
@[simp] theorem acceptWord_key (w : Word) : (acceptWord w s).key = s.key := rfl
@[simp] theorem acceptWord_out (w : Word) : (acceptWord w s).out = s.out := rfl
@[simp] theorem acceptWord_sizes (w : Word) : (acceptWord w s).sizes = s.sizes := rfl
@[simp] theorem acceptWord_refusal (w : Word) : (acceptWord w s).refusal = s.refusal := rfl
@[simp] theorem acceptWord_program (w : Word) : (acceptWord w s).program = s.program := rfl
@[simp] theorem acceptWord_turns (w : Word) : (acceptWord w s).turns = s.turns := rfl
@[simp] theorem acceptWord_draws (w : Word) : (acceptWord w s).draws = s.draws := rfl
@[simp] theorem acceptWord_answers (w : Word) : (acceptWord w s).answers = s.answers := rfl

/-! ### answer -/

@[simp] theorem answer_cmd (v : Word) : (answer v s).cmd = s.cmd := rfl
@[simp] theorem answer_state (v : Word) : (answer v s).state = s.state := rfl
@[simp] theorem answer_err (v : Word) : (answer v s).err = s.err := rfl
@[simp] theorem answer_fits (v : Word) : (answer v s).fits = s.fits := rfl
@[simp] theorem answer_lost (v : Word) : (answer v s).lost = s.lost := rfl
@[simp] theorem answer_width (v : Word) : (answer v s).width = s.width := rfl
@[simp] theorem answer_height (v : Word) : (answer v s).height = s.height := rfl
@[simp] theorem answer_msgLen (v : Word) : (answer v s).msgLen = s.msgLen := rfl
@[simp] theorem answer_keyLen (v : Word) : (answer v s).keyLen = s.keyLen := rfl
@[simp] theorem answer_outLen (v : Word) : (answer v s).outLen = s.outLen := rfl
@[simp] theorem answer_pix (v : Word) : (answer v s).pix = s.pix := rfl
@[simp] theorem answer_op (v : Word) : (answer v s).op = s.op := rfl
@[simp] theorem answer_acc (v : Word) : (answer v s).acc = s.acc := rfl
@[simp] theorem answer_accCnt (v : Word) : (answer v s).accCnt = s.accCnt := rfl
@[simp] theorem answer_win (v : Word) : (answer v s).win = s.win := rfl
@[simp] theorem answer_nbytes (v : Word) : (answer v s).nbytes = s.nbytes := rfl
@[simp] theorem answer_raster (v : Word) : (answer v s).raster = s.raster := rfl
@[simp] theorem answer_msg (v : Word) : (answer v s).msg = s.msg := rfl
@[simp] theorem answer_key (v : Word) : (answer v s).key = s.key := rfl
@[simp] theorem answer_out (v : Word) : (answer v s).out = s.out := rfl
@[simp] theorem answer_sizes (v : Word) : (answer v s).sizes = s.sizes := rfl
@[simp] theorem answer_refusal (v : Word) : (answer v s).refusal = s.refusal := rfl
@[simp] theorem answer_program (v : Word) : (answer v s).program = s.program := rfl
@[simp] theorem answer_turns (v : Word) : (answer v s).turns = s.turns := rfl
@[simp] theorem answer_draws (v : Word) : (answer v s).draws = s.draws := rfl
@[simp] theorem answer_answers (v : Word) : (answer v s).answers = v :: s.answers := rfl

/-! ### answerFree -/

@[simp] theorem answerFree_cmd : (answerFree s).cmd = s.cmd := rfl
@[simp] theorem answerFree_state : (answerFree s).state = s.state := rfl
@[simp] theorem answerFree_err : (answerFree s).err = s.err := rfl
@[simp] theorem answerFree_fits : (answerFree s).fits = s.fits := rfl
@[simp] theorem answerFree_lost : (answerFree s).lost = s.lost := rfl
@[simp] theorem answerFree_width : (answerFree s).width = s.width := rfl
@[simp] theorem answerFree_height : (answerFree s).height = s.height := rfl
@[simp] theorem answerFree_msgLen : (answerFree s).msgLen = s.msgLen := rfl
@[simp] theorem answerFree_keyLen : (answerFree s).keyLen = s.keyLen := rfl
@[simp] theorem answerFree_outLen : (answerFree s).outLen = s.outLen := rfl
@[simp] theorem answerFree_pix : (answerFree s).pix = s.pix := rfl
@[simp] theorem answerFree_op : (answerFree s).op = s.op := rfl
@[simp] theorem answerFree_acc : (answerFree s).acc = s.acc := rfl
@[simp] theorem answerFree_accCnt : (answerFree s).accCnt = s.accCnt := rfl
@[simp] theorem answerFree_win : (answerFree s).win = s.win := rfl
@[simp] theorem answerFree_nbytes : (answerFree s).nbytes = s.nbytes := rfl
@[simp] theorem answerFree_raster : (answerFree s).raster = s.raster := rfl
@[simp] theorem answerFree_msg : (answerFree s).msg = s.msg := rfl
@[simp] theorem answerFree_key : (answerFree s).key = s.key := rfl
@[simp] theorem answerFree_out : (answerFree s).out = s.out := rfl
@[simp] theorem answerFree_sizes : (answerFree s).sizes = s.sizes := rfl
@[simp] theorem answerFree_refusal : (answerFree s).refusal = s.refusal := rfl
@[simp] theorem answerFree_program : (answerFree s).program = s.program := rfl
@[simp] theorem answerFree_turns : (answerFree s).turns = s.turns := rfl
@[simp] theorem answerFree_draws : (answerFree s).draws = s.draws + 1 := rfl
@[simp] theorem answerFree_answers : (answerFree s).answers = Config.freeWord s.draws :: s.answers := rfl

/-! ### refuse -/

@[simp] theorem refuse_cmd (r : Refusal) : (refuse r s).cmd = s.cmd := rfl
@[simp] theorem refuse_state (r : Refusal) : (refuse r s).state = s.state := rfl
@[simp] theorem refuse_err (r : Refusal) : (refuse r s).err = s.err := rfl
@[simp] theorem refuse_fits (r : Refusal) : (refuse r s).fits = s.fits := rfl
@[simp] theorem refuse_lost (r : Refusal) : (refuse r s).lost = s.lost := rfl
@[simp] theorem refuse_width (r : Refusal) : (refuse r s).width = s.width := rfl
@[simp] theorem refuse_height (r : Refusal) : (refuse r s).height = s.height := rfl
@[simp] theorem refuse_msgLen (r : Refusal) : (refuse r s).msgLen = s.msgLen := rfl
@[simp] theorem refuse_keyLen (r : Refusal) : (refuse r s).keyLen = s.keyLen := rfl
@[simp] theorem refuse_outLen (r : Refusal) : (refuse r s).outLen = s.outLen := rfl
@[simp] theorem refuse_pix (r : Refusal) : (refuse r s).pix = s.pix := rfl
@[simp] theorem refuse_op (r : Refusal) : (refuse r s).op = s.op := rfl
@[simp] theorem refuse_acc (r : Refusal) : (refuse r s).acc = s.acc := rfl
@[simp] theorem refuse_accCnt (r : Refusal) : (refuse r s).accCnt = s.accCnt := rfl
@[simp] theorem refuse_win (r : Refusal) : (refuse r s).win = s.win := rfl
@[simp] theorem refuse_nbytes (r : Refusal) : (refuse r s).nbytes = s.nbytes := rfl
@[simp] theorem refuse_raster (r : Refusal) : (refuse r s).raster = s.raster := rfl
@[simp] theorem refuse_msg (r : Refusal) : (refuse r s).msg = s.msg := rfl
@[simp] theorem refuse_key (r : Refusal) : (refuse r s).key = s.key := rfl
@[simp] theorem refuse_out (r : Refusal) : (refuse r s).out = s.out := rfl
@[simp] theorem refuse_sizes (r : Refusal) : (refuse r s).sizes = s.sizes := rfl
@[simp] theorem refuse_refusal (r : Refusal) : (refuse r s).refusal = some r := rfl
@[simp] theorem refuse_program (r : Refusal) : (refuse r s).program = s.program := rfl
@[simp] theorem refuse_turns (r : Refusal) : (refuse r s).turns = s.turns := rfl
@[simp] theorem refuse_draws (r : Refusal) : (refuse r s).draws = s.draws := rfl
@[simp] theorem refuse_answers (r : Refusal) : (refuse r s).answers = s.answers := rfl

/-! ### resetBlock -/

@[simp] theorem resetBlock_cmd : (resetBlock s).cmd = 0 := rfl
@[simp] theorem resetBlock_state : (resetBlock s).state = .idle := rfl
@[simp] theorem resetBlock_err : (resetBlock s).err = .noError := rfl
@[simp] theorem resetBlock_fits : (resetBlock s).fits = false := rfl
@[simp] theorem resetBlock_lost : (resetBlock s).lost = false := rfl
@[simp] theorem resetBlock_width : (resetBlock s).width = 0 := rfl
@[simp] theorem resetBlock_height : (resetBlock s).height = 0 := rfl
@[simp] theorem resetBlock_msgLen : (resetBlock s).msgLen = 0 := rfl
@[simp] theorem resetBlock_keyLen : (resetBlock s).keyLen = 0 := rfl
@[simp] theorem resetBlock_outLen : (resetBlock s).outLen = 0 := rfl
@[simp] theorem resetBlock_pix : (resetBlock s).pix = 0 := rfl
@[simp] theorem resetBlock_op : (resetBlock s).op = 0 := rfl
@[simp] theorem resetBlock_acc : (resetBlock s).acc = 0 := rfl
@[simp] theorem resetBlock_accCnt : (resetBlock s).accCnt = 0 := rfl
@[simp] theorem resetBlock_win : (resetBlock s).win = 0 := rfl
@[simp] theorem resetBlock_nbytes : (resetBlock s).nbytes = 0 := rfl
@[simp] theorem resetBlock_raster : (resetBlock s).raster = s.raster.forget := rfl
@[simp] theorem resetBlock_msg : (resetBlock s).msg = s.msg.forget := rfl
@[simp] theorem resetBlock_key : (resetBlock s).key = s.key.forget := rfl
@[simp] theorem resetBlock_out : (resetBlock s).out = s.out.forget := rfl
@[simp] theorem resetBlock_sizes : (resetBlock s).sizes = s.sizes := rfl
@[simp] theorem resetBlock_refusal : (resetBlock s).refusal = none := rfl
@[simp] theorem resetBlock_program : (resetBlock s).program = s.program := rfl
@[simp] theorem resetBlock_turns : (resetBlock s).turns = s.turns := rfl
@[simp] theorem resetBlock_draws : (resetBlock s).draws = s.draws := rfl
@[simp] theorem resetBlock_answers : (resetBlock s).answers = s.answers := rfl

/-! ### canEmbedEffect -/

@[simp] theorem canEmbedEffect_cmd : (canEmbedEffect s).cmd = s.cmd := rfl
@[simp] theorem canEmbedEffect_state : (canEmbedEffect s).state = .doneOk := rfl
@[simp] theorem canEmbedEffect_err : (canEmbedEffect s).err = s.err := rfl
@[simp] theorem canEmbedEffect_fits : (canEmbedEffect s).fits = decide (reqBits s ≤ capacity s) := rfl
@[simp] theorem canEmbedEffect_lost : (canEmbedEffect s).lost = s.lost := rfl
@[simp] theorem canEmbedEffect_width : (canEmbedEffect s).width = s.width := rfl
@[simp] theorem canEmbedEffect_height : (canEmbedEffect s).height = s.height := rfl
@[simp] theorem canEmbedEffect_msgLen : (canEmbedEffect s).msgLen = s.msgLen := rfl
@[simp] theorem canEmbedEffect_keyLen : (canEmbedEffect s).keyLen = s.keyLen := rfl
@[simp] theorem canEmbedEffect_outLen : (canEmbedEffect s).outLen = s.outLen := rfl
@[simp] theorem canEmbedEffect_pix : (canEmbedEffect s).pix = s.pix := rfl
@[simp] theorem canEmbedEffect_op : (canEmbedEffect s).op = s.op := rfl
@[simp] theorem canEmbedEffect_acc : (canEmbedEffect s).acc = s.acc := rfl
@[simp] theorem canEmbedEffect_accCnt : (canEmbedEffect s).accCnt = s.accCnt := rfl
@[simp] theorem canEmbedEffect_win : (canEmbedEffect s).win = s.win := rfl
@[simp] theorem canEmbedEffect_nbytes : (canEmbedEffect s).nbytes = s.nbytes := rfl
@[simp] theorem canEmbedEffect_raster : (canEmbedEffect s).raster = s.raster := rfl
@[simp] theorem canEmbedEffect_msg : (canEmbedEffect s).msg = s.msg := rfl
@[simp] theorem canEmbedEffect_key : (canEmbedEffect s).key = s.key := rfl
@[simp] theorem canEmbedEffect_out : (canEmbedEffect s).out = s.out := rfl
@[simp] theorem canEmbedEffect_sizes : (canEmbedEffect s).sizes = s.sizes := rfl
@[simp] theorem canEmbedEffect_refusal : (canEmbedEffect s).refusal = s.refusal := rfl
@[simp] theorem canEmbedEffect_program : (canEmbedEffect s).program = s.program := rfl
@[simp] theorem canEmbedEffect_turns : (canEmbedEffect s).turns = s.turns := rfl
@[simp] theorem canEmbedEffect_draws : (canEmbedEffect s).draws = s.draws := rfl
@[simp] theorem canEmbedEffect_answers : (canEmbedEffect s).answers = s.answers := rfl

/-! ### startBusy -/

@[simp] theorem startBusy_cmd : (startBusy s).cmd = s.cmd := rfl
@[simp] theorem startBusy_state : (startBusy s).state = .busy := rfl
@[simp] theorem startBusy_err : (startBusy s).err = s.err := rfl
@[simp] theorem startBusy_fits : (startBusy s).fits = s.fits := rfl
@[simp] theorem startBusy_lost : (startBusy s).lost = s.lost := rfl
@[simp] theorem startBusy_width : (startBusy s).width = s.width := rfl
@[simp] theorem startBusy_height : (startBusy s).height = s.height := rfl
@[simp] theorem startBusy_msgLen : (startBusy s).msgLen = s.msgLen := rfl
@[simp] theorem startBusy_keyLen : (startBusy s).keyLen = s.keyLen := rfl
@[simp] theorem startBusy_outLen : (startBusy s).outLen = s.outLen := rfl
@[simp] theorem startBusy_pix : (startBusy s).pix = s.pix := rfl
@[simp] theorem startBusy_op : (startBusy s).op = s.op := rfl
@[simp] theorem startBusy_acc : (startBusy s).acc = s.acc := rfl
@[simp] theorem startBusy_accCnt : (startBusy s).accCnt = s.accCnt := rfl
@[simp] theorem startBusy_win : (startBusy s).win = s.win := rfl
@[simp] theorem startBusy_nbytes : (startBusy s).nbytes = s.nbytes := rfl
@[simp] theorem startBusy_raster : (startBusy s).raster = s.raster := rfl
@[simp] theorem startBusy_msg : (startBusy s).msg = s.msg := rfl
@[simp] theorem startBusy_key : (startBusy s).key = s.key := rfl
@[simp] theorem startBusy_out : (startBusy s).out = s.out := rfl
@[simp] theorem startBusy_sizes : (startBusy s).sizes = s.sizes := rfl
@[simp] theorem startBusy_refusal : (startBusy s).refusal = s.refusal := rfl
@[simp] theorem startBusy_program : (startBusy s).program = s.program := rfl
@[simp] theorem startBusy_turns : (startBusy s).turns = s.turns := rfl
@[simp] theorem startBusy_draws : (startBusy s).draws = s.draws := rfl
@[simp] theorem startBusy_answers : (startBusy s).answers = s.answers := rfl

/-! ### clearOutLen -/

@[simp] theorem clearOutLen_cmd : (clearOutLen s).cmd = s.cmd := rfl
@[simp] theorem clearOutLen_state : (clearOutLen s).state = s.state := rfl
@[simp] theorem clearOutLen_err : (clearOutLen s).err = s.err := rfl
@[simp] theorem clearOutLen_fits : (clearOutLen s).fits = s.fits := rfl
@[simp] theorem clearOutLen_lost : (clearOutLen s).lost = s.lost := rfl
@[simp] theorem clearOutLen_width : (clearOutLen s).width = s.width := rfl
@[simp] theorem clearOutLen_height : (clearOutLen s).height = s.height := rfl
@[simp] theorem clearOutLen_msgLen : (clearOutLen s).msgLen = s.msgLen := rfl
@[simp] theorem clearOutLen_keyLen : (clearOutLen s).keyLen = s.keyLen := rfl
@[simp] theorem clearOutLen_outLen : (clearOutLen s).outLen = 0 := rfl
@[simp] theorem clearOutLen_pix : (clearOutLen s).pix = s.pix := rfl
@[simp] theorem clearOutLen_op : (clearOutLen s).op = s.op := rfl
@[simp] theorem clearOutLen_acc : (clearOutLen s).acc = s.acc := rfl
@[simp] theorem clearOutLen_accCnt : (clearOutLen s).accCnt = s.accCnt := rfl
@[simp] theorem clearOutLen_win : (clearOutLen s).win = s.win := rfl
@[simp] theorem clearOutLen_nbytes : (clearOutLen s).nbytes = s.nbytes := rfl
@[simp] theorem clearOutLen_raster : (clearOutLen s).raster = s.raster := rfl
@[simp] theorem clearOutLen_msg : (clearOutLen s).msg = s.msg := rfl
@[simp] theorem clearOutLen_key : (clearOutLen s).key = s.key := rfl
@[simp] theorem clearOutLen_out : (clearOutLen s).out = s.out := rfl
@[simp] theorem clearOutLen_sizes : (clearOutLen s).sizes = s.sizes := rfl
@[simp] theorem clearOutLen_refusal : (clearOutLen s).refusal = s.refusal := rfl
@[simp] theorem clearOutLen_program : (clearOutLen s).program = s.program := rfl
@[simp] theorem clearOutLen_turns : (clearOutLen s).turns = s.turns := rfl
@[simp] theorem clearOutLen_draws : (clearOutLen s).draws = s.draws := rfl
@[simp] theorem clearOutLen_answers : (clearOutLen s).answers = s.answers := rfl

/-! ### embedWrite -/

@[simp] theorem embedWrite_cmd (p : Pixel) (b : Bit) : (embedWrite p b s).cmd = s.cmd := rfl
@[simp] theorem embedWrite_state (p : Pixel) (b : Bit) : (embedWrite p b s).state = (if s.pix.toNat + 1 = reqBits s then .doneOk else s.state) := rfl
@[simp] theorem embedWrite_err (p : Pixel) (b : Bit) : (embedWrite p b s).err = s.err := rfl
@[simp] theorem embedWrite_fits (p : Pixel) (b : Bit) : (embedWrite p b s).fits = s.fits := rfl
@[simp] theorem embedWrite_lost (p : Pixel) (b : Bit) : (embedWrite p b s).lost = s.lost := rfl
@[simp] theorem embedWrite_width (p : Pixel) (b : Bit) : (embedWrite p b s).width = s.width := rfl
@[simp] theorem embedWrite_height (p : Pixel) (b : Bit) : (embedWrite p b s).height = s.height := rfl
@[simp] theorem embedWrite_msgLen (p : Pixel) (b : Bit) : (embedWrite p b s).msgLen = s.msgLen := rfl
@[simp] theorem embedWrite_keyLen (p : Pixel) (b : Bit) : (embedWrite p b s).keyLen = s.keyLen := rfl
@[simp] theorem embedWrite_outLen (p : Pixel) (b : Bit) : (embedWrite p b s).outLen = s.outLen := rfl
@[simp] theorem embedWrite_pix (p : Pixel) (b : Bit) : (embedWrite p b s).pix = s.pix + 1#32 := rfl
@[simp] theorem embedWrite_op (p : Pixel) (b : Bit) : (embedWrite p b s).op = s.op := rfl
@[simp] theorem embedWrite_acc (p : Pixel) (b : Bit) : (embedWrite p b s).acc = s.acc := rfl
@[simp] theorem embedWrite_accCnt (p : Pixel) (b : Bit) : (embedWrite p b s).accCnt = s.accCnt := rfl
@[simp] theorem embedWrite_win (p : Pixel) (b : Bit) : (embedWrite p b s).win = s.win := rfl
@[simp] theorem embedWrite_nbytes (p : Pixel) (b : Bit) : (embedWrite p b s).nbytes = s.nbytes := rfl
@[simp] theorem embedWrite_raster (p : Pixel) (b : Bit) : (embedWrite p b s).raster = s.raster.store s.pix.toNat (withBlueBit p b) := rfl
@[simp] theorem embedWrite_msg (p : Pixel) (b : Bit) : (embedWrite p b s).msg = s.msg := rfl
@[simp] theorem embedWrite_key (p : Pixel) (b : Bit) : (embedWrite p b s).key = s.key := rfl
@[simp] theorem embedWrite_out (p : Pixel) (b : Bit) : (embedWrite p b s).out = s.out := rfl
@[simp] theorem embedWrite_sizes (p : Pixel) (b : Bit) : (embedWrite p b s).sizes = s.sizes := rfl
@[simp] theorem embedWrite_refusal (p : Pixel) (b : Bit) : (embedWrite p b s).refusal = s.refusal := rfl
@[simp] theorem embedWrite_program (p : Pixel) (b : Bit) : (embedWrite p b s).program = s.program := rfl
@[simp] theorem embedWrite_turns (p : Pixel) (b : Bit) : (embedWrite p b s).turns = s.turns := rfl
@[simp] theorem embedWrite_draws (p : Pixel) (b : Bit) : (embedWrite p b s).draws = s.draws := rfl
@[simp] theorem embedWrite_answers (p : Pixel) (b : Bit) : (embedWrite p b s).answers = s.answers := rfl

/-! ### scanFound -/

@[simp] theorem scanFound_cmd : (scanFound s).cmd = s.cmd := rfl
@[simp] theorem scanFound_state : (scanFound s).state = .doneOk := rfl
@[simp] theorem scanFound_err : (scanFound s).err = s.err := rfl
@[simp] theorem scanFound_fits : (scanFound s).fits = s.fits := rfl
@[simp] theorem scanFound_lost : (scanFound s).lost = s.lost := rfl
@[simp] theorem scanFound_width : (scanFound s).width = s.width := rfl
@[simp] theorem scanFound_height : (scanFound s).height = s.height := rfl
@[simp] theorem scanFound_msgLen : (scanFound s).msgLen = s.msgLen := rfl
@[simp] theorem scanFound_keyLen : (scanFound s).keyLen = s.keyLen := rfl
@[simp] theorem scanFound_outLen : (scanFound s).outLen = s.nbytes - 3#32 := rfl
@[simp] theorem scanFound_pix : (scanFound s).pix = s.pix := rfl
@[simp] theorem scanFound_op : (scanFound s).op = s.op := rfl
@[simp] theorem scanFound_acc : (scanFound s).acc = s.acc := rfl
@[simp] theorem scanFound_accCnt : (scanFound s).accCnt = s.accCnt := rfl
@[simp] theorem scanFound_win : (scanFound s).win = s.win := rfl
@[simp] theorem scanFound_nbytes : (scanFound s).nbytes = s.nbytes := rfl
@[simp] theorem scanFound_raster : (scanFound s).raster = s.raster := rfl
@[simp] theorem scanFound_msg : (scanFound s).msg = s.msg := rfl
@[simp] theorem scanFound_key : (scanFound s).key = s.key := rfl
@[simp] theorem scanFound_out : (scanFound s).out = s.out.keepBelow (s.nbytes - 3#32).toNat := rfl
@[simp] theorem scanFound_sizes : (scanFound s).sizes = s.sizes := rfl
@[simp] theorem scanFound_refusal : (scanFound s).refusal = s.refusal := rfl
@[simp] theorem scanFound_program : (scanFound s).program = s.program := rfl
@[simp] theorem scanFound_turns : (scanFound s).turns = s.turns := rfl
@[simp] theorem scanFound_draws : (scanFound s).draws = s.draws := rfl
@[simp] theorem scanFound_answers : (scanFound s).answers = s.answers := rfl

/-! ### scanMissed -/

@[simp] theorem scanMissed_cmd : (scanMissed s).cmd = s.cmd := rfl
@[simp] theorem scanMissed_state : (scanMissed s).state = .doneErr := rfl
@[simp] theorem scanMissed_err : (scanMissed s).err = .noMarkerFound := rfl
@[simp] theorem scanMissed_fits : (scanMissed s).fits = s.fits := rfl
@[simp] theorem scanMissed_lost : (scanMissed s).lost = s.lost := rfl
@[simp] theorem scanMissed_width : (scanMissed s).width = s.width := rfl
@[simp] theorem scanMissed_height : (scanMissed s).height = s.height := rfl
@[simp] theorem scanMissed_msgLen : (scanMissed s).msgLen = s.msgLen := rfl
@[simp] theorem scanMissed_keyLen : (scanMissed s).keyLen = s.keyLen := rfl
@[simp] theorem scanMissed_outLen : (scanMissed s).outLen = 0 := rfl
@[simp] theorem scanMissed_pix : (scanMissed s).pix = s.pix := rfl
@[simp] theorem scanMissed_op : (scanMissed s).op = s.op := rfl
@[simp] theorem scanMissed_acc : (scanMissed s).acc = s.acc := rfl
@[simp] theorem scanMissed_accCnt : (scanMissed s).accCnt = s.accCnt := rfl
@[simp] theorem scanMissed_win : (scanMissed s).win = s.win := rfl
@[simp] theorem scanMissed_nbytes : (scanMissed s).nbytes = s.nbytes := rfl
@[simp] theorem scanMissed_raster : (scanMissed s).raster = s.raster := rfl
@[simp] theorem scanMissed_msg : (scanMissed s).msg = s.msg := rfl
@[simp] theorem scanMissed_key : (scanMissed s).key = s.key := rfl
@[simp] theorem scanMissed_out : (scanMissed s).out = s.out.forget := rfl
@[simp] theorem scanMissed_sizes : (scanMissed s).sizes = s.sizes := rfl
@[simp] theorem scanMissed_refusal : (scanMissed s).refusal = s.refusal := rfl
@[simp] theorem scanMissed_program : (scanMissed s).program = s.program := rfl
@[simp] theorem scanMissed_turns : (scanMissed s).turns = s.turns := rfl
@[simp] theorem scanMissed_draws : (scanMissed s).draws = s.draws := rfl
@[simp] theorem scanMissed_answers : (scanMissed s).answers = s.answers := rfl

/-! ### takeBit -/

@[simp] theorem takeBit_cmd (a : Accumulated) : (takeBit a s).cmd = s.cmd := rfl
@[simp] theorem takeBit_state (a : Accumulated) : (takeBit a s).state = s.state := rfl
@[simp] theorem takeBit_err (a : Accumulated) : (takeBit a s).err = s.err := rfl
@[simp] theorem takeBit_fits (a : Accumulated) : (takeBit a s).fits = s.fits := rfl
@[simp] theorem takeBit_lost (a : Accumulated) : (takeBit a s).lost = s.lost := rfl
@[simp] theorem takeBit_width (a : Accumulated) : (takeBit a s).width = s.width := rfl
@[simp] theorem takeBit_height (a : Accumulated) : (takeBit a s).height = s.height := rfl
@[simp] theorem takeBit_msgLen (a : Accumulated) : (takeBit a s).msgLen = s.msgLen := rfl
@[simp] theorem takeBit_keyLen (a : Accumulated) : (takeBit a s).keyLen = s.keyLen := rfl
@[simp] theorem takeBit_outLen (a : Accumulated) : (takeBit a s).outLen = s.outLen := rfl
@[simp] theorem takeBit_pix (a : Accumulated) : (takeBit a s).pix = s.pix + 1#32 := rfl
@[simp] theorem takeBit_op (a : Accumulated) : (takeBit a s).op = s.op := rfl
@[simp] theorem takeBit_acc (a : Accumulated) : (takeBit a s).acc = a.acc := rfl
@[simp] theorem takeBit_accCnt (a : Accumulated) : (takeBit a s).accCnt = a.accCnt := rfl
@[simp] theorem takeBit_win (a : Accumulated) : (takeBit a s).win = s.win := rfl
@[simp] theorem takeBit_nbytes (a : Accumulated) : (takeBit a s).nbytes = s.nbytes := rfl
@[simp] theorem takeBit_raster (a : Accumulated) : (takeBit a s).raster = s.raster := rfl
@[simp] theorem takeBit_msg (a : Accumulated) : (takeBit a s).msg = s.msg := rfl
@[simp] theorem takeBit_key (a : Accumulated) : (takeBit a s).key = s.key := rfl
@[simp] theorem takeBit_out (a : Accumulated) : (takeBit a s).out = s.out := rfl
@[simp] theorem takeBit_sizes (a : Accumulated) : (takeBit a s).sizes = s.sizes := rfl
@[simp] theorem takeBit_refusal (a : Accumulated) : (takeBit a s).refusal = s.refusal := rfl
@[simp] theorem takeBit_program (a : Accumulated) : (takeBit a s).program = s.program := rfl
@[simp] theorem takeBit_turns (a : Accumulated) : (takeBit a s).turns = s.turns := rfl
@[simp] theorem takeBit_draws (a : Accumulated) : (takeBit a s).draws = s.draws := rfl
@[simp] theorem takeBit_answers (a : Accumulated) : (takeBit a s).answers = s.answers := rfl

/-! ### takeByte -/

@[simp] theorem takeByte_cmd (q : Pushed) : (takeByte q s).cmd = s.cmd := rfl
@[simp] theorem takeByte_state (q : Pushed) : (takeByte q s).state = s.state := rfl
@[simp] theorem takeByte_err (q : Pushed) : (takeByte q s).err = s.err := rfl
@[simp] theorem takeByte_fits (q : Pushed) : (takeByte q s).fits = s.fits := rfl
@[simp] theorem takeByte_lost (q : Pushed) : (takeByte q s).lost = s.lost := rfl
@[simp] theorem takeByte_width (q : Pushed) : (takeByte q s).width = s.width := rfl
@[simp] theorem takeByte_height (q : Pushed) : (takeByte q s).height = s.height := rfl
@[simp] theorem takeByte_msgLen (q : Pushed) : (takeByte q s).msgLen = s.msgLen := rfl
@[simp] theorem takeByte_keyLen (q : Pushed) : (takeByte q s).keyLen = s.keyLen := rfl
@[simp] theorem takeByte_outLen (q : Pushed) : (takeByte q s).outLen = s.outLen := rfl
@[simp] theorem takeByte_pix (q : Pushed) : (takeByte q s).pix = s.pix := rfl
@[simp] theorem takeByte_op (q : Pushed) : (takeByte q s).op = s.op := rfl
@[simp] theorem takeByte_acc (q : Pushed) : (takeByte q s).acc = s.acc := rfl
@[simp] theorem takeByte_accCnt (q : Pushed) : (takeByte q s).accCnt = s.accCnt := rfl
@[simp] theorem takeByte_win (q : Pushed) : (takeByte q s).win = q.win := rfl
@[simp] theorem takeByte_nbytes (q : Pushed) : (takeByte q s).nbytes = q.nbytes := rfl
@[simp] theorem takeByte_raster (q : Pushed) : (takeByte q s).raster = s.raster := rfl
@[simp] theorem takeByte_msg (q : Pushed) : (takeByte q s).msg = s.msg := rfl
@[simp] theorem takeByte_key (q : Pushed) : (takeByte q s).key = s.key := rfl
@[simp] theorem takeByte_out (q : Pushed) : (takeByte q s).out = s.out := rfl
@[simp] theorem takeByte_sizes (q : Pushed) : (takeByte q s).sizes = s.sizes := rfl
@[simp] theorem takeByte_refusal (q : Pushed) : (takeByte q s).refusal = s.refusal := rfl
@[simp] theorem takeByte_program (q : Pushed) : (takeByte q s).program = s.program := rfl
@[simp] theorem takeByte_turns (q : Pushed) : (takeByte q s).turns = s.turns := rfl
@[simp] theorem takeByte_draws (q : Pushed) : (takeByte q s).draws = s.draws := rfl
@[simp] theorem takeByte_answers (q : Pushed) : (takeByte q s).answers = s.answers := rfl

/-! ### pollAgain -/

@[simp] theorem pollAgain_cmd : (pollAgain s).cmd = s.cmd := rfl
@[simp] theorem pollAgain_state : (pollAgain s).state = s.state := rfl
@[simp] theorem pollAgain_err : (pollAgain s).err = s.err := rfl
@[simp] theorem pollAgain_fits : (pollAgain s).fits = s.fits := rfl
@[simp] theorem pollAgain_lost : (pollAgain s).lost = s.lost := rfl
@[simp] theorem pollAgain_width : (pollAgain s).width = s.width := rfl
@[simp] theorem pollAgain_height : (pollAgain s).height = s.height := rfl
@[simp] theorem pollAgain_msgLen : (pollAgain s).msgLen = s.msgLen := rfl
@[simp] theorem pollAgain_keyLen : (pollAgain s).keyLen = s.keyLen := rfl
@[simp] theorem pollAgain_outLen : (pollAgain s).outLen = s.outLen := rfl
@[simp] theorem pollAgain_pix : (pollAgain s).pix = s.pix := rfl
@[simp] theorem pollAgain_op : (pollAgain s).op = s.op := rfl
@[simp] theorem pollAgain_acc : (pollAgain s).acc = s.acc := rfl
@[simp] theorem pollAgain_accCnt : (pollAgain s).accCnt = s.accCnt := rfl
@[simp] theorem pollAgain_win : (pollAgain s).win = s.win := rfl
@[simp] theorem pollAgain_nbytes : (pollAgain s).nbytes = s.nbytes := rfl
@[simp] theorem pollAgain_raster : (pollAgain s).raster = s.raster := rfl
@[simp] theorem pollAgain_msg : (pollAgain s).msg = s.msg := rfl
@[simp] theorem pollAgain_key : (pollAgain s).key = s.key := rfl
@[simp] theorem pollAgain_out : (pollAgain s).out = s.out := rfl
@[simp] theorem pollAgain_sizes : (pollAgain s).sizes = s.sizes := rfl
@[simp] theorem pollAgain_refusal : (pollAgain s).refusal = s.refusal := rfl
@[simp] theorem pollAgain_program : (pollAgain s).program = .poll :: s.program := rfl
@[simp] theorem pollAgain_turns : (pollAgain s).turns = s.turns := rfl
@[simp] theorem pollAgain_draws : (pollAgain s).draws = s.draws := rfl
@[simp] theorem pollAgain_answers : (pollAgain s).answers = s.answers := rfl

/-! ### engineTurn -/

@[simp] theorem engineTurn_cmd : (engineTurn s).cmd = s.cmd := rfl
@[simp] theorem engineTurn_state : (engineTurn s).state = s.state := rfl
@[simp] theorem engineTurn_err : (engineTurn s).err = s.err := rfl
@[simp] theorem engineTurn_fits : (engineTurn s).fits = s.fits := rfl
@[simp] theorem engineTurn_lost : (engineTurn s).lost = s.lost := rfl
@[simp] theorem engineTurn_width : (engineTurn s).width = s.width := rfl
@[simp] theorem engineTurn_height : (engineTurn s).height = s.height := rfl
@[simp] theorem engineTurn_msgLen : (engineTurn s).msgLen = s.msgLen := rfl
@[simp] theorem engineTurn_keyLen : (engineTurn s).keyLen = s.keyLen := rfl
@[simp] theorem engineTurn_outLen : (engineTurn s).outLen = s.outLen := rfl
@[simp] theorem engineTurn_pix : (engineTurn s).pix = s.pix := rfl
@[simp] theorem engineTurn_op : (engineTurn s).op = s.op := rfl
@[simp] theorem engineTurn_acc : (engineTurn s).acc = s.acc := rfl
@[simp] theorem engineTurn_accCnt : (engineTurn s).accCnt = s.accCnt := rfl
@[simp] theorem engineTurn_win : (engineTurn s).win = s.win := rfl
@[simp] theorem engineTurn_nbytes : (engineTurn s).nbytes = s.nbytes := rfl
@[simp] theorem engineTurn_raster : (engineTurn s).raster = s.raster := rfl
@[simp] theorem engineTurn_msg : (engineTurn s).msg = s.msg := rfl
@[simp] theorem engineTurn_key : (engineTurn s).key = s.key := rfl
@[simp] theorem engineTurn_out : (engineTurn s).out = s.out := rfl
@[simp] theorem engineTurn_sizes : (engineTurn s).sizes = s.sizes := rfl
@[simp] theorem engineTurn_refusal : (engineTurn s).refusal = s.refusal := rfl
@[simp] theorem engineTurn_program : (engineTurn s).program = s.program := rfl
@[simp] theorem engineTurn_turns : (engineTurn s).turns = s.turns.tail := rfl
@[simp] theorem engineTurn_draws : (engineTurn s).draws = drawsAfterTurn s := rfl
@[simp] theorem engineTurn_answers : (engineTurn s).answers = s.answers := rfl

/-! ### hostTurn -/

@[simp] theorem hostTurn_cmd : (hostTurn s).cmd = s.cmd := rfl
@[simp] theorem hostTurn_state : (hostTurn s).state = s.state := rfl
@[simp] theorem hostTurn_err : (hostTurn s).err = s.err := rfl
@[simp] theorem hostTurn_fits : (hostTurn s).fits = s.fits := rfl
@[simp] theorem hostTurn_lost : (hostTurn s).lost = s.lost := rfl
@[simp] theorem hostTurn_width : (hostTurn s).width = s.width := rfl
@[simp] theorem hostTurn_height : (hostTurn s).height = s.height := rfl
@[simp] theorem hostTurn_msgLen : (hostTurn s).msgLen = s.msgLen := rfl
@[simp] theorem hostTurn_keyLen : (hostTurn s).keyLen = s.keyLen := rfl
@[simp] theorem hostTurn_outLen : (hostTurn s).outLen = s.outLen := rfl
@[simp] theorem hostTurn_pix : (hostTurn s).pix = s.pix := rfl
@[simp] theorem hostTurn_op : (hostTurn s).op = s.op := rfl
@[simp] theorem hostTurn_acc : (hostTurn s).acc = s.acc := rfl
@[simp] theorem hostTurn_accCnt : (hostTurn s).accCnt = s.accCnt := rfl
@[simp] theorem hostTurn_win : (hostTurn s).win = s.win := rfl
@[simp] theorem hostTurn_nbytes : (hostTurn s).nbytes = s.nbytes := rfl
@[simp] theorem hostTurn_raster : (hostTurn s).raster = s.raster := rfl
@[simp] theorem hostTurn_msg : (hostTurn s).msg = s.msg := rfl
@[simp] theorem hostTurn_key : (hostTurn s).key = s.key := rfl
@[simp] theorem hostTurn_out : (hostTurn s).out = s.out := rfl
@[simp] theorem hostTurn_sizes : (hostTurn s).sizes = s.sizes := rfl
@[simp] theorem hostTurn_refusal : (hostTurn s).refusal = s.refusal := rfl
@[simp] theorem hostTurn_program : (hostTurn s).program = s.program := rfl
@[simp] theorem hostTurn_turns : (hostTurn s).turns = (turnsLeft s - 1) :: s.turns.tail := rfl
@[simp] theorem hostTurn_draws : (hostTurn s).draws = drawsAfterTurn s := rfl
@[simp] theorem hostTurn_answers : (hostTurn s).answers = s.answers := rfl

/-! ### dropHead -/

@[simp] theorem dropHead_cmd : (dropHead s).cmd = s.cmd := rfl
@[simp] theorem dropHead_state : (dropHead s).state = s.state := rfl
@[simp] theorem dropHead_err : (dropHead s).err = s.err := rfl
@[simp] theorem dropHead_fits : (dropHead s).fits = s.fits := rfl
@[simp] theorem dropHead_lost : (dropHead s).lost = s.lost := rfl
@[simp] theorem dropHead_width : (dropHead s).width = s.width := rfl
@[simp] theorem dropHead_height : (dropHead s).height = s.height := rfl
@[simp] theorem dropHead_msgLen : (dropHead s).msgLen = s.msgLen := rfl
@[simp] theorem dropHead_keyLen : (dropHead s).keyLen = s.keyLen := rfl
@[simp] theorem dropHead_outLen : (dropHead s).outLen = s.outLen := rfl
@[simp] theorem dropHead_pix : (dropHead s).pix = s.pix := rfl
@[simp] theorem dropHead_op : (dropHead s).op = s.op := rfl
@[simp] theorem dropHead_acc : (dropHead s).acc = s.acc := rfl
@[simp] theorem dropHead_accCnt : (dropHead s).accCnt = s.accCnt := rfl
@[simp] theorem dropHead_win : (dropHead s).win = s.win := rfl
@[simp] theorem dropHead_nbytes : (dropHead s).nbytes = s.nbytes := rfl
@[simp] theorem dropHead_raster : (dropHead s).raster = s.raster := rfl
@[simp] theorem dropHead_msg : (dropHead s).msg = s.msg := rfl
@[simp] theorem dropHead_key : (dropHead s).key = s.key := rfl
@[simp] theorem dropHead_out : (dropHead s).out = s.out := rfl
@[simp] theorem dropHead_sizes : (dropHead s).sizes = s.sizes := rfl
@[simp] theorem dropHead_refusal : (dropHead s).refusal = s.refusal := rfl
@[simp] theorem dropHead_program : (dropHead s).program = s.program.tail := rfl
@[simp] theorem dropHead_turns : (dropHead s).turns = s.turns := rfl
@[simp] theorem dropHead_draws : (dropHead s).draws = s.draws := rfl
@[simp] theorem dropHead_answers : (dropHead s).answers = s.answers := rfl

end Sys2Proof.Machine
end

