-- ==== Sys2Proof/Laws/Step.lean ====
section
/-! SUPPORT. What each shared operation and each step can do, said once: inversion lemmas the proofs cite instead of
unfolding the step. -/

namespace Sys2Proof.Machine

/-! ## One element after a write -/

theorem pixelAt_store (i j : Nat) (p : Pixel) (s : State) : pixelAt (storePixel i p s) j = if j = i then p else pixelAt s j := by
  unfold pixelAt; simp only [storePixel_raster, find_store]; split_ifs <;> simp

theorem msgAt_store (i j : Nat) (p : Byte) (s : State) : msgAt (storeMsg i p s) j = if j = i then p else msgAt s j := by
  unfold msgAt; simp only [storeMsg_msg, find_store]; split_ifs <;> simp

theorem keyAt_store (i j : Nat) (p : Byte) (s : State) : keyAt (storeKey i p s) j = if j = i then p else keyAt s j := by
  unfold keyAt; simp only [storeKey_key, find_store]; split_ifs <;> simp

theorem outAt_store (i j : Nat) (p : Byte) (s : State) : outAt (storeOut i p s) j = if j = i then p else outAt s j := by
  unfold outAt; simp only [storeOut_out, find_store]; split_ifs <;> simp

/-! ## The engine's reads and writes -/

theorem engineReadPixel_eq_ok {s : State} {i : Nat} {p : Pixel} :
    engineReadPixel s i = .ok p ↔ i < s.sizes.pMax ∧ p = pixelAt s i := by
  unfold engineReadPixel; split_ifs with h <;> simp [h, eq_comm]

theorem engineReadMsg_eq_ok {s : State} {i : Nat} {v : Byte} :
    engineReadMsg s i = .ok v ↔ i < s.sizes.mMax ∧ v = msgAt s i := by
  unfold engineReadMsg; split_ifs with h <;> simp [h, eq_comm]

theorem engineReadKey_eq_ok {s : State} {j : Nat} {v : Byte} :
    engineReadKey s j = .ok v ↔
      s.keyLen.toNat ≠ 0 ∧ j % s.keyLen.toNat < s.sizes.kMax ∧ v = keyAt s (j % s.keyLen.toNat) := by
  unfold engineReadKey
  split_ifs with h h'
  · simp [h]
  · simp [h, h', eq_comm]
  · simp [h']

theorem engineWriteOut_eq_ok {s t : State} {i : Nat} {v : Byte} :
    engineWriteOut s i v = .ok t ↔ i < s.sizes.oMax ∧ t = storeOut i v s := by
  unfold engineWriteOut; split_ifs with h <;> simp [h, eq_comm]

/-- What an emitted byte does, when it does not fault: OUT is written, or nothing is (R144). -/
theorem emitByte_eq_ok {q : Pushed} {s t : State} :
    emitByte q s = .ok t ↔
      (q.emit = false ∧ t = s) ∨
      (q.emit = true ∧ s.keyLen.toNat ≠ 0 ∧ (s.nbytes.toNat - 3) % s.keyLen.toNat < s.sizes.kMax ∧
        s.nbytes.toNat - 3 < s.sizes.oMax ∧
        t = storeOut (s.nbytes.toNat - 3) (q.outgoing ^^^ keyAt s ((s.nbytes.toNat - 3) % s.keyLen.toNat)) s) := by
  unfold emitByte
  cases hq : q.emit
  · simp [eq_comm]
  · simp only [if_true, Bool.true_eq_false, false_and, false_or, true_and]
    cases hk : engineReadKey s (s.nbytes.toNat - 3) with
    | error f =>
      simp only [reduceCtorEq, false_iff]
      rintro ⟨h1, h2, -⟩
      rw [(engineReadKey_eq_ok (v := keyAt s ((s.nbytes.toNat - 3) % s.keyLen.toNat))).2 ⟨h1, h2, rfl⟩] at hk
      cases hk
    | ok k =>
      obtain ⟨h1, h2, rfl⟩ := engineReadKey_eq_ok.1 hk
      simp only [engineWriteOut_eq_ok]
      tauto

/-! ## The engine's step -/

/-- What an EMBED step does when it answers next (R138). -/
theorem embedStep_eq_next {s t : State} :
    embedStep s = .next t ↔
      s.pix.toNat < reqBits s ∧ s.pix.toNat < s.sizes.pMax ∧
      ∃ bit, streamBit s s.pix.toNat = .ok bit ∧ t = embedWrite (pixelAt s s.pix.toNat) bit s := by
  unfold embedStep
  split_ifs with h
  · cases hb : streamBit s s.pix.toNat with
    | error f => simp
    | ok bit =>
      cases hp : engineReadPixel s s.pix.toNat with
      | error f =>
        simp only [reduceCtorEq, false_iff]
        rintro ⟨-, h2, -⟩
        rw [(engineReadPixel_eq_ok (p := pixelAt s s.pix.toNat)).2 ⟨h2, rfl⟩] at hp
        cases hp
      | ok p =>
        obtain ⟨h2, rfl⟩ := engineReadPixel_eq_ok.1 hp
        simp [h, h2, eq_comm]
  · simp [h]

/-- The accumulator as an EXTRACT step leaves it (R144). -/
abbrev stepAcc (s : State) : Accumulated := accumulate s.acc s.accCnt (blueBit s s.pix.toNat)

/-- What an EXTRACT step does when it answers next (R144). -/
theorem extractStep_eq_next {s t : State} :
    extractStep s = .next t ↔
      s.pix.toNat < capacity s ∧ s.pix.toNat < s.sizes.pMax ∧
      (((stepAcc s).completed = none ∧ t = scanOn (takeBit (stepAcc s) s)) ∨
        ∃ c u, (stepAcc s).completed = some c ∧ emitByte (pushByte s.win s.nbytes c) s = .ok u ∧
          t = if (pushByte s.win s.nbytes c).found
              then scanFound (takeByte (pushByte s.win s.nbytes c) (takeBit (stepAcc s) u))
              else scanOn (takeByte (pushByte s.win s.nbytes c) (takeBit (stepAcc s) u))) := by
  unfold extractStep
  split_ifs with h
  · cases hp : engineReadPixel s s.pix.toNat with
    | error f =>
      simp only [reduceCtorEq, false_iff]
      rintro ⟨-, h2, -⟩
      rw [(engineReadPixel_eq_ok (p := pixelAt s s.pix.toNat)).2 ⟨h2, rfl⟩] at hp
      cases hp
    | ok p =>
      obtain ⟨h2, rfl⟩ := engineReadPixel_eq_ok.1 hp
      change (match (stepAcc s).completed with
        | none => Host.Outcome.next (scanOn (takeBit (stepAcc s) s))
        | some c =>
          match emitByte (pushByte s.win s.nbytes c) s with
          | .error f => .fault f
          | .ok u =>
            if (pushByte s.win s.nbytes c).found = true
            then .next (scanFound (takeByte (pushByte s.win s.nbytes c) (takeBit (stepAcc s) u)))
            else .next (scanOn (takeByte (pushByte s.win s.nbytes c) (takeBit (stepAcc s) u)))) = .next t ↔ _
      cases hc : (stepAcc s).completed with
      | none =>
        constructor
        · intro e
          cases e
          exact ⟨h, h2, .inl ⟨rfl, rfl⟩⟩
        · rintro ⟨-, -, ⟨-, rfl⟩ | ⟨c, u, hc, -⟩⟩
          · rfl
          · cases hc
      | some c =>
        dsimp only
        constructor
        · intro e
          cases he : emitByte (pushByte s.win s.nbytes c) s with
          | error f => rw [he] at e; cases e
          | ok u =>
            rw [he] at e
            dsimp only at e
            refine ⟨h, h2, .inr ⟨c, u, rfl, he, ?_⟩⟩
            split_ifs at e ⊢ <;> cases e <;> rfl
        · rintro ⟨-, -, ⟨hc, -⟩ | ⟨c', u, hc, he, rfl⟩⟩
          · cases hc
          · cases hc
            rw [he]
            dsimp only
            split_ifs <;> rfl
  · simp [h]

/-- What the engine's step does when it answers next (R152). -/
theorem engineStep_eq_next {s t : State} :
    engineStep s = .next t ↔ (s.op = 0x2 ∧ embedStep s = .next t) ∨ (s.op = 0x3 ∧ extractStep s = .next t) := by
  unfold engineStep
  split_ifs with h2 h3
  · simp [h2]
  · simp [h3]
  · simp [h2, h3]

/-- The engine's step is never refused. -/
theorem engineStep_ne_refused (s : State) (r : Refusal) : engineStep s ≠ .refused r := by
  unfold engineStep embedStep extractStep
  split_ifs
  · cases streamBit s s.pix.toNat <;> simp
    cases engineReadPixel s s.pix.toNat <;> simp
  · simp
  · cases engineReadPixel s s.pix.toNat <;> simp
    split <;> try simp
    split <;> try simp
    split_ifs <;> simp
  · simp
  · simp

theorem scanOn_cases (s : State) : (s.pix.toNat = capacity s ∧ scanOn s = scanMissed s) ∨
    (s.pix.toNat ≠ capacity s ∧ scanOn s = s) := by
  unfold scanOn; split_ifs with h
  · exact .inl ⟨h, rfl⟩
  · exact .inr ⟨h, rfl⟩

/-! ## The host's transactions -/

/-- What the host's write of any word to CMD does: dropped while BUSY, otherwise accepted (R130, R175). -/
theorem writeCmd_eq (w : Word) (s : State) :
    writeCmd w s = .next (if s.state = .busy then dropWrite s else
      match decode w with
      | .ok .canEmbed => canEmbedEffect (acceptWord (encode .canEmbed) s)
      | .ok .embed => embedEffect (acceptWord (encode .embed) s)
      | .ok .extract => extractEffect (acceptWord (encode .extract) s)
      | .error _ => raise .illegalCommand (acceptWord w s)) := by
  unfold writeCmd
  cases h : decode w with
  | error e => rfl
  | ok i => cases i <;> rfl

/-- Every transaction, and the reset input, answers a next state. -/
theorem performHost_next (op : HostOp) (s : State) : ∃ t, performHost op s = .next t := by
  cases op with
  | rd width off => simp only [performHost, performRd]; split <;> exact ⟨_, rfl⟩
  | wr width off v =>
    simp only [performHost, performWr]
    split
    · exact ⟨_, rfl⟩
    · cases regAt off <;> first | exact ⟨_, writeCmd_eq v s⟩ | exact ⟨_, rfl⟩
  | mrd sp i => simp only [performHost, performMrd]; split_ifs <;> exact ⟨_, rfl⟩
  | mwr sp i v => simp only [performHost, performMwr]; split_ifs <;> exact ⟨_, rfl⟩
  | poll => simp only [performHost, performPoll]; split_ifs <;> exact ⟨_, rfl⟩
  | reset => exact ⟨_, rfl⟩

/-- What a transaction does, case by case: a CMD write, an operand register write, a STATUS write, a reset, a window write, or
nothing but the host's own record (R171 to R177). -/
theorem performHost_cases {op : HostOp} {u t : State} (h : performHost op u = .next t) :
    (∃ w, op = .wr 32 0x00 w ∧ t = (if u.state = .busy then dropWrite u else
      match decode w with
      | .ok .canEmbed => canEmbedEffect (acceptWord (encode .canEmbed) u)
      | .ok .embed => embedEffect (acceptWord (encode .embed) u)
      | .ok .extract => extractEffect (acceptWord (encode .extract) u)
      | .error _ => raise .illegalCommand (acceptWord w u))) ∨
    (∃ off v, off ∈ [0x08, 0x0C, 0x10, 0x14] ∧ op = .wr 32 off v ∧ ((u.state = .busy ∧ t = dropWrite u) ∨ (u.state ≠ .busy ∧ (t = loadWidth v u ∨ t = loadHeight v u ∨ t = loadMsgLen v u ∨ t = loadKeyLen v u)))) ∨
    (∃ v, op = .wr 32 0x04 v ∧ t = writeStatus v u) ∨
    (op = .reset ∧ t = resetBlock u) ∨
    (∃ sp i v, op = .mwr sp i v ∧ i < u.sizes.of sp ∧ u.state ≠ .busy ∧ t = writeElement sp i v u) ∨
    (t = { u with answers := t.answers, refusal := t.refusal, draws := t.draws, program := t.program } ∧ (t.program = u.program ∨ op = .poll ∧ u.state = .busy ∧ t.program = .poll :: u.program)) := by
  cases op with
  | rd width off =>
    simp only [performHost, performRd] at h
    split at h <;> cases h <;> exact .inr (.inr (.inr (.inr (.inr ⟨rfl, .inl rfl⟩))))
  | wr width off v =>
    simp only [performHost, performWr] at h
    split at h
    · cases h; exact .inr (.inr (.inr (.inr (.inr ⟨rfl, .inl rfl⟩))))
    · rename_i hr
      have hw : width = 32 := by
        by_contra hc; simp [registerRefusal, hc] at hr
      subst hw
      by_cases h0 : off = 0
      · subst h0
        rw [show regAt 0 = .cmd from rfl, writeReg, writeCmd_eq] at h
        cases h
        exact .inl ⟨v, rfl, rfl⟩
      · by_cases h4 : off = 4
        · subst h4
          cases h
          exact .inr (.inr (.inl ⟨v, rfl, rfl⟩))
        · by_cases hm : off ∈ [0x08, 0x0C, 0x10, 0x14]
          · refine .inr (.inl ⟨off, v, hm, rfl, ?_⟩)
            simp only [List.mem_cons, List.not_mem_nil, or_false] at hm
            by_cases hb : u.state = .busy
            · left; refine ⟨hb, ?_⟩
              rcases hm with rfl | rfl | rfl | rfl <;> simp [regAt, writeReg, unlessBusy, hb] at h <;> exact h.symm
            · right; refine ⟨hb, ?_⟩
              rcases hm with rfl | rfl | rfl | rfl <;> simp [regAt, writeReg, unlessBusy, hb] at h <;> simp [h]
          · have : t = u := by
              simp only [List.mem_cons, List.not_mem_nil, or_false, not_or] at hm
              have hx : ∀ r : RegName, r ≠ .cmd → r ≠ .status → r ≠ .width → r ≠ .height → r ≠ .msgLen → r ≠ .keyLen → writeReg r v u = .next u := by
                intro r; cases r <;> simp [writeReg]
              have hq : regAt off ≠ .cmd ∧ regAt off ≠ .status ∧ regAt off ≠ .width ∧ regAt off ≠ .height ∧ regAt off ≠ .msgLen ∧ regAt off ≠ .keyLen := by
                unfold regAt; split <;> simp_all
              rw [hx _ hq.1 hq.2.1 hq.2.2.1 hq.2.2.2.1 hq.2.2.2.2.1 hq.2.2.2.2.2] at h
              cases h; rfl
            subst this
            exact .inr (.inr (.inr (.inr (.inr ⟨rfl, .inl rfl⟩))))
  | mrd sp i =>
    simp only [performHost, performMrd] at h
    split_ifs at h <;> cases h <;> exact .inr (.inr (.inr (.inr (.inr ⟨rfl, .inl rfl⟩))))
  | mwr sp i v =>
    simp only [performHost, performMwr] at h
    split_ifs at h with h1 h2 <;> cases h
    · exact .inr (.inr (.inr (.inr (.inr ⟨rfl, .inl rfl⟩))))
    · exact .inr (.inr (.inr (.inr (.inr ⟨rfl, .inl rfl⟩))))
    · exact .inr (.inr (.inr (.inr (.inl ⟨sp, i, v, rfl, not_le.1 h1, h2, rfl⟩))))
  | poll =>
    simp only [performHost, performPoll] at h
    split_ifs at h with hb <;> cases h
    · exact .inr (.inr (.inr (.inr (.inr ⟨rfl, .inr ⟨rfl, hb, rfl⟩⟩))))
    · exact .inr (.inr (.inr (.inr (.inr ⟨rfl, .inl rfl⟩))))
  | reset => cases h; exact .inr (.inr (.inr (.inl ⟨rfl, rfl⟩)))

/-! ## The step -/

/-- What a step does when it answers next: the engine moves, the host moves, nothing can move, or a reset ends a refused
run (R170, R152). -/
theorem step_eq_next {s t : State} (h : step s = .next t) :
    (s.refusal = none ∧ s.state = .busy ∧ ((engineStep s = .next t ∧ s.program = []) ∨ (turnsLeft s = 0 ∧ engineStep (engineTurn s) = .next t))) ∨
    (∃ op rest, s.refusal = none ∧ s.program = op :: rest ∧
      ((s.state ≠ .busy ∧ performHost op (dropHead s) = .next t) ∨
        (s.state = .busy ∧ turnsLeft s ≠ 0 ∧ performHost op (dropHead (hostTurn s)) = .next t))) ∨
    (s.refusal = none ∧ s.program = [] ∧ s.state ≠ .busy ∧ t = s) ∨
    (∃ rest, s.program = .reset :: rest ∧ t = resetBlock (dropHead s)) := by
  unfold step systemStep at h
  cases hr : s.refusal with
  | some r =>
    simp only [hr, moveRefused] at h
    split at h
    · rename_i rest hp
      exact .inr (.inr (.inr ⟨rest, hp, by simpa using h.symm⟩))
    · cases h
  | none =>
    simp only [hr] at h
    cases hp : s.program with
    | nil =>
      simp only [hp, moveAlone] at h
      split_ifs at h with hb
      · exact .inl ⟨rfl, hb, .inl ⟨h, rfl⟩⟩
      · exact .inr (.inr (.inl ⟨rfl, rfl, hb, by simpa using h.symm⟩))
    | cons op rest =>
      simp only [hp, moveHost] at h
      split_ifs at h with hb ht
      · exact .inl ⟨rfl, hb, .inr ⟨ht, h⟩⟩
      · exact .inr (.inl ⟨op, rest, rfl, rfl, .inr ⟨hb, ht, h⟩⟩)
      · exact .inr (.inl ⟨op, rest, rfl, rfl, .inl ⟨hb, h⟩⟩)

end Sys2Proof.Machine
end

