-- ==== Sys2Proof/Laws/Engine.lean ====
section
/-! SUPPORT. What an engine step, a step of the system and the acceptance of a command can do, each said once in the form
the invariants use. -/

namespace Sys2Proof.Machine

/-- The fields no engine step changes (R138, R144). -/
structure EngineFrame (s t : State) : Prop where
  width : t.width = s.width
  height : t.height = s.height
  msgLen : t.msgLen = s.msgLen
  keyLen : t.keyLen = s.keyLen
  cmd : t.cmd = s.cmd
  op : t.op = s.op
  fits : t.fits = s.fits
  lost : t.lost = s.lost
  msg : t.msg = s.msg
  key : t.key = s.key
  sizes : t.sizes = s.sizes
  refusal : t.refusal = s.refusal
  program : t.program = s.program
  turns : t.turns = s.turns
  draws : t.draws = s.draws
  answers : t.answers = s.answers

/-- An emitted byte changes OUT at most (R144). -/
theorem emitByte_frame {q s u} (h : emitByte q s = .ok u) : u = s ∨ ∃ v, u = storeOut (s.nbytes.toNat - 3) v s := by
  rcases emitByte_eq_ok.1 h with ⟨-, rfl⟩ | ⟨-, -, -, -, rfl⟩
  · exact .inl rfl
  · exact .inr ⟨_, rfl⟩

theorem scanOn_pix (s : State) : (scanOn s).pix = s.pix := by
  rcases scanOn_cases s with ⟨-, h⟩ | ⟨-, h⟩ <;> rw [h]; rfl

theorem scanOn_engineFrame {s t : State} (h : EngineFrame s t) : EngineFrame s (scanOn t) := by
  obtain ⟨h1,h2,h3,h4,h5,h6,h7,h8,h9,h10,h11,h12,h13,h14,h15,h16⟩ := h
  rcases scanOn_cases t with ⟨-, e⟩ | ⟨-, e⟩ <;> rw [e]
  · exact ⟨h1,h2,h3,h4,h5,h6,h7,h8,h9,h10,h11,h12,h13,h14,h15,h16⟩
  · exact ⟨h1,h2,h3,h4,h5,h6,h7,h8,h9,h10,h11,h12,h13,h14,h15,h16⟩

/-- An engine step keeps its frame and raises PIX by 1 (R138, R144). -/
theorem engineStep_frame {s t : State} (h : engineStep s = .next t) : EngineFrame s t ∧ t.pix = s.pix + 1#32 := by
  rcases engineStep_eq_next.1 h with ⟨-, h⟩ | ⟨-, h⟩
  · obtain ⟨-, -, b, -, rfl⟩ := embedStep_eq_next.1 h
    refine ⟨?_, rfl⟩
    constructor <;> rfl
  · obtain ⟨-, -, h⟩ := extractStep_eq_next.1 h
    rcases h with ⟨-, rfl⟩ | ⟨c, u, -, he, rfl⟩
    · refine ⟨scanOn_engineFrame ?_, scanOn_pix _⟩
      constructor <;> rfl
    · have hu : EngineFrame s (takeByte (pushByte s.win s.nbytes c) (takeBit (stepAcc s) u)) ∧ u.pix = s.pix := by
        rcases emitByte_frame he with rfl | ⟨v, rfl⟩ <;> refine ⟨?_, rfl⟩ <;> constructor <;> rfl
      split_ifs
      · obtain ⟨h1,h2,h3,h4,h5,h6,h7,h8,h9,h10,h11,h12,h13,h14,h15,h16⟩ := hu.1
        refine ⟨⟨h1,h2,h3,h4,h5,h6,h7,h8,h9,h10,h11,h12,h13,h14,h15,h16⟩, ?_⟩
        simp [hu.2]
      · refine ⟨scanOn_engineFrame hu.1, (scanOn_pix _).trans ?_⟩
        simp [hu.2]

/-- STATE and ERR after an engine step (R139, R145, R146). -/
theorem engineStep_status {s t : State} (h : engineStep s = .next t) (hb : s.state = .busy) :
    (t.state = .busy ∧ t.err = s.err ∧ t.outLen = s.outLen) ∨ (t.state = .doneOk ∧ t.err = s.err) ∨
    (t.state = .doneErr ∧ t.err = .noMarkerFound ∧ s.op = 0x3 ∧ t.outLen = 0 ∧ t.pix.toNat = capacity t) := by
  rcases engineStep_eq_next.1 h with ⟨-, h⟩ | ⟨ho, h⟩
  · obtain ⟨-, -, b, -, rfl⟩ := embedStep_eq_next.1 h
    simp only [embedWrite_state, embedWrite_err, embedWrite_outLen, hb]
    split_ifs <;> simp
  · obtain ⟨-, -, h⟩ := extractStep_eq_next.1 h
    rcases h with ⟨-, rfl⟩ | ⟨c, u, -, he, rfl⟩
    · rcases scanOn_cases (takeBit (stepAcc s) s) with ⟨p, e⟩ | ⟨-, e⟩ <;> rw [e]
      · exact .inr (.inr ⟨rfl, rfl, ho, rfl, p⟩)
      · simp [hb]
    · have hu : u.state = s.state ∧ u.err = s.err ∧ u.outLen = s.outLen := by
        rcases emitByte_frame he with rfl | ⟨v, rfl⟩ <;> simp
      split_ifs
      · simp [hu]
      · rcases scanOn_cases (takeByte (pushByte s.win s.nbytes c) (takeBit (stepAcc s) u)) with ⟨p, e⟩ | ⟨-, e⟩ <;> rw [e]
        · exact .inr (.inr ⟨rfl, rfl, ho, rfl, p⟩)
        · simp [hb, hu]

/-- The memories after an engine step (20_memory.md R59). -/
theorem engineStep_memories {s t : State} (h : engineStep s = .next t) :
    (s.op = 0x2 ∧ s.pix.toNat < reqBits s ∧ s.pix.toNat < s.sizes.pMax ∧ t.out = s.out ∧
      ∃ b, t.raster = s.raster.store s.pix.toNat (withBlueBit (pixelAt s s.pix.toNat) b)) ∨
    (s.op = 0x3 ∧ t.raster = s.raster ∧
      (t.out = s.out ∨ t.out = s.out.forget ∨ (∃ n, t.out = s.out.keepBelow n) ∨
        (∃ j v, j < s.sizes.oMax ∧
          (t.out = s.out.store j v ∨ t.out = (s.out.store j v).forget ∨ ∃ n, t.out = (s.out.store j v).keepBelow n)))) := by
  rcases engineStep_eq_next.1 h with ⟨ho, h⟩ | ⟨ho, h⟩
  · obtain ⟨h1, h2, b, -, rfl⟩ := embedStep_eq_next.1 h
    exact .inl ⟨ho, h1, h2, rfl, b, rfl⟩
  · obtain ⟨-, -, h⟩ := extractStep_eq_next.1 h
    right
    refine ⟨ho, ?_⟩
    rcases h with ⟨-, rfl⟩ | ⟨c, u, -, he, rfl⟩
    · rcases scanOn_cases (takeBit (stepAcc s) s) with ⟨-, e⟩ | ⟨-, e⟩ <;> rw [e] <;> simp
    · have hu : u = s ∨ ∃ j v, j < s.sizes.oMax ∧ u = storeOut j v s := by
        rcases emitByte_eq_ok.1 he with ⟨-, rfl⟩ | ⟨-, -, -, hh, rfl⟩
        · exact .inl rfl
        · exact .inr ⟨_, _, hh, rfl⟩
      rcases hu with rfl | ⟨j, v, hj, rfl⟩
      · split_ifs
        · exact ⟨rfl, .inr (.inr (.inl ⟨_, rfl⟩))⟩
        · rcases scanOn_cases (takeByte (pushByte u.win u.nbytes c) (takeBit (stepAcc u) u)) with ⟨-, e⟩ | ⟨-, e⟩ <;> rw [e] <;> simp
      · split_ifs
        · exact ⟨rfl, .inr (.inr (.inr ⟨j, v, hj, .inr (.inr ⟨_, rfl⟩)⟩))⟩
        · rcases scanOn_cases (takeByte (pushByte s.win s.nbytes c) (takeBit (stepAcc s) (storeOut j v s))) with ⟨-, e⟩ | ⟨-, e⟩ <;> rw [e]
          · exact ⟨rfl, .inr (.inr (.inr ⟨j, v, hj, .inr (.inl rfl)⟩))⟩
          · exact ⟨rfl, .inr (.inr (.inr ⟨j, v, hj, .inl rfl⟩))⟩

/-- `u` is `s` seen by the host's next transaction: only the model's own fields differ. -/
def HostView (s u : State) (rest : List HostOp) : Prop := u = { s with program := rest, turns := u.turns, draws := u.draws }

theorem hostView_dropHead {s : State} {op rest} (hp : s.program = op :: rest) : HostView s (dropHead s) rest := by
  simp [HostView, dropHead, hp]
theorem hostView_hostTurn {s : State} {op rest} (hp : s.program = op :: rest) :
    HostView s (dropHead (hostTurn s)) rest := by
  simp [HostView, dropHead, hp, hostTurn]

/-- A step that answers next, in one shape: the engine, the host, nobody, or a reset that ends a refused run. -/
theorem step_next_cases {s t : State} (h : step s = .next t) :
    (∃ u, EngineMoves s ∧ u = { s with turns := u.turns, draws := u.draws } ∧ engineStep u = .next t) ∨
    (∃ op rest u, s.program = op :: rest ∧ HostView s u rest ∧ performHost op u = .next t ∧ s.refusal = none ∧
      (s.state ≠ .busy → u.turns = s.turns)) ∨
    (t = s ∧ s.state ≠ .busy ∧ s.program = []) ∨
    (∃ rest u, s.program = .reset :: rest ∧ HostView s u rest ∧ t = resetBlock u) := by
  rcases step_eq_next h with ⟨hr, hb, h | h⟩ | ⟨op, rest, hr, hp, h⟩ | ⟨hr, hp, hb, rfl⟩ | ⟨rest, hp, rfl⟩
  · exact .inl ⟨s, ⟨hr, hb, .inl h.2⟩, rfl, h.1⟩
  · exact .inl ⟨_, ⟨hr, hb, .inr h.1⟩, rfl, h.2⟩
  · rcases h with ⟨hb, h⟩ | ⟨hb, ht, h⟩
    · exact .inr (.inl ⟨op, rest, _, hp, hostView_dropHead hp, h, hr, fun _ => rfl⟩)
    · exact .inr (.inl ⟨op, rest, _, hp, hostView_hostTurn hp, h, hr, fun h => absurd hb h⟩)
  · exact .inr (.inr (.inl ⟨rfl, hb, hp⟩))
  · exact .inr (.inr (.inr ⟨rest, _, hp, hostView_dropHead hp, rfl⟩))

theorem enterBusy_cases (e : Option ErrCode) (s : State) :
    (∃ x, e = some x ∧ enterBusy e s = raise x s) ∨ (e = none ∧ enterBusy e s = startBusy s) := by
  cases e
  · exact .inr ⟨rfl, rfl⟩
  · exact .inl ⟨_, rfl, rfl⟩

/-- What the acceptance of EXTRACT does: rejected, rejected with OUT unspecified, or BUSY (R143, 60_exceptions.md R201). -/
theorem extractEffect_cases (s : State) :
    (∃ e, validateExtract s = some e ∧ e ≠ .noMarkerFound ∧ extractEffect s = raise e (clearOutLen s)) ∨
    (validateExtract s = some .noMarkerFound ∧ extractEffect s = scanMissed s) ∨
    (validateExtract s = none ∧ extractEffect s = startBusy (clearOutLen s)) := by
  unfold extractEffect failExtract
  cases validateExtract s with
  | none => simp
  | some e => by_cases h : e = .noMarkerFound <;> simp [h]

/-- What the acceptance of a word does, command by command (R130). -/
theorem accept_cases {u t : State} {w : Word} (hb : u.state ≠ .busy) (h : t = (if u.state = .busy then dropWrite u else
      match decode w with
      | .ok .canEmbed => canEmbedEffect (acceptWord (encode .canEmbed) u)
      | .ok .embed => embedEffect (acceptWord (encode .embed) u)
      | .ok .extract => extractEffect (acceptWord (encode .extract) u)
      | .error _ => raise .illegalCommand (acceptWord w u))) :
    (decode w = .ok .canEmbed ∧ t = canEmbedEffect (acceptWord (encode .canEmbed) u)) ∨
    (∃ e, decode w = .ok .embed ∧ validateEmbed (acceptWord (encode .embed) u) = some e ∧
      t = raise e (acceptWord (encode .embed) u)) ∨
    (decode w = .ok .embed ∧ validateEmbed (acceptWord (encode .embed) u) = none ∧
      t = startBusy (acceptWord (encode .embed) u)) ∨
    (∃ e, decode w = .ok .extract ∧ validateExtract (acceptWord (encode .extract) u) = some e ∧ e ≠ .noMarkerFound ∧
      t = raise e (clearOutLen (acceptWord (encode .extract) u))) ∨
    (decode w = .ok .extract ∧ validateExtract (acceptWord (encode .extract) u) = some .noMarkerFound ∧
      t = scanMissed (acceptWord (encode .extract) u)) ∨
    (decode w = .ok .extract ∧ validateExtract (acceptWord (encode .extract) u) = none ∧
      t = startBusy (clearOutLen (acceptWord (encode .extract) u))) ∨
    ((decode w).toOption = none ∧ t = raise .illegalCommand (acceptWord w u)) := by
  rw [if_neg hb] at h
  cases hd : decode w with
  | error e => rw [hd] at h; exact .inr (.inr (.inr (.inr (.inr (.inr ⟨rfl, h⟩)))))
  | ok i =>
    rw [hd] at h
    cases i with
    | canEmbed => exact .inl ⟨rfl, h⟩
    | embed =>
      rcases enterBusy_cases (validateEmbed (acceptWord (encode .embed) u)) (acceptWord (encode .embed) u) with ⟨x, h1, h2⟩ | ⟨h1, h2⟩
      · exact .inr (.inl ⟨x, rfl, h1, h.trans h2⟩)
      · exact .inr (.inr (.inl ⟨rfl, h1, h.trans h2⟩))
    | extract =>
      rcases extractEffect_cases (acceptWord (encode .extract) u) with ⟨x, h1, hx, h2⟩ | ⟨h1, h2⟩ | ⟨h1, h2⟩
      · exact .inr (.inr (.inr (.inl ⟨x, rfl, h1, hx, h.trans h2⟩)))
      · exact .inr (.inr (.inr (.inr (.inl ⟨rfl, h1, h.trans h2⟩))))
      · exact .inr (.inr (.inr (.inr (.inr (.inl ⟨rfl, h1, h.trans h2⟩)))))

/-- A transaction that is the host's own affair leaves the block as it was. -/
theorem hostRecord_only {u t : State}
    (h : t = { u with answers := t.answers, refusal := t.refusal, draws := t.draws, program := t.program }) :
   t.state = u.state ∧ t.err = u.err ∧ t.fits = u.fits ∧ t.lost = u.lost ∧
    t.width = u.width ∧ t.height = u.height ∧ t.msgLen = u.msgLen ∧ t.keyLen = u.keyLen ∧ t.pix = u.pix ∧
    t.cmd = u.cmd ∧ t.op = u.op ∧ t.raster = u.raster ∧ t.msg = u.msg ∧ t.key = u.key ∧ t.out = u.out ∧
    t.sizes = u.sizes ∧ t.outLen = u.outLen ∧ t.acc = u.acc ∧ t.accCnt = u.accCnt ∧ t.win = u.win ∧ t.nbytes = u.nbytes ∧ t.turns = u.turns := by
  rw [h]; simp

end Sys2Proof.Machine
end

