-- ==== Sys2Proof/Laws/PerInstr.lean ====
section
/-! SUPPORT. Statements about every command as syntax, one lemma per constructor. -/

namespace Sys2Proof.Laws.CommandWord

/-- A command's word: the decoder gives the command back, RSVD is 0, OPC is its opcode, and no operand field is left over:
the word is the opcode itself (30_encoding.md R70, R72, R73). -/
def Statement (i : Instr) : Prop :=
  i.wellFormed = true ∧ decode (encode i) = .ok i ∧ rsvdField (encode i) = 0#28 ∧ opcField (encode i) = opcode i ∧
    (encode i).toNat = (opcode i).toNat

theorem canEmbed : Statement .canEmbed := by unfold Statement; decide

theorem embed : Statement .embed := by unfold Statement; decide

theorem extract : Statement .extract := by unfold Statement; decide

end Sys2Proof.Laws.CommandWord
end

