-- ==== Sys2Proof/Laws/Run.lean ====
section
/-! SUPPORT. Runs of the system, step by step. -/

namespace Sys2Proof.Machine

@[simp] theorem runFor_zero (s : State) : runFor 0 s = .next s := rfl

theorem runFor_succ_next {s t : State} {n : Nat} (h : step s = .next t) : runFor (n + 1) s = runFor n t := by
  have h' : Sys2Proof.core.step s = .next t := h
  simp only [runFor, Host.Core.run, h']; rfl

theorem runFor_succ_fault {s : State} {n : Nat} {f : Fault} (h : step s = .fault f) : runFor (n + 1) s = .fault f := by
  have h' : Sys2Proof.core.step s = .fault f := h
  simp only [runFor, Host.Core.run, h']; rfl

theorem runFor_succ_refused {s : State} {n : Nat} {r : Refusal} (h : step s = .refused r) :
    runFor (n + 1) s = .refused r := by
  have h' : Sys2Proof.core.step s = .refused r := h
  simp only [runFor, Host.Core.run, h']; rfl

/-- A run of n + m steps is a run of m steps from the end of a run of n. -/
theorem runFor_add {s t : State} {n m : Nat} (h : runFor n s = .next t) : runFor (n + m) s = runFor m t := by
  induction n generalizing s with
  | zero => cases h; simp
  | succ n ih =>
    have e : n + 1 + m = (n + m) + 1 := by omega
    rw [e]
    cases hs : step s with
    | next u => rw [runFor_succ_next hs] at h ⊢; exact ih h
    | fault f => rw [runFor_succ_fault hs] at h; cases h
    | refused r => rw [runFor_succ_refused hs] at h; cases h

theorem runFor_snoc {s u t : State} {n : Nat} (h : runFor n s = .next u) (h' : step u = .next t) :
    runFor (n + 1) s = .next t := by
  rw [runFor_add h, runFor_succ_next h']; rfl

end Sys2Proof.Machine
end

