-- ==== Sys2Proof/Tests/Slice0.lean ====
section
/-! SUPPORT. Small tests: ill-formed terms, decoding, single steps against the vectors of 95_test_vectors.md, and for every
obligation with hypotheses a concrete state that meets them together (`test_meets_…`). -/

namespace Sys2Proof.Tests

open Sys2Proof Sys2Proof.Machine

/-! ## States the tests start from -/

/-- P_MAX = 64, M_MAX = 8, K_MAX = 8, O_MAX = 9. -/
def tinySizes : Sizes where
  pMaxPred := 63
  mMaxBits := 8
  kMaxPred := 7
  oMaxSlack := 4

/-- Just after reset, with small memories. -/
def blank : State := { State.reset with sizes := tinySizes }

/-- A memory that lists the given elements from index `i` on. -/
def cellsFrom {α : Type} (i : Nat) : List α → List (Nat × α)
  | [] => []
  | v :: vs => (i, v) :: cellsFrom (i + 1) vs

/-- The host has set the operands up (43_host_bus.md R180). -/
def prepared (w h : BitVec 16) (m k : List Byte) (px : List Pixel) : State :=
  { blank with
    width := w
    height := h
    msgLen := BitVec.ofNat 28 m.length
    keyLen := BitVec.ofNat 28 k.length
    raster := { cells := cellsFrom 0 px, draw := 0 }
    msg := { cells := cellsFrom 0 m, draw := 0 }
    key := { cells := cellsFrom 0 k, draw := 0 } }

/-- The next state of an outcome, for a test that expects one. -/
def after : Host.Outcome State Fault Refusal → State
  | .next s => s
  | .fault _ => blank
  | .refused _ => blank

/-- `n` pixels of one colour. -/
def plain (n : Nat) (b : Byte) : List Pixel := List.replicate n { r := 0x11, g := 0x22, b := b }

/-- 24 pixels that carry the marker alone (42_commands.md R141 (1)). -/
def markerPixels : List Pixel := plain 22 0x54 ++ plain 2 0x55

/-- An EMBED of the empty message, just accepted, on 24 pixels. -/
def embedding : State := after (exec .embed (prepared 6 4 [] [0x61] (plain 24 0x55)))

/-- The same EMBED before its last step. -/
def embeddingLast : State :=
  { embedding with pix := 23, raster := { cells := cellsFrom 0 (plain 22 0x54 ++ plain 2 0x55), draw := 0 } }

/-- An EXTRACT just accepted, on 24 pixels that carry the marker. -/
def extracting : State := after (exec .extract (prepared 6 4 [] [0x61] markerPixels))

/-- An EXTRACT before its last step, on 24 pixels; `px` decides whether the marker is found. -/
def extractingLast (px : List Pixel) : State :=
  { after (exec .extract (prepared 6 4 [] [0x61] px)) with pix := 23, acc := 1, accCnt := 7, nbytes := 2 }

/-! ## Ill-formed terms are refused -/

theorem test_wf_register_width : HostOp.wellFormed tinySizes (.rd 16 0x04) = false := by decide
theorem test_wf_register_misaligned : HostOp.wellFormed tinySizes (.wr 32 0x02 0) = false := by decide
theorem test_wf_register_beyond : HostOp.wellFormed tinySizes (.rd 32 0x100) = false := by decide
theorem test_wf_register_last : HostOp.wellFormed tinySizes (.wr 32 0xFC 0) = true := by decide
theorem test_wf_raster_beyond : HostOp.wellFormed tinySizes (.mwr .raster 64 0) = false := by decide
theorem test_wf_raster_last : HostOp.wellFormed tinySizes (.mwr .raster 63 0) = true := by decide
theorem test_wf_msg_beyond : HostOp.wellFormed tinySizes (.mrd .msg 8) = false := by decide
theorem test_wf_key_beyond : HostOp.wellFormed tinySizes (.mwr .key 8 0) = false := by decide
theorem test_wf_out_beyond : HostOp.wellFormed tinySizes (.mrd .out 9) = false := by decide
theorem test_wf_out_last : HostOp.wellFormed tinySizes (.mrd .out 8) = true := by decide

/-! ## Decoding, bit by bit from 30_encoding.md R70 and R72 -/

/-- RSVD = 0, OPC = 0001. -/
theorem test_decode_canEmbed : decodeTableWord 32 0b00000000000000000000000000000001 = some .canEmbed := by decide
/-- RSVD = 0, OPC = 0010. -/
theorem test_decode_embed : decodeTableWord 32 0b00000000000000000000000000000010 = some .embed := by decide
/-- RSVD = 0, OPC = 0011. -/
theorem test_decode_extract : decodeTableWord 32 0b00000000000000000000000000000011 = some .extract := by decide
/-- Every reserved opcode with RSVD = 0 is illegal (R74). -/
theorem test_decode_reserved_opcodes :
    [0, 4, 5, 6, 7, 8, 9, 10, 11, 12, 13, 14, 15].all (fun w => decodeTableWord 32 w == none) = true := by decide
/-- One bit of RSVD set is illegal (R74). -/
theorem test_decode_reserved_bits : decodeTableWord 32 0x80000002 = none ∧ decodeTableWord 32 0x00000012 = none := by decide

/-! ## The vectors of 95_test_vectors.md -/

/-- V-B2B-3. -/
theorem test_bytesToBits : bytesToBits [0x80, 0x01] = [1, 0, 0, 0, 0, 0, 0, 0, 0, 0, 0, 0, 0, 0, 0, 1] := by decide
/-- V-BTB-1, V-BTB-3. -/
theorem test_bitsToBytes : bitsToBytes [0, 0, 0, 0, 0, 0, 1, 1] = some [0x03] ∧ bitsToBytes [0, 0, 0, 0, 0, 0, 1] = none := by
  decide
/-- V-IEM-2, V-IEM-3. -/
theorem test_isEndMarker :
    isEndMarker (bytesToBits [0xFF, 0x00, 0x00, 0x03]) 32 = some true ∧
      isEndMarker (bytesToBits [0x00, 0x00, 0x02]) 24 = some false := by decide
/-- V-MBL-3. -/
theorem test_messageBitLength : messageBitLength (2 ^ 28 - 1) = 0x80000010 := by decide
/-- V-WIN-1, V-WIN-3. -/
theorem test_pushByte :
    (pushBytes emptyWindow [0x29, 0x08, 0x00, 0x00, 0x03]).found = true ∧ (pushBytes emptyWindow [0x03]).found = false ∧
      (pushBytes emptyWindow [0x00, 0x03]).found = false := by decide
/-- V-XOR-3, V-XOR-2. -/
theorem test_xorCyclic :
    xorCyclic [0x61, 0x62, 0x63] [0x78, 0x79] = some [0x19, 0x1B, 0x1B] ∧ xorCyclic [0x29, 0x08] [0x62] = some [0x4B, 0x6A] := by
  decide
/-- V-RST-1. -/
theorem test_reset_registers :
    [0x00, 0x04, 0x08, 0x0C, 0x10, 0x14, 0x18, 0x1C, 0x20, 0x24, 0x28].map (fun off => readReg State.reset (regAt off)) =
      [0, 0, 0, 0, 0, 0, 0, 0x18, 0, 0, 0] := by decide
/-- V-REG-2. -/
theorem test_msgLen_write :
    (after (performHost (.wr 32 0x10 0xFFFFFFFF) blank)).msgLen = 0x0FFFFFFF ∧
      readReg (after (performHost (.wr 32 0x10 0xFFFFFFFF) blank)) .reqBits = 0x80000010 := by decide
/-- V-REG-5. -/
theorem test_raster_write_read :
    readElement (after (performHost (.mwr .raster 0 0xAB112255) blank)) .raster 0 = 0x00112255 := by decide
/-- V-REG-8. -/
theorem test_status_write_clears_lost :
    statusWord (after (performHost (.wr 32 0x04 0xFFFFFFFF) { blank with state := .doneOk, lost := true, fits := true })) =
      0x102 := by decide
/-- V-CAN-2: equality fits. -/
theorem test_canEmbed_fits : statusWord (after (exec .canEmbed (prepared 6 4 [] [] []))) = 0x102 := by decide
/-- V-CAN-3: one pixel short. -/
theorem test_canEmbed_does_not_fit : statusWord (after (exec .canEmbed (prepared 23 1 [] [] []))) = 0x002 := by decide
/-- V-EMB-6: BAD_LENGTH before KEY_EMPTY, with P_MAX = 64. -/
theorem test_embed_bad_length : statusWord (after (exec .embed (prepared 9 8 [0x61] [] []))) = 0x043 := by decide
/-- V-EMB-7: the worked example of R138, bit 0 of 0x29 being 0. -/
theorem test_embed_step :
    pixelAt (after (engineStep (after (exec .embed (prepared 8 8 [0x48] [0x61] (plain 1 0x55)))))) 0 =
      { r := 0x11, g := 0x22, b := 0x54 } := by decide
/-- R143: the worked example with W = 0. -/
theorem test_extract_no_pixels : statusWord (after (exec .extract (prepared 0 8 [] [0x61] []))) = 0x023 := by decide
/-- R145, C7: the marker is found on the raster's last pixel, and finding it has priority over running out of pixels. -/
theorem test_extract_found_on_last_pixel :
    statusWord (after (engineStep (extractingLast markerPixels))) = 0x002 ∧
      (after (engineStep (extractingLast markerPixels))).outLen = 0 := by decide
/-- R136: `wr CMD, 0x4` from IDLE. -/
theorem test_illegal_word : statusWord (after (performHost (.wr 32 0x00 0x4) blank)) = 0x053 := by decide

/-- 10_state.md R24 to R26: every STATE, every ERR code and the two flags, at their places in STATUS. -/
theorem test_status_numbers :
    [EngineState.idle, .busy, .doneOk, .doneErr].map (fun x => statusWord { blank with state := x }) = [0x0, 0x1, 0x2, 0x3] ∧
    [ErrCode.noError, .capacityExceeded, .noMarkerFound, .keyEmpty, .badLength, .illegalCommand].map
      (fun x => statusWord { blank with err := x }) = [0x00, 0x10, 0x20, 0x30, 0x40, 0x50] ∧
    statusWord { blank with fits := true } = 0x100 ∧ statusWord { blank with lost := true } = 0x200 := by decide

/-! ## The hypotheses of the obligations are met -/

theorem test_meets_DecodeInvertsEncode :
    Instr.wellFormed .embed = true ∧ decode 0x2 = .ok .embed ∧ (0x4 : Word) ≠ encode .embed := by decide

/-- A command's word and an illegal one; the host outside BUSY, the host's turn and the engine's turn while BUSY. -/
theorem test_meets_StepRunsTheDecodedCommand :
    decode 0x2 = .ok .embed ∧ decode 0x4 = .error .reservedOpcode ∧
    (blank.refusal = none ∧ blank.state ≠ .busy) ∧
    (embedding.refusal = none ∧ embedding.state = .busy ∧ turnsLeft { embedding with turns := [1] } ≠ 0) ∧
    turnsLeft { embedding with turns := [0] } = 0 := by decide

theorem test_meets_PlacedCommandRunsNext :
    decodeTableWord 32 0x3 = some .extract ∧ (embedding.state = .busy ∧ embedding.turns = []) := by decide

theorem test_meets_BlockAloneStepsOrStays :
    (blank.refusal = none ∧ blank.program = [] ∧ blank.state ≠ .busy) ∧
    (embedding.refusal = none ∧ embedding.program = [] ∧ embedding.state = .busy) := by decide

theorem test_meets_ResetInputResetsTheBlock :
    (let s : State := { blank with program := [.reset], refusal := some .registerWidth }
     s.program = .reset :: [] ∧ s.refusal ≠ none) ∧
    (let s : State := { blank with program := [.reset] }
     s.program = .reset :: [] ∧ s.state ≠ .busy) ∧
    (let s : State := { embedding with program := [.reset], turns := [1] }
     s.program = .reset :: [] ∧ turnsLeft s ≠ 0) := by decide

theorem test_meets_CanEmbedSetsFits : (prepared 6 4 [] [] []).state ≠ .busy := by decide

/-- One state for each arm: P_MAX + 1 pixels, M_MAX + 1 bytes, K_MAX + 1 key bytes, no key, one pixel short, just enough. -/
theorem test_meets_EmbedChecksInOrder :
    [prepared 65 1 [] [0x61] [], prepared 64 1 [1, 2, 3, 4, 5, 6, 7, 8, 9] [0x61] [],
      prepared 64 1 [] [1, 2, 3, 4, 5, 6, 7, 8, 9] [], prepared 64 1 [] [] [], prepared 23 1 [] [0x61] [],
      prepared 24 1 [] [0x61] []].map validateEmbed =
      [some .badLength, some .badLength, some .badLength, some .keyEmpty, some .capacityExceeded, none] := by decide

/-- One state for each arm, none of them BUSY. -/
theorem test_meets_ExtractChecksInOrder :
    [prepared 65 1 [] [0x61] [], prepared 64 1 [] [1, 2, 3, 4, 5, 6, 7, 8, 9] [], prepared 64 1 [] [] [],
      prepared 0 9 [] [0x61] [], prepared 1 1 [] [0x61] []].map validateExtract =
      [some .badLength, some .badLength, some .keyEmpty, some .noMarkerFound, none] ∧ blank.state ≠ .busy := by decide

theorem test_meets_IllegalWordEndsInError :
    blank.state ≠ .busy ∧ (0x4 : Word) ≠ 0x1 ∧ (0x4 : Word) ≠ 0x2 ∧ (0x4 : Word) ≠ 0x3 := by decide

theorem test_meets_AcceptanceFrame :
    (after (performHost (.wr 32 0x00 0x3) blank)).state = .doneErr ∧ blank.state ≠ .busy ∧ embedding.state ≠ .doneErr := by
  decide

/-- 60_exceptions.md R201, 42_commands.md R133: an EXTRACT with no pixel makes OUT unspecified, one with no key leaves it. -/
theorem test_extract_rejected_out :
    (after (exec .extract { prepared 0 9 [] [0x61] [] with out := { cells := [(0, 0x41)], draw := 0 } })).out.find 0 = none ∧
    (after (exec .extract { prepared 1 1 [] [] [] with out := { cells := [(0, 0x41)], draw := 0 } })).out.find 0 = some 0x41 := by
  decide

/-- Both clauses: FITS = 1 with the sizes kept, and FITS = 0 in each of its three errors; the EMBED's state is another one. -/
theorem test_meets_FitsPredictsEmbed :
    (let s := prepared 6 4 [] [] []
     let u := prepared 6 4 [] [0x61] (plain 24 0x55)
     s.state ≠ .busy ∧ u.state ≠ .busy ∧ u.width = s.width ∧ u.height = s.height ∧ u.msgLen = s.msgLen ∧
       (after (exec .canEmbed s)).fits = true ∧ u.width.toNat * u.height.toNat ≤ u.sizes.pMax ∧
       u.msgLen.toNat ≤ u.sizes.mMax ∧ 1 ≤ u.keyLen.toNat ∧ u.keyLen.toNat ≤ u.sizes.kMax) ∧
    [prepared 23 1 [] [0x61] [], prepared 23 1 [] [] [], prepared 23 1 [] [1, 2, 3, 4, 5, 6, 7, 8, 9] []].map
      (fun s => (after (exec .canEmbed s)).fits) = [false, false, false] := by decide

theorem test_meets_RegisterWritesFollowTheTable :
    decode 0x1 = .ok .canEmbed ∧ decode 0x0 = .error .reservedOpcode ∧ blank.state ≠ .busy ∧ embedding.state = .busy ∧
      (0x18 ≤ 0xFC ∧ 0xFC ≤ 0xFC ∧ 0xFC % 4 = 0) ∧ 0xFB % 4 ≠ 0 ∧ 0xFC < 0x100 := by decide

theorem test_meets_RegisterReadsReturnTheRegister :
    0xFC % 4 = 0 ∧ 0xFC ≤ 0xFC ∧ 0x24 % 4 = 0 ∧ 0x28 ≤ 0x28 ∧ 0x25 % 4 ≠ 0 ∧ 0xFC < 0x100 := by decide

/-- At the last element of each space, BUSY or not. -/
theorem test_meets_WindowReads :
    63 < tinySizes.of .raster ∧ 7 < tinySizes.of .msg ∧ 7 < tinySizes.of .key ∧ 8 < tinySizes.of .out ∧
      blank.sizes = tinySizes ∧ embedding.sizes = tinySizes ∧ blank.state ≠ .busy ∧ embedding.state = .busy := by decide

theorem test_meets_WindowWrites :
    63 < blank.sizes.of .raster ∧ 7 < blank.sizes.of .msg ∧ 7 < blank.sizes.of .key ∧ 8 < blank.sizes.of .out ∧
      blank.state ≠ .busy ∧ blank.sizes.of .raster ≤ 64 ∧ embedding.state = .busy := by decide

/-- Each clause at its boundary: an offset of 2, 0xFD and 0x100, a width of 31, the first index that does not exist. -/
theorem test_meets_RefusedTransactionsMarkTheRun :
    (0x02 % 4 ≠ 0 ∧ 0xFC < 0x100 ∧ 0xFC < 0xFD ∧ 31 ≠ 32) ∧
    (blank.sizes.of .raster ≤ 64 ∧ blank.sizes.of .msg ≤ 8 ∧ blank.sizes.of .key ≤ 8 ∧ blank.sizes.of .out ≤ 9) ∧
    embedding.state = .busy ∧
    ({ blank with refusal := some .registerOffset } : State).refusal = some .registerOffset := by decide

theorem test_meets_OnlyMarkedRunsAreRefused :
    step { blank with refusal := some .registerOffset } = .refused .registerOffset := rfl

theorem test_meets_PollReadsUntilNotBusy : embedding.state = .busy ∧ blank.state ≠ .busy := by decide

/-- A BUSY block; LOST is kept by an engine step and cleared by the STATUS write. -/
theorem test_meets_DroppedWritesLeaveTheirMark :
    (embedding.state = .busy ∧ extracting.state = .busy ∧ 0x14 ∈ [0x00, 0x08, 0x0C, 0x10, 0x14]) ∧
    (∃ t, step { embedding with lost := true } = .next t) ∧
    (∃ t, step { blank with lost := true, program := [.wr 32 0x04 0x200] } = .next t ∧ t.lost = false) :=
  ⟨by decide, ⟨_, rfl⟩, ⟨_, rfl, rfl⟩⟩

theorem test_meets_BitsToBytesSumsEachOctet :
    ([0, 1, 0, 1, 0, 1, 0, 1] : List Bit).length % 8 = 0 ∧ ([1] : List Bit).length % 8 ≠ 0 := by decide

theorem test_meets_BitCodecLaws : ([0, 0, 1, 0, 1, 0, 0, 1] : List Bit).length % 8 = 0 := by decide

/-- A window that is the marker, and one that is not. -/
theorem test_meets_EndMarkerTestReadsTheWindow :
    endMarkerBits.length = 24 ∧ endMarkerBits = List.replicate 22 0#1 ++ [1#1, 1#1] ∧
      (bytesToBits [0x00, 0x00, 0x07]).length = 24 := by decide

theorem test_meets_AccumulatorGathersAByte :
    (accumulate 0xFF 7 1).accCnt = 0 ∧ ([1, 0, 1, 1, 0, 0, 1, 0] : List Bit).length = 8 ∧
      ([1, 0, 1, 1, 0, 0, 1] : List Bit).length < 8 ∧ ([1, 0, 1, 1, 0, 0, 1] : List Bit) ≠ [] := by decide

theorem test_meets_MarkerDetectorAgrees :
    (2 : Word).toNat + 1 < 2 ^ 32 ∧ (([0x29, 0x00, 0x00] : List Byte) ++ [0x03]).length < 2 ^ 32 := by decide

/-- The first test of the schedule, on a payload that holds the marker and on one that does not. -/
theorem test_meets_EarlyMatchesLieInThePayload :
    24 ≤ 24 ∧ 24 % 8 = 0 ∧ 24 < messageBitLength ([0x00, 0x00, 0x03] : List Byte).length ∧
      MarkerAt [0x00, 0x00, 0x03] 0 ∧ ¬ MarkerAt [0x29] 0 := by decide

theorem test_meets_XorCyclicBytes :
    ([0x61] : List Byte) ≠ [] ∧ ([0x48, 0x69] : List Byte)[1]? = some 0x69 ∧ ([0x61] : List Byte)[1 % 1]? = some 0x61 := by decide

theorem test_meets_XorIsAnInvolution : xorCyclic [0x48, 0x69] [0x61] = some [0x29, 0x08] := by decide

/-- One byte garbled and one kept. -/
theorem test_meets_WrongKeyGarblesBytewise :
    xorCyclic [0x48, 0x69] [0x61, 0x61] = some [0x29, 0x08] ∧ xorCyclic [0x29, 0x08] [0x62, 0x61] = some [0x4B, 0x69] ∧
      ([0x48, 0x69] : List Byte)[0]? = some 0x48 ∧ ([0x61, 0x61] : List Byte)[0 % 2]? = some 0x61 ∧
      ([0x62, 0x61] : List Byte)[0 % 2]? = some 0x62 := by decide

theorem test_meets_SerialBitAgrees : ([0x29, 0x08] : List Byte)[15 / 8]? = some 0x08 := by decide

theorem test_meets_EmbedStreamIsTheSourcesBitstream :
    let s := prepared 8 8 [0x48, 0x69] [0x61] []
    s.msgLen.toNat ≤ s.sizes.mMax ∧ s.keyLen.toNat ≤ s.sizes.kMax ∧ s.keyLen.toNat ≠ 0 ∧ 4 < s.msgLen.toNat + 3 ∧
      39 < 8 * s.msgLen.toNat + 24 := by decide

theorem embedding_running : EmbedRunning embedding := ⟨rfl, rfl, rfl, by decide, by decide⟩
theorem embeddingLast_running : EmbedRunning embeddingLast := ⟨rfl, rfl, rfl, by decide, by decide⟩
theorem extracting_running : ExtractRunning extracting := ⟨rfl, rfl, rfl, by decide, by decide, by decide, by decide, rfl⟩
theorem extractingLast_running : ExtractRunning (extractingLast markerPixels) :=
  ⟨rfl, rfl, rfl, by decide, by decide, by decide, by decide, rfl⟩

/-- A step in the middle of an EMBED, and its last one. -/
theorem test_meets_EmbedStepWritesOnePixel :
    EmbedRunning embedding ∧ EmbedRunning embeddingLast ∧ embeddingLast.pix.toNat + 1 = 8 * embeddingLast.msgLen.toNat + 24 :=
  ⟨embedding_running, embeddingLast_running, by decide⟩

/-- At the boundaries: W*H = N, no host. -/
theorem test_meets_EmbedCompletes :
    let s := prepared 6 4 [] [0x61] []
    s.state ≠ .busy ∧ s.refusal = none ∧ s.program = [] ∧ s.width.toNat * s.height.toNat ≤ s.sizes.pMax ∧
      s.msgLen.toNat ≤ s.sizes.mMax ∧ s.keyLen.toNat ≤ s.sizes.kMax ∧ s.keyLen.toNat ≠ 0 ∧
      8 * s.msgLen.toNat + 24 ≤ s.width.toNat * s.height.toNat := by decide

/-- The run from `s` leaves BUSY at its step `n`, and not before. -/
def endsAt : Nat → State → Bool
  | 0, s => s.state != .busy
  | n + 1, s =>
    match step s with
    | .next t => s.state == .busy && endsAt n t
    | .fault _ => false
    | .refused _ => false

theorem commandEnds_of_endsAt (n : Nat) (s : State) (h : endsAt n s = true) : CommandEnds n s (after (runFor n s)) := by
  induction n generalizing s with
  | zero => exact ⟨rfl, by simpa [endsAt, after] using h, fun m hm => absurd hm (Nat.not_lt_zero m)⟩
  | succ n ih =>
    simp only [endsAt] at h
    cases hs : step s with
    | fault f => rw [hs] at h; cases h
    | refused r => rw [hs] at h; cases h
    | next t =>
      rw [hs] at h
      simp only [Bool.and_eq_true, beq_iff_eq] at h
      obtain ⟨h1, h2, h3⟩ := ih t h.2
      rw [runFor_succ_next hs]
      refine ⟨by rw [runFor_succ_next hs]; exact h1, h2, fun m hm => ?_⟩
      cases m with
      | zero => exact ⟨s, rfl, h.1⟩
      | succ m => rw [runFor_succ_next hs]; exact h3 m (Nat.lt_of_succ_lt_succ hm)

/-- The EMBED run to its end: 24 engine steps, the fewest an EMBED takes (R137). -/
def embedded : State := after (runFor 24 embedding)

theorem embedded_ends : CommandEnds 24 embedding embedded := commandEnds_of_endsAt 24 embedding (by decide)

/-- The same with the host reading STATUS once before the engine's first step. -/
theorem test_meets_EmbedResult :
    (let s := prepared 6 4 [] [0x61] (plain 24 0x55)
     s.state ≠ .busy ∧ exec .embed s = .next embedding ∧ embedding.state = .busy) ∧
    (CommandEnds 24 embedding embedded ∧ embedded.state ≠ .idle) ∧
    (let a : State := { embedding with program := [.rd 32 0x04], turns := [1] }
     CommandEnds 25 a (after (runFor 25 a)) ∧ (after (runFor 25 a)).state ≠ .idle ∧
       ∀ width off v, HostOp.wr width off v ∉ a.program) :=
  ⟨⟨by decide, rfl, rfl⟩, ⟨embedded_ends, by decide⟩, commandEnds_of_endsAt 25 _ (by decide), by decide,
    fun _ _ _ h => by simp at h⟩

theorem embedding_progress : EmbedProgress (pixelAt embedding) [0x00, 0x00, 0x03] embedding :=
  ⟨by decide, fun k bit h => absurd h (by show ¬ k < 0; omega), fun _ _ => rfl⟩

theorem embeddingLast_progress : EmbedProgress (pixelAt embeddingLast) [0x00, 0x00, 0x03] embeddingLast := by
  refine ⟨by decide, ?_, fun _ _ => rfl⟩
  have h : ∀ k < 23, ∀ bit : Bit, (bytesToBits [0x00, 0x00, 0x03])[k]? = some bit →
      pixelAt embeddingLast k = withBlueBit (pixelAt embeddingLast k) bit := by decide
  exact fun k bit hk => h k hk bit

/-- The three outcomes: it goes on, it completes, a reset abandons it. -/
theorem test_meets_EmbedProgressesUnderEveryInterleaving :
    (EmbedRunning embedding ∧ EmbedProgress (pixelAt embedding) [0x00, 0x00, 0x03] embedding ∧
      ∃ t, step embedding = .next t) ∧
    (EmbedRunning embeddingLast ∧ EmbedProgress (pixelAt embeddingLast) [0x00, 0x00, 0x03] embeddingLast ∧
      ∃ t, step embeddingLast = .next t ∧ t.state = .doneOk) ∧
    (∃ t, step { embedding with program := [.reset], turns := [1] } = .next t ∧ t.state = .idle) :=
  ⟨⟨embedding_running, embedding_progress, _, rfl⟩, ⟨embeddingLast_running, embeddingLast_progress, _, rfl, rfl⟩, ⟨_, rfl, rfl⟩⟩

theorem test_meets_EmbedTwiceIsEmbedOnce :
    let s := prepared 6 4 [] [0x61] (plain 24 0x55)
    (s.state ≠ .busy ∧ exec .embed s = .next embedding ∧ embedding.state = .busy) ∧
    (CommandEnds 24 embedding embedded ∧ embedded.state ≠ .idle) ∧
    (let a := after (exec .embed embedded)
     CommandEnds 24 a (after (runFor 24 a)) ∧ (after (runFor 24 a)).state ≠ .idle) :=
  ⟨⟨by decide, rfl, rfl⟩, ⟨embedded_ends, by decide⟩, commandEnds_of_endsAt 24 _ (by decide), by decide⟩

/-- A step inside a byte that goes on, and one that is the raster's last. -/
theorem test_meets_ExtractStepInsideAByte :
    ExtractRunning extracting ∧ extracting.accCnt ≠ 7 ∧
    (let s := after (exec .extract (prepared 1 1 [] [0x61] (plain 1 0x54)))
     ExtractRunning s ∧ s.accCnt ≠ 7 ∧ s.pix.toNat + 1 = s.width.toNat * s.height.toNat) :=
  ⟨extracting_running, by decide, ⟨rfl, rfl, rfl, by decide, by decide, by decide, by decide, rfl⟩, by decide, by decide⟩

/-- A step that completes a byte: the marker found, the raster over without it, and neither (with a payload byte leaving). -/
theorem test_meets_ExtractStepAtAByteBoundary :
    (ExtractRunning (extractingLast markerPixels) ∧ (extractingLast markerPixels).accCnt = 7) ∧
    (let s := extractingLast (plain 24 0x54)
     ExtractRunning s ∧ s.accCnt = 7 ∧ (after (engineStep s)).err = .noMarkerFound) ∧
    (let s : State :=
      { after (exec .extract (prepared 8 8 [] [0x61] (plain 64 0x54))) with pix := 31, acc := 0, accCnt := 7, nbytes := 3 }
     ExtractRunning s ∧ s.accCnt = 7 ∧ 3 ≤ s.nbytes.toNat ∧ (after (engineStep s)).state = .busy) :=
  ⟨⟨extractingLast_running, rfl⟩,
    ⟨⟨rfl, rfl, rfl, by decide, by decide, by decide, by decide, rfl⟩, rfl, by decide⟩,
    ⟨⟨rfl, rfl, rfl, by decide, by decide, by decide, by decide, rfl⟩, rfl, by decide, by decide⟩⟩

theorem test_meets_AcceptedExtractStartsTheScan :
    let s := prepared 6 4 [] [0x61] markerPixels
    s.state ≠ .busy ∧ exec .extract s = .next extracting ∧ extracting.state = .busy := ⟨by decide, rfl, rfl⟩

/-- An EXTRACT after nine pixels: one whole byte and one bit more. -/
def scanning : State :=
  { after (exec .extract (prepared 8 8 [] [0x61] (plain 64 0x55))) with pix := 9, acc := 0xFF, accCnt := 1, win := 0xFF, nbytes := 1 }

theorem scanning_running : ExtractRunning scanning :=
  ⟨rfl, rfl, rfl, by decide, by decide, by decide, by decide, rfl⟩

theorem scanning_inv : ScanInv scanning [0xFF] := by
  refine ⟨by decide, by decide, ?_, rfl, by decide, by decide, by decide, by decide, ?_, ?_⟩
  · have h : ∀ i < 1, bitOf scanning.acc i = blueBit scanning (scanning.pix.toNat - 1 - i) := by decide
    exact h
  · intro j v hj
    exact absurd hj (by simp)
  · intro n h1 h2
    exact absurd h2 (by show ¬ n ≤ 9; omega)

theorem test_meets_EveryStepKeepsTheScan :
    ExtractRunning scanning ∧ ScanInv scanning [0xFF] ∧ ∃ t, step scanning = .next t ∧ t.state = .busy :=
  ⟨scanning_running, scanning_inv, _, rfl, rfl⟩

/-- At the boundary: one pixel. -/
theorem test_meets_ExtractCompletes :
    let s := prepared 1 1 [] [1, 2, 3, 4, 5, 6, 7, 8] []
    s.state ≠ .busy ∧ s.refusal = none ∧ s.program = [] ∧ s.width.toNat * s.height.toNat ≤ s.sizes.pMax ∧
      s.keyLen.toNat ≤ s.sizes.kMax ∧ s.keyLen.toNat ≠ 0 ∧ s.width.toNat * s.height.toNat ≠ 0 := by decide

/-- Both clauses at W*H = 24, each with its run: the marker at n = 24, and no marker at all. -/
theorem test_meets_ExtractResult :
    (let s := prepared 6 4 [] [0x61] markerPixels
     s.state ≠ .busy ∧ exec .extract s = .next extracting ∧ extracting.state = .busy ∧
       CommandEnds 24 extracting (after (runFor 24 extracting)) ∧ (after (runFor 24 extracting)).state ≠ .idle ∧
       24 ≤ s.width.toNat * s.height.toNat ∧ isEndMarker (bitBuffer s 24) 24 = some true) ∧
    (let s := prepared 6 4 [] [0x61] (plain 24 0x54)
     let a := after (exec .extract s)
     (s.state ≠ .busy ∧ exec .extract s = .next a ∧ a.state = .busy ∧
       CommandEnds 24 a (after (runFor 24 a)) ∧ (after (runFor 24 a)).state ≠ .idle) ∧
     ∀ n, 24 ≤ n → n ≤ s.width.toNat * s.height.toNat → n % 8 = 0 → isEndMarker (bitBuffer s n) n = some false) := by
  refine ⟨⟨by decide, rfl, rfl, commandEnds_of_endsAt 24 _ (by decide), by decide, by decide, by decide⟩,
    ⟨by decide, rfl, rfl, commandEnds_of_endsAt 24 _ (by decide), by decide⟩, ?_⟩
  intro n h1 h2 _
  obtain rfl : n = 24 := Nat.le_antisymm h2 h1
  decide

/-- The EMBED of `embedded` and the EXTRACT of what it left, its payload empty. -/
theorem test_meets_RoundTrip :
    let s := prepared 6 4 [] [0x61] (plain 24 0x55)
    let b := after (exec .extract embedded)
    (s.state ≠ .busy ∧ exec .embed s = .next embedding ∧ embedding.state = .busy ∧ CommandEnds 24 embedding embedded ∧
      embedded.state ≠ .idle ∧ xorCyclic (message s) (keyBytes s) = some []) ∧
    (embedded.state ≠ .busy ∧ embedded.keyLen = s.keyLen ∧ keyBytes embedded = keyBytes s ∧
      embedded.keyLen.toNat ≤ embedded.sizes.kMax ∧ capacity embedded ≤ embedded.sizes.pMax ∧ reqBits s ≤ capacity embedded) ∧
    (exec .extract embedded = .next b ∧ CommandEnds 24 b (after (runFor 24 b)) ∧ (after (runFor 24 b)).state ≠ .idle) :=
  ⟨⟨by decide, rfl, rfl, embedded_ends, by decide, by decide⟩,
    ⟨by decide, rfl, by decide, by decide, by decide, by decide⟩, rfl, commandEnds_of_endsAt 24 _ (by decide), by decide⟩

/-- The message 0x61, 0x61, 0x62 under the key 0x61 is 0x00, 0x00, 0x03, with the marker at i = 0. -/
theorem test_meets_MarkerInPayloadTruncates :
    let s := prepared 8 6 [0x61, 0x61, 0x62] [0x61] (plain 48 0x54)
    let a := after (exec .embed s)
    let e := after (runFor 48 a)
    let b := after (exec .extract e)
    (s.state ≠ .busy ∧ exec .embed s = .next a ∧ a.state = .busy ∧ CommandEnds 48 a e ∧ e.state ≠ .idle ∧
      xorCyclic (message s) (keyBytes s) = some [0x00, 0x00, 0x03] ∧ MarkerAt [0x00, 0x00, 0x03] 0) ∧
    (e.state ≠ .busy ∧ e.keyLen = s.keyLen ∧ keyBytes e = keyBytes s ∧ e.keyLen.toNat ≤ e.sizes.kMax ∧
      capacity e ≤ e.sizes.pMax ∧ reqBits s ≤ capacity e) ∧
    (exec .extract e = .next b ∧ CommandEnds 24 b (after (runFor 24 b)) ∧ (after (runFor 24 b)).state ≠ .idle) :=
  ⟨⟨by decide, rfl, rfl, commandEnds_of_endsAt 48 _ (by decide), by decide, by decide, by decide⟩,
    ⟨by decide, rfl, by decide, by decide, by decide, by decide⟩, rfl, commandEnds_of_endsAt 24 _ (by decide), by decide⟩

/-- Two rasters of one pixel that agree in the blue bit 0 alone. -/
theorem test_meets_ExtractDependsOnBlueBitsOnly :
    let s := prepared 1 1 [] [0x61] (plain 1 0x54)
    let s' := prepared 1 1 [0x48] [0x61] (plain 1 0x10)
    let a := after (exec .extract s)
    let a' := after (exec .extract s')
    (s.state ≠ .busy ∧ exec .extract s = .next a ∧ CommandEnds 1 a (after (runFor 1 a)) ∧ (after (runFor 1 a)).state ≠ .idle) ∧
    (s'.state ≠ .busy ∧ exec .extract s' = .next a' ∧ CommandEnds 1 a' (after (runFor 1 a')) ∧
      (after (runFor 1 a')).state ≠ .idle) ∧
    (s'.sizes = s.sizes ∧ capacity s' = capacity s ∧ s'.keyLen = s.keyLen ∧ keyBytes s' = keyBytes s ∧
      (after (runFor 1 a)).pix.toNat = 1 ∧ blueBit s' 0 = blueBit s 0) :=
  ⟨⟨by decide, rfl, commandEnds_of_endsAt 1 _ (by decide), by decide⟩,
    ⟨by decide, rfl, commandEnds_of_endsAt 1 _ (by decide), by decide⟩, rfl, rfl, rfl, by decide, by decide, by decide⟩

/-- The clauses on each field: FITS by CAN_EMBED, STATE and ERR by the scan's end, LOST by a dropped write. -/
theorem test_meets_StatusIsWrittenOnlyAsListed :
    (∃ t, step { prepared 6 4 [] [] [] with program := [.wr 32 0x00 0x1] } = .next t ∧ t.fits = true) ∧
    (EngineMoves (extractingLast (plain 24 0x54)) ∧
      ∃ t, step (extractingLast (plain 24 0x54)) = .next t ∧ t.err = .noMarkerFound ∧ t.state = .doneErr ∧ t.pix.toNat = 24) ∧
    (∃ t, step { embedding with program := [.wr 32 0x08 5], turns := [1] } = .next t ∧ t.lost = true) :=
  ⟨⟨_, rfl, rfl⟩, ⟨by decide, _, rfl, rfl, rfl, rfl⟩, ⟨_, rfl, rfl⟩⟩

/-- RASTER by an EMBED step, MSG, KEY and OUT by the host. -/
theorem test_meets_MemoriesAreWrittenOnlyAsListed :
    (∃ t, step embedding = .next t ∧ pixelAt t 0 ≠ pixelAt embedding 0) ∧
    (∃ t, step { prepared 1 1 [0x48] [] [] with program := [.mwr .msg 0 0x41] } = .next t ∧ msgAt t 0 = 0x41) ∧
    (∃ t, step { prepared 1 1 [] [0x48] [] with program := [.mwr .key 0 0x41] } = .next t ∧ keyAt t 0 = 0x41) ∧
    (∃ t, step { blank with program := [.mwr .out 8 0x41] } = .next t ∧ outAt t 8 = 0x41) :=
  ⟨⟨_, rfl, by decide⟩, ⟨_, rfl, by decide⟩, ⟨_, rfl, by decide⟩, ⟨_, rfl, by decide⟩⟩

theorem embedding_inv : Inv embedding where
  memories := ⟨by decide, by decide, by decide, by decide, by decide, by decide, by decide, by decide⟩
  op_eq := by decide
  err_iff := by decide
  record := trivial
  idle := fun h => nomatch h
  doneOk := fun h => nomatch h
  outLen_le := by decide
  busy := fun _ => .inl embedding_running

theorem extracting_inv : Inv extracting where
  memories := ⟨by decide, by decide, by decide, by decide, by decide, by decide, by decide, by decide⟩
  op_eq := by decide
  err_iff := by decide
  record := trivial
  idle := fun h => nomatch h
  doneOk := fun h => nomatch h
  outLen_le := by decide
  busy := fun _ => .inr extracting_running

/-- An engine step, and the acceptance of a command. -/
theorem test_meets_PixCountsEngineSteps :
    Inv embedding ∧ (∃ t, step embedding = .next t ∧ t.pix.toNat = embedding.pix.toNat + 1) ∧
    (∃ t, step { embeddingLast with state := .doneOk, program := [.wr 32 0x00 0x1] } = .next t ∧ t.pix = 0) :=
  ⟨embedding_inv, ⟨_, rfl, by decide⟩, ⟨_, rfl, rfl⟩⟩

theorem test_meets_EveryStepKeepsTheInvariant :
    (Inv embedding ∧ ∃ t, step embedding = .next t) ∧ (Inv extracting ∧ ∃ t, step extracting = .next t) :=
  ⟨⟨embedding_inv, _, rfl⟩, ⟨extracting_inv, _, rfl⟩⟩

theorem test_meets_NoStepFaults : Inv embedding ∧ Inv extracting := ⟨embedding_inv, extracting_inv⟩

/-- Both commands that enter BUSY. -/
theorem test_meets_EveryCommandEnds :
    (Inv embedding ∧ embedding.refusal = none ∧ embedding.program = [] ∧ embedding.state = .busy ∧ embedding.op = 0x2) ∧
    (Inv extracting ∧ extracting.refusal = none ∧ extracting.program = [] ∧ extracting.state = .busy) :=
  ⟨⟨embedding_inv, rfl, rfl, rfl, rfl⟩, ⟨extracting_inv, rfl, rfl, rfl⟩⟩

/-- Two states that hold the same bytes in OUT, reached by different draws: the memories differ as data, the contents do not. -/
theorem test_meets_ObservationIsRegistersAndContents :
    let bytes : List (Nat × Byte) := cellsFrom 0 [1, 2, 3, 4, 5, 6, 7, 8, 9]
    let s : State := { blank with out := { cells := bytes, draw := 0 } }
    let t : State := { blank with out := { cells := bytes, draw := 1 } }
    t.sizes = s.sizes ∧ t.out ≠ s.out ∧ (∀ i, i < s.sizes.oMax → outAt t i = outAt s i) := by decide

/-- 43_host_bus.md R179, R181: with a reset alone still to come the run has ended; with a poll still to come, or BUSY, it has not. -/
theorem test_run_ended :
    RunEnded { blank with program := [.reset] } ∧ ¬ RunEnded { blank with program := [.reset, .poll] } ∧ ¬ RunEnded embedding := by
  decide

theorem test_meets_EveryRunEnds : Inv embedding ∧ embedding.state = .busy := ⟨embedding_inv, rfl⟩

end Sys2Proof.Tests
end

/-! PROOFS. The family 10_state.md: the reset values, who writes the STATUS fields and PIX, and the invariant of the
machine. `step_events` names the events of a step; each claim follows from what each event does. -/

namespace Sys2Proof.Machine

/-! ## The operands and the checks at acceptance -/

/-- W*H fits a 32-bit counter (00_scope.md R9). -/
theorem capacity_lt (s : State) : capacity s < 2 ^ 32 := by
  have hw : s.width.toNat ≤ 65535 := by omega
  have hh : s.height.toNat ≤ 65535 := by omega
  calc capacity s ≤ 65535 * 65535 := Nat.mul_le_mul hw hh
    _ < 2 ^ 32 := by norm_num

/-- EMBED's checks all pass (42_commands.md R131). -/
theorem validateEmbed_eq_none {s : State} :
    validateEmbed s = none ↔ capacity s ≤ s.sizes.pMax ∧ s.msgLen.toNat ≤ s.sizes.mMax ∧
      s.keyLen.toNat ≤ s.sizes.kMax ∧ s.keyLen.toNat ≠ 0 ∧ reqBits s ≤ capacity s := by
  unfold validateEmbed
  split_ifs <;> simp only [true_iff, false_iff] <;> omega

/-- EXTRACT's checks all pass (42_commands.md R132). -/
theorem validateExtract_eq_none {s : State} :
    validateExtract s = none ↔ capacity s ≤ s.sizes.pMax ∧ s.keyLen.toNat ≤ s.sizes.kMax ∧
      s.keyLen.toNat ≠ 0 ∧ capacity s ≠ 0 := by
  unfold validateExtract
  split_ifs <;> simp only [true_iff, false_iff] <;> omega

/-- The errors of a rejected EMBED (42_commands.md R131). -/
theorem validateEmbed_eq_some {s : State} {e : ErrCode} (h : validateEmbed s = some e) :
    e = .badLength ∨ e = .keyEmpty ∨ e = .capacityExceeded := by
  unfold validateEmbed at h
  split_ifs at h <;> cases h <;> simp

/-- The errors of a rejected EXTRACT (42_commands.md R132). -/
theorem validateExtract_eq_some {s : State} {e : ErrCode} (h : validateExtract s = some e) :
    e = .badLength ∨ e = .keyEmpty ∨ e = .noMarkerFound := by
  unfold validateExtract at h
  split_ifs at h <;> cases h <;> simp

/-- A word is its two fields (30_encoding.md R70). -/
theorem rsvdField_append_opcField (w : Word) : rsvdField w ++ opcField w = w := by
  unfold rsvdField opcField
  exact (BitVec.extractLsb'_append_extractLsb'_eq_extractLsb' rfl).trans BitVec.extractLsb'_eq_self

/-- The decoder answers a command on its own word only (30_encoding.md R72). -/
theorem eq_encode_of_decode {w : Word} {i : Instr} (h : decode w = .ok i) : w = encode i := by
  unfold decode at h
  split_ifs at h with hr h1 h2 h3
  all_goals
    cases h
    rw [← rsvdField_append_opcField w, not_not.1 hr]
  · rw [h1]; rfl
  · rw [h2]; rfl
  · rw [h3]; rfl

/-- OUT has room for every message a scan of at most P_MAX pixels can find (00_scope.md R8). -/
theorem bytes_sub_three_le_oMax (z : Sizes) {n : Nat} (h : n ≤ z.pMax) : n / 8 - 3 ≤ z.oMax := by
  have : n / 8 ≤ z.pMax / 8 := Nat.div_le_div_right h
  unfold Sizes.oMax
  omega

/-! ## The accumulator and the window's byte count -/

/-- ACC_CNT counts modulo 8 (40_bitcodec.md R110). -/
theorem accumulate_accCnt (acc : Byte) (cnt : BitVec 3) (bit : Bit) : (accumulate acc cnt bit).accCnt = cnt + 1#3 := by
  unfold accumulate
  by_cases h : cnt = 7#3 <;> simp [h]

/-- A byte is completed by the bit taken at ACC_CNT = 7 (40_bitcodec.md R110). -/
theorem accumulate_completed_eq_none (acc : Byte) (cnt : BitVec 3) (bit : Bit) :
    (accumulate acc cnt bit).completed = none ↔ cnt ≠ 7#3 := by
  unfold accumulate
  by_cases h : cnt = 7#3 <;> simp [h]

/-- The window finds no marker before three bytes are in it (40_bitcodec.md R111). -/
theorem three_le_of_pushByte_found {win : BitVec 24} {n : Word} {c : Byte} (h : (pushByte win n c).found = true) :
    3 ≤ (n + 1#32).toNat := by
  simp only [pushByte, decide_eq_true_eq] at h
  exact h.1

/-! ## The memories -/

/-- One memory is in canonical form and lists only elements below `n`. -/
def MemoryOk {α : Type} (m : Memory α) (n : Nat) : Prop := m.wf ∧ listedBelow m n

theorem memoriesOk_iff {s : State} : MemoriesOk s ↔ MemoryOk s.raster s.sizes.pMax ∧ MemoryOk s.msg s.sizes.mMax ∧
    MemoryOk s.key s.sizes.kMax ∧ MemoryOk s.out s.sizes.oMax := by
  constructor
  · rintro ⟨hr, hm, hk, ho, hri, hmi, hki, hoi⟩
    exact ⟨⟨hr, hri⟩, ⟨hm, hmi⟩, ⟨hk, hki⟩, ⟨ho, hoi⟩⟩
  · rintro ⟨⟨hr, hri⟩, ⟨hm, hmi⟩, ⟨hk, hki⟩, ⟨ho, hoi⟩⟩
    exact ⟨hr, hm, hk, ho, hri, hmi, hki, hoi⟩

theorem memoryOk_empty {α : Type} (draw n : Nat) : MemoryOk (α := α) { cells := [], draw := draw } n :=
  ⟨List.Pairwise.nil, List.forall_mem_nil _⟩

theorem memoryOk_forget {α : Type} (m : Memory α) (n : Nat) : MemoryOk m.forget n := memoryOk_empty _ n

theorem MemoryOk.store {α : Type} {m : Memory α} {n i : Nat} (h : MemoryOk m n) (v : α) (hi : i < n) :
    MemoryOk (m.store i v) n := ⟨wf_store m i v h.1, listedBelow_store m v h.2 hi⟩

theorem MemoryOk.keepBelow {α : Type} {m : Memory α} {n : Nat} (h : MemoryOk m n) (k : Nat) :
    MemoryOk (m.keepBelow k) n := ⟨wf_keepBelow m k h.1, listedBelow_keepBelow m k n h.2⟩

/-- The canonical form speaks of the memories and their sizes only. -/
theorem MemoriesOk.congr {s t : State} (h : MemoriesOk s) (hr : t.raster = s.raster) (hm : t.msg = s.msg)
    (hk : t.key = s.key) (ho : t.out = s.out) (hz : t.sizes = s.sizes) : MemoriesOk t := by
  rw [memoriesOk_iff, hr, hm, hk, ho, hz]
  exact memoriesOk_iff.1 h

/-- A window write within the size keeps the memories in canonical form. -/
theorem MemoriesOk.writeElement {s : State} (h : MemoriesOk s) {sp : Space} {i : Nat} (v : Word)
    (hi : i < s.sizes.of sp) : MemoriesOk (writeElement sp i v s) := by
  obtain ⟨hr, hm, hk, ho⟩ := memoriesOk_iff.1 h
  cases sp with
  | raster => exact memoriesOk_iff.2 ⟨hr.store _ hi, hm, hk, ho⟩
  | msg => exact memoriesOk_iff.2 ⟨hr, hm.store _ hi, hk, ho⟩
  | key => exact memoriesOk_iff.2 ⟨hr, hm, hk.store _ hi, ho⟩
  | out => exact memoriesOk_iff.2 ⟨hr, hm, hk, ho.store _ hi⟩

/-- A new draw of OUT keeps the memories in canonical form. -/
theorem MemoriesOk.scanMissed {s : State} (h : MemoriesOk s) : MemoriesOk (scanMissed s) := by
  obtain ⟨hr, hm, hk, -⟩ := memoriesOk_iff.1 h
  exact memoriesOk_iff.2 ⟨hr, hm, hk, memoryOk_forget _ _⟩

theorem MemoriesOk.acceptWord {s : State} (h : MemoriesOk s) (w : Word) : MemoriesOk (acceptWord w s) :=
  h.congr rfl rfl rfl rfl rfl

theorem memoriesOk_resetBlock (s : State) : MemoriesOk (resetBlock s) :=
  memoriesOk_iff.2 ⟨memoryOk_forget _ _, memoryOk_forget _ _, memoryOk_forget _ _, memoryOk_forget _ _⟩

/-- An engine step writes within the sizes (20_memory.md R57, R59). -/
theorem engineStep_memoriesOk {s t : State} (h : engineStep s = .next t) (hs : MemoriesOk s) : MemoriesOk t := by
  obtain ⟨frame, -⟩ := engineStep_frame h
  obtain ⟨hr, hm, hk, ho⟩ := memoriesOk_iff.1 hs
  rw [memoriesOk_iff, frame.msg, frame.key, frame.sizes]
  rcases engineStep_memories h with ⟨-, -, hp, eo, b, er⟩ | ⟨-, er, eo⟩
  · rw [er, eo]
    exact ⟨hr.store _ hp, hm, hk, ho⟩
  · refine ⟨er ▸ hr, hm, hk, ?_⟩
    rcases eo with eo | eo | ⟨n, eo⟩ | ⟨j, v, hj, eo | eo | ⟨n, eo⟩⟩ <;> rw [eo]
    · exact ho
    · exact memoryOk_forget _ _
    · exact ho.keepBelow n
    · exact ho.store v hj
    · exact memoryOk_forget _ _
    · exact (ho.store v hj).keepBelow n

/-! ## Reset -/

/-- Settles O7, register by register: each reset value is the field's value in `State.reset`. -/
theorem resetLeavesTheSpecValues : Obligations.ResetLeavesTheSpecValues := by
  refine ⟨?_, rfl, rfl, rfl, rfl, rfl, rfl, rfl, rfl, rfl, ?_, fun _ => rfl, fun _ => rfl, fun _ => rfl, fun _ => rfl⟩
  · intro r
    cases r <;> rfl
  · exact ⟨by decide, rfl, rfl⟩

/-- Registers at their reset values meet the invariant with any memories in canonical form (10_state.md R40). -/
theorem inv_of_reset_registers {s : State} (hm : MemoriesOk s)
    (h : s = { State.reset with
      raster := s.raster, msg := s.msg, key := s.key, out := s.out, sizes := s.sizes, program := s.program,
      turns := s.turns, draws := s.draws, answers := s.answers }) : Inv s := by
  rw [h] at hm ⊢
  exact {
    memories := hm
    op_eq := rfl
    err_iff := ⟨fun he => absurd rfl he, fun hst => nomatch hst⟩
    record := trivial
    idle := fun _ => ⟨rfl, rfl, rfl, rfl, rfl, rfl, rfl, rfl, rfl⟩
    doneOk := fun hst => nomatch hst
    outLen_le := Nat.zero_le _
    busy := fun hst => nomatch hst }

theorem memoriesOk_reset : MemoriesOk State.reset :=
  memoriesOk_iff.2 ⟨memoryOk_empty 0 _, memoryOk_empty 0 _, memoryOk_empty 0 _, memoryOk_empty 0 _⟩

/-- A reset meets the invariant from any state (70_reset_and_hazards.md R220). -/
theorem resetBlock_inv (s : State) : Inv (resetBlock s) := inv_of_reset_registers (memoriesOk_resetBlock s) rfl

/-- Settles O55: the registers have their reset values and the memories list nothing. -/
theorem resetMeetsTheInvariant : Obligations.ResetMeetsTheInvariant := inv_of_reset_registers memoriesOk_reset rfl

/-! ## What stays as it was -/

/-- What only a command's acceptance, the engine or a reset writes is as before. -/
structure CommandFrame (s t : State) : Prop where
  cmd : t.cmd = s.cmd
  state : t.state = s.state
  err : t.err = s.err
  fits : t.fits = s.fits
  outLen : t.outLen = s.outLen
  pix : t.pix = s.pix
  op : t.op = s.op
  acc : t.acc = s.acc
  accCnt : t.accCnt = s.accCnt
  win : t.win = s.win
  nbytes : t.nbytes = s.nbytes
  sizes : t.sizes = s.sizes

/-- The operand registers are as before. -/
structure SameOperands (s t : State) : Prop where
  width : t.width = s.width
  height : t.height = s.height
  msgLen : t.msgLen = s.msgLen
  keyLen : t.keyLen = s.keyLen

theorem EngineFrame.sameOperands {s t : State} (f : EngineFrame s t) : SameOperands s t :=
  ⟨f.width, f.height, f.msgLen, f.keyLen⟩

theorem SameOperands.capacity {s t : State} (h : SameOperands s t) : capacity t = capacity s := by
  unfold Machine.capacity; rw [h.width, h.height]

theorem SameOperands.reqBits {s t : State} (h : SameOperands s t) : reqBits t = reqBits s := by
  unfold Machine.reqBits; rw [h.msgLen]

theorem SameOperands.validateEmbed {s t : State} (h : SameOperands s t) (hz : t.sizes = s.sizes) :
    validateEmbed t = validateEmbed s := by
  unfold Machine.validateEmbed; rw [h.capacity, h.reqBits, h.msgLen, h.keyLen, hz]

theorem SameOperands.validateExtract {s t : State} (h : SameOperands s t) (hz : t.sizes = s.sizes) :
    validateExtract t = validateExtract s := by
  unfold Machine.validateExtract; rw [h.capacity, h.keyLen, hz]

/-! ## What the host does -/

/-- LOST changes only by a dropped register write or by a STATUS write with bit 9 (10_state.md R24, R37). -/
def LostRule (op : HostOp) (s t : State) : Prop :=
  t.lost = s.lost ∨
  (t.lost = true ∧ s.state = .busy ∧ ∃ off v, off ∈ [0x00, 0x08, 0x0C, 0x10, 0x14] ∧ op = .wr 32 off v) ∨
  (t.lost = false ∧ ∃ v : Word, op = .wr 32 0x04 v ∧ v.getLsbD 9 = true)

/-- What a host item does that is neither an accepted word nor a reset (43_host_bus.md R171 to R177). -/
structure HostFrame (op : HostOp) (s t : State) : Prop where
  frame : CommandFrame s t
  operands : s.state = .busy → SameOperands s t
  lost : LostRule op s t
  memories : MemoriesOk s → MemoriesOk t

theorem hostFrame_dropWrite {s : State} {off : Nat} (v : Word) (hb : s.state = .busy)
    (hoff : off ∈ [0x00, 0x08, 0x0C, 0x10, 0x14]) : HostFrame (.wr 32 off v) s (dropWrite s) where
  frame := by constructor <;> rfl
  operands := fun _ => by constructor <;> rfl
  lost := .inr (.inl ⟨rfl, hb, off, v, hoff, rfl⟩)
  memories := fun h => h.congr rfl rfl rfl rfl rfl

/-- The four operand writes outside BUSY (43_host_bus.md R172). -/
theorem hostFrame_load {op : HostOp} {s t : State} {v : Word} (hb : s.state ≠ .busy)
    (h : t = loadWidth v s ∨ t = loadHeight v s ∨ t = loadMsgLen v s ∨ t = loadKeyLen v s) : HostFrame op s t where
  frame := by rcases h with rfl | rfl | rfl | rfl <;> constructor <;> rfl
  operands := fun h => absurd h hb
  lost := .inl (by rcases h with rfl | rfl | rfl | rfl <;> rfl)
  memories := fun hm => by rcases h with rfl | rfl | rfl | rfl <;> exact hm.congr rfl rfl rfl rfl rfl

theorem lostRule_writeStatus (v : Word) (s : State) : LostRule (.wr 32 0x04 v) s (writeStatus v s) := by
  cases hv : v.getLsbD 9
  · exact .inl (by simp only [writeStatus_lost, hv, Bool.not_false, Bool.and_true])
  · exact .inr (.inr ⟨by simp [hv], v, rfl, hv⟩)

theorem hostFrame_writeStatus (v : Word) (s : State) : HostFrame (.wr 32 0x04 v) s (writeStatus v s) where
  frame := by constructor <;> rfl
  operands := fun _ => by constructor <;> rfl
  lost := lostRule_writeStatus v s
  memories := fun h => h.congr rfl rfl rfl rfl rfl

theorem hostFrame_writeElement {op : HostOp} {s : State} {sp : Space} {i : Nat} (v : Word) (hb : s.state ≠ .busy)
    (hi : i < s.sizes.of sp) : HostFrame op s (writeElement sp i v s) where
  frame := by cases sp <;> constructor <;> rfl
  operands := fun h => absurd h hb
  lost := .inl (by cases sp <;> rfl)
  memories := fun h => h.writeElement v hi

theorem hostFrame_record {op : HostOp} {s t : State}
    (h : t = { s with answers := t.answers, refusal := t.refusal, draws := t.draws, program := t.program }) :
    HostFrame op s t where
  frame := by rw [h]; constructor <;> rfl
  operands := fun _ => by rw [h]; constructor <;> rfl
  lost := .inl (by rw [h])
  memories := fun hm => by rw [h]; exact hm.congr rfl rfl rfl rfl rfl

/-- Every host item is an accepted word, a reset, or keeps what only those and the engine write. -/
theorem performHost_split {op : HostOp} {s t : State} (h : performHost op s = .next t) :
    (∃ w, op = .wr 32 0x00 w ∧ s.state ≠ .busy ∧ writeCmd w s = .next t) ∨
    (op = .reset ∧ t = resetBlock s) ∨ HostFrame op s t := by
  rcases performHost_cases h with ⟨w, rfl, ht⟩ | ⟨off, v, hoff, rfl, ⟨hb, rfl⟩ | ⟨hb, ht⟩⟩ | ⟨v, rfl, rfl⟩ | hreset |
    ⟨sp, i, v, rfl, hi, hb, rfl⟩ | ⟨ht, -⟩
  · by_cases hb : s.state = .busy
    · rw [if_pos hb] at ht
      exact .inr (.inr (ht ▸ hostFrame_dropWrite w hb (by decide)))
    · exact .inl ⟨w, rfl, hb, h⟩
  · exact .inr (.inr (hostFrame_dropWrite v hb (List.mem_cons_of_mem _ hoff)))
  · exact .inr (.inr (hostFrame_load hb ht))
  · exact .inr (.inr (hostFrame_writeStatus v s))
  · exact .inr (.inl hreset)
  · exact .inr (.inr (hostFrame_writeElement v hb hi))
  · exact .inr (.inr (hostFrame_record ht))

theorem HostView.commandFrame {s u : State} {rest : List HostOp} (h : HostView s u rest) : CommandFrame s u := by
  rw [h]; constructor <;> rfl

theorem HostView.state_busy {s u : State} {rest : List HostOp} (h : HostView s u rest) (hm : EngineMoves s) :
    u.state = .busy :=
  have ⟨_, hb, _⟩ := hm
  h.commandFrame.state.trans hb

theorem HostView.sameOperands {s u : State} {rest : List HostOp} (h : HostView s u rest) : SameOperands s u := by
  rw [h]; constructor <;> rfl

theorem HostView.lost {s u : State} {rest : List HostOp} (h : HostView s u rest) : u.lost = s.lost := by
  rw [h]

theorem HostView.memoriesOk {s u : State} {rest : List HostOp} (h : HostView s u rest) (hm : MemoriesOk s) :
    MemoriesOk u := by
  rw [h]; exact hm.congr rfl rfl rfl rfl rfl

/-- What the acceptance of any word does to PIX and the STATUS fields (42_commands.md R130; 10_state.md R37). -/
theorem writeCmd_accepted {w : Word} {s t : State} (hb : s.state ≠ .busy) (h : writeCmd w s = .next t) :
    t.pix = 0 ∧ t.state ≠ .idle ∧ t.lost = s.lost ∧ (t.fits ≠ s.fits → w = 0x00000001) := by
  rcases accept_cases hb (Host.Outcome.next.inj (h.symm.trans (writeCmd_eq w s))) with ⟨hd, rfl⟩ | ⟨e, -, -, rfl⟩ |
    ⟨-, -, rfl⟩ | ⟨e, -, -, -, rfl⟩ | ⟨-, -, rfl⟩ | ⟨-, -, rfl⟩ | ⟨-, rfl⟩
  · exact ⟨rfl, by simp, rfl, fun _ => eq_encode_of_decode hd⟩
  all_goals exact ⟨rfl, by simp, rfl, fun hf => absurd rfl hf⟩

/-! ## The events of a step -/

/-- What a step is when it answers next: the engine's, the acceptance of a word, a reset, another item of the host, or
nothing (43_host_bus.md R170). -/
theorem step_events {s t : State} (h : step s = .next t) :
    (∃ u, EngineMoves s ∧ HostView s u s.program ∧ engineStep u = .next t) ∨
    (∃ w rest u, s.state ≠ .busy ∧ s.program = .wr 32 0x00 w :: rest ∧ HostView s u rest ∧ writeCmd w u = .next t) ∨
    (∃ rest u, s.program = .reset :: rest ∧ HostView s u rest ∧ t = resetBlock u) ∨
    (∃ op rest u, s.program = op :: rest ∧ HostView s u rest ∧ HostFrame op u t) ∨
    t = s := by
  rcases step_next_cases h with ⟨u, hm, hu, hs⟩ | ⟨op, rest, u, hp, hv, ho, -, -⟩ | ⟨rfl, -, -⟩ | ⟨rest, u, hp, hv, rfl⟩
  · exact .inl ⟨u, hm, hu, hs⟩
  · rcases performHost_split ho with ⟨w, rfl, hb, hw⟩ | ⟨rfl, rfl⟩ | hf
    · exact .inr (.inl ⟨w, rest, u, hv.commandFrame.state ▸ hb, hp, hv, hw⟩)
    · exact .inr (.inr (.inl ⟨rest, u, hp, hv, rfl⟩))
    · exact .inr (.inr (.inr (.inl ⟨op, rest, u, hp, hv, hf⟩)))
  · exact .inr (.inr (.inr (.inr rfl)))
  · exact .inr (.inr (.inl ⟨rest, u, hp, hv, rfl⟩))

/-! ## The STATUS fields -/

/-- Settles O52, event by event: the engine never touches FITS and LOST, the host outside an acceptance or a reset only
LOST. -/
theorem statusIsWrittenOnlyAsListed : Obligations.StatusIsWrittenOnlyAsListed := by
  intro s t h
  rcases step_events h with ⟨u, hm, hv, hs⟩ | ⟨w, rest, u, hb, hp, hv, hw⟩ | ⟨rest, u, hp, -, rfl⟩ |
    ⟨op, rest, u, hp, hv, hf⟩ | rfl
  · obtain ⟨frame, -⟩ := engineStep_frame hs
    have ⟨_, hsb, _⟩ := hm
    have hub := hv.state_busy hm
    refine ⟨fun hn => absurd (frame.fits.trans hv.commandFrame.fits) hn, fun hn => .inr (.inl ⟨hm, ?_⟩),
      fun hn => .inr (.inl ⟨hm, ?_⟩), fun hn => absurd (frame.lost.trans hv.lost) hn⟩
    · rcases engineStep_status hs hub with ⟨hst, -⟩ | ⟨hst, -⟩ | ⟨hst, he, ho, -, hpix⟩
      · exact absurd (hst.trans hsb.symm) hn
      · exact .inl hst
      · exact .inr ⟨hst, hv.commandFrame.op ▸ ho, he, by
          rw [hpix, frame.sameOperands.capacity, hv.sameOperands.capacity]⟩
    · rcases engineStep_status hs hub with ⟨-, he, -⟩ | ⟨-, he⟩ | ⟨hst, he, ho, -, hpix⟩
      · exact absurd (he.trans hv.commandFrame.err) hn
      · exact absurd (he.trans hv.commandFrame.err) hn
      · exact ⟨hv.commandFrame.op ▸ ho, he, hst, by
          rw [hpix, frame.sameOperands.capacity, hv.sameOperands.capacity]⟩
  · obtain ⟨-, hidle, hlost, hfits⟩ := writeCmd_accepted (hv.commandFrame.state ▸ hb) hw
    refine ⟨fun hn => ?_, fun _ => .inl ⟨hb, hidle, w, rest, hp⟩, fun _ => .inl ⟨hb, w, rest, hp⟩,
      fun hn => absurd (hlost.trans hv.lost) hn⟩
    exact .inl ⟨hb, rest, by rw [hp, hfits (hv.commandFrame.fits ▸ hn)]⟩
  · exact ⟨fun _ => .inr ⟨rest, hp⟩, fun _ => .inr (.inr ⟨rfl, rest, hp⟩), fun _ => .inr (.inr ⟨rfl, rest, hp⟩),
      fun _ => .inr (.inr ⟨rfl, rest, hp⟩)⟩
  · have fs := hv.commandFrame
    refine ⟨fun hn => absurd (hf.frame.fits.trans fs.fits) hn, fun hn => absurd (hf.frame.state.trans fs.state) hn,
      fun hn => absurd (hf.frame.err.trans fs.err) hn, fun hn => ?_⟩
    rcases hf.lost with hl | ⟨hl, hb, off, v, hoff, rfl⟩ | ⟨hl, v, rfl, hbit⟩
    · exact absurd (hl.trans hv.lost) hn
    · exact .inl ⟨hl, fs.state ▸ hb, off, v, rest, hoff, hp⟩
    · exact .inr (.inl ⟨hl, v, rest, hp, hbit⟩)
  · exact ⟨fun hn => absurd rfl hn, fun hn => absurd rfl hn, fun hn => absurd rfl hn, fun hn => absurd rfl hn⟩

/-! ## The invariant, from what each event does -/

/-- The invariant outside IDLE and DONE_ERR: no error is recorded. -/
theorem inv_of_noError {s : State} (hm : MemoriesOk s) (hop : s.op = s.cmd.extractLsb' 0 4) (he : s.err = .noError)
    (hidle : s.state ≠ .idle) (hderr : s.state ≠ .doneErr) (hcmd : ∃ i, s.cmd = encode i)
    (ho : s.outLen.toNat ≤ s.sizes.oMax) (hrun : s.state = .busy → EmbedRunning s ∨ ExtractRunning s) : Inv s where
  memories := hm
  op_eq := hop
  err_iff := ⟨fun h => absurd he h, fun h => absurd h hderr⟩
  record := by simp only [errorRecord, he]
  idle := fun h => absurd h hidle
  doneOk := fun _ => hcmd
  outLen_le := ho
  busy := hrun

/-- The invariant in DONE_ERR: an error is recorded, with what it says of the other registers. -/
theorem inv_of_doneErr {s : State} (hm : MemoriesOk s) (hop : s.op = s.cmd.extractLsb' 0 4) (hst : s.state = .doneErr)
    (he : s.err ≠ .noError) (hr : errorRecord s) (ho : s.outLen.toNat ≤ s.sizes.oMax) : Inv s where
  memories := hm
  op_eq := hop
  err_iff := ⟨fun _ => hst, fun _ => he⟩
  record := hr
  idle := fun h => by simp [hst] at h
  doneOk := fun h => by simp [hst] at h
  outLen_le := ho
  busy := fun h => by simp [hst] at h

theorem EmbedRunning.congr {s t : State} (r : EmbedRunning s) (f : CommandFrame s t) (o : SameOperands s t) :
    EmbedRunning t where
  busy := f.state.trans r.busy
  cmd := f.cmd.trans r.cmd
  op := f.op.trans r.op
  checked := (o.validateEmbed f.sizes).trans r.checked
  pix_lt := by rw [f.pix, o.reqBits]; exact r.pix_lt

theorem ExtractRunning.congr {s t : State} (r : ExtractRunning s) (f : CommandFrame s t) (o : SameOperands s t) :
    ExtractRunning t where
  busy := f.state.trans r.busy
  cmd := f.cmd.trans r.cmd
  op := f.op.trans r.op
  checked := (o.validateExtract f.sizes).trans r.checked
  pix_lt := by rw [f.pix, o.capacity]; exact r.pix_lt
  accCnt_eq := by rw [f.accCnt, f.pix]; exact r.accCnt_eq
  nbytes_eq := by rw [f.nbytes, f.pix]; exact r.nbytes_eq
  outLen_eq := f.outLen.trans r.outLen_eq

/-- The invariant does not see the operands outside BUSY, LOST outside IDLE, nor what is not the block's. -/
theorem CommandFrame.inv {s t : State} (f : CommandFrame s t) (h : Inv s) (hm : MemoriesOk t)
    (o : s.state = .busy → SameOperands s t) (hl : s.state = .idle → t.lost = s.lost) : Inv t where
  memories := hm
  op_eq := by rw [f.op, f.cmd]; exact h.op_eq
  err_iff := by rw [f.err, f.state]; exact h.err_iff
  record := by unfold errorRecord; rw [f.err, f.cmd, f.pix, f.outLen]; exact h.record
  idle := fun hi => by
    rw [f.state] at hi
    rw [f.cmd, f.fits, hl hi, f.outLen, f.pix, f.acc, f.accCnt, f.win, f.nbytes]
    exact h.idle hi
  doneOk := fun hd => by rw [f.cmd]; exact h.doneOk (f.state ▸ hd)
  outLen_le := by rw [f.outLen, f.sizes]; exact h.outLen_le
  busy := fun hb => by
    have hb' : s.state = .busy := f.state ▸ hb
    exact (h.busy hb').imp (·.congr f (o hb')) (·.congr f (o hb'))

theorem HostView.inv {s u : State} {rest : List HostOp} (v : HostView s u rest) (h : Inv s) : Inv u :=
  v.commandFrame.inv h (v.memoriesOk h.memories) (fun _ => v.sameOperands) (fun _ => v.lost)

/-- In IDLE no item of the host can set LOST, and there is none to clear (10_state.md R24, R25). -/
theorem LostRule.lost_eq_of_idle {op : HostOp} {s t : State} (h : LostRule op s t) (hi : s.state = .idle)
    (hl : s.lost = false) : t.lost = s.lost := by
  rcases h with h | ⟨-, hb, -⟩ | ⟨h, -⟩
  · exact h
  · rw [hi] at hb; cases hb
  · rw [h, hl]

theorem HostFrame.inv {op : HostOp} {s t : State} (f : HostFrame op s t) (h : Inv s) : Inv t :=
  f.frame.inv h (f.memories h.memories) f.operands fun hi =>
    have ⟨_, _, hlost, _⟩ := h.idle hi
    f.lost.lost_eq_of_idle hi hlost

/-- Any word accepted outside BUSY meets the invariant, whatever ran before (42_commands.md R130). -/
theorem writeCmd_inv {w : Word} {s t : State} (hm : MemoriesOk s) (ho : s.outLen.toNat ≤ s.sizes.oMax)
    (hb : s.state ≠ .busy) (h : writeCmd w s = .next t) : Inv t := by
  rcases accept_cases hb (Host.Outcome.next.inj (h.symm.trans (writeCmd_eq w s))) with ⟨-, rfl⟩ | ⟨e, -, hv, rfl⟩ |
    ⟨-, hv, rfl⟩ | ⟨e, -, hv, hne, rfl⟩ | ⟨-, -, rfl⟩ | ⟨-, hv, rfl⟩ | ⟨hd, rfl⟩
  · exact inv_of_noError (hm.congr rfl rfl rfl rfl rfl) rfl rfl (by simp) (by simp) ⟨_, rfl⟩ ho
      (fun hbusy => nomatch hbusy)
  · have he := validateEmbed_eq_some hv
    refine inv_of_doneErr (hm.congr rfl rfl rfl rfl rfl) rfl rfl ?_ ?_ ho
    · rcases he with rfl | rfl | rfl <;> simp
    · rcases he with rfl | rfl | rfl <;> simp [errorRecord]
  · exact inv_of_noError (hm.congr rfl rfl rfl rfl rfl) rfl rfl (by simp) (by simp) ⟨_, rfl⟩ ho
      (fun _ => .inl ⟨rfl, rfl, rfl, hv, Nat.succ_pos _⟩)
  · have he := validateExtract_eq_some hv
    refine inv_of_doneErr (hm.congr rfl rfl rfl rfl rfl) rfl rfl ?_ ?_ (Nat.zero_le _)
    · rcases he with rfl | rfl | rfl <;> simp
    · rcases he with rfl | rfl | rfl <;> simp [errorRecord]
  · exact inv_of_doneErr (hm.acceptWord _).scanMissed rfl rfl (by simp) ⟨rfl, rfl⟩ (Nat.zero_le _)
  · obtain ⟨-, -, -, hpos⟩ := validateExtract_eq_none.1 hv
    exact inv_of_noError (hm.congr rfl rfl rfl rfl rfl) rfl rfl (by simp) (by simp) ⟨_, rfl⟩ (Nat.zero_le _)
      (fun _ => .inr ⟨rfl, rfl, rfl, hv, Nat.pos_of_ne_zero hpos, by simp, by simp, rfl⟩)
  · exact inv_of_doneErr (hm.congr rfl rfl rfl rfl rfl) rfl rfl (by simp) ⟨rfl, hd⟩ ho

/-! ## The counters of a running command -/

/-- A running command has passed the check W*H <= P_MAX and PIX < W*H (42_commands.md R131, R132, R138, R144). -/
theorem Inv.pix_lt_capacity {s : State} (h : Inv s) (hb : s.state = .busy) :
    s.pix.toNat < capacity s ∧ capacity s ≤ s.sizes.pMax := by
  rcases h.busy hb with r | r
  · obtain ⟨hcap, -, -, -, hreq⟩ := validateEmbed_eq_none.1 r.checked
    exact ⟨r.pix_lt.trans_le hreq, hcap⟩
  · exact ⟨r.pix_lt, (validateExtract_eq_none.1 r.checked).1⟩

/-- The PIX counter of a running command does not wrap (70_reset_and_hazards.md R230). -/
theorem engineStep_pix_toNat {s t : State} (h : Inv s) (hb : s.state = .busy) (hs : engineStep s = .next t) :
    t.pix.toNat = s.pix.toNat + 1 := by
  have hlt := (h.pix_lt_capacity hb).1
  have hcap := capacity_lt s
  rw [(engineStep_frame hs).2, BitVec.toNat_add, BitVec.toNat_ofNat]
  omega

/-- Settles O54, event by event: a running command's PIX is below W*H, so the engine's increment does not wrap. -/
theorem pixCountsEngineSteps : Obligations.PixCountsEngineSteps := by
  intro s t hinv h
  rcases step_events h with ⟨u, hm, hv, hs⟩ | ⟨w, rest, u, hb, hp, hv, hw⟩ | ⟨rest, u, hp, -, rfl⟩ |
    ⟨op, rest, u, hp, hv, hf⟩ | rfl
  · have ⟨_, hsb, _⟩ := hm
    have hpix := engineStep_pix_toNat (hv.inv hinv) (hv.state_busy hm) hs
    rw [hv.commandFrame.pix] at hpix
    exact .inr (.inl ⟨hm, hpix, hpix ▸ (hinv.pix_lt_capacity hsb).1⟩)
  · obtain ⟨hpix, -⟩ := writeCmd_accepted (hv.commandFrame.state ▸ hb) hw
    exact .inr (.inr ⟨hpix, .inl ⟨hb, w, rest, hp⟩⟩)
  · exact .inr (.inr ⟨rfl, .inr ⟨rest, hp⟩⟩)
  · exact .inl (hf.frame.pix.trans hv.commandFrame.pix)
  · exact .inl rfl

@[simp] theorem scanOn_accCnt (s : State) : (scanOn s).accCnt = s.accCnt := by
  rcases scanOn_cases s with ⟨-, h⟩ | ⟨-, h⟩ <;> rw [h]; rfl

@[simp] theorem scanOn_nbytes (s : State) : (scanOn s).nbytes = s.nbytes := by
  rcases scanOn_cases s with ⟨-, h⟩ | ⟨-, h⟩ <;> rw [h]; rfl

/-- ACC_CNT and NBYTES after an EXTRACT step: a bit is counted, and a byte with every eighth (42_commands.md R144). -/
theorem extractStep_counts {s t : State} (h : extractStep s = .next t) :
    t.accCnt = s.accCnt + 1#3 ∧ t.nbytes = if s.accCnt = 7#3 then s.nbytes + 1#32 else s.nbytes := by
  obtain ⟨-, -, ⟨hc, rfl⟩ | ⟨c, u, hc, -, rfl⟩⟩ := extractStep_eq_next.1 h
  · have h7 := (accumulate_completed_eq_none _ _ _).1 hc
    simp [h7, accumulate_accCnt]
  · have h7 : s.accCnt = 7#3 := by
      by_contra hne
      rw [(accumulate_completed_eq_none _ _ _).2 hne] at hc
      cases hc
    split_ifs <;> simp [accumulate_accCnt, pushByte]

/-- The counters of a scan follow PIX (42_commands.md R147). -/
theorem ExtractRunning.counts_step {s t : State} (r : ExtractRunning s) (h : extractStep s = .next t)
    (hpix : t.pix.toNat = s.pix.toNat + 1) :
    t.accCnt.toNat = t.pix.toNat % 8 ∧ t.nbytes.toNat = t.pix.toNat / 8 := by
  obtain ⟨hacc, hnb⟩ := extractStep_counts h
  have hacc_eq := r.accCnt_eq
  have hnb_eq := r.nbytes_eq
  have h7 : s.accCnt = 7#3 ↔ s.accCnt.toNat = 7 := by rw [← BitVec.toNat_inj]; rfl
  constructor
  · rw [hacc, BitVec.toNat_add, BitVec.toNat_ofNat]
    omega
  · rw [hnb]
    split_ifs with hc
    · rw [h7] at hc
      rw [BitVec.toNat_add, BitVec.toNat_ofNat]
      omega
    · rw [h7] at hc
      omega

/-- A scan that goes on is before its last pixel, and else it is exhausted (42_commands.md R144, R146). -/
theorem scanOn_end {s : State} (hb : s.state = .busy) :
    ((scanOn s).state = .busy ∧ (scanOn s).pix.toNat ≠ capacity (scanOn s)) ∨ (scanOn s).state = .doneErr := by
  rcases scanOn_cases s with ⟨-, h⟩ | ⟨hne, h⟩ <;> rw [h]
  · exact .inr rfl
  · exact .inl ⟨hb, hne⟩

/-- How an EXTRACT step leaves the scan: before the last pixel, at a marker, or exhausted (42_commands.md R144 to
R146). -/
theorem extractStep_end {s t : State} (hb : s.state = .busy) (h : extractStep s = .next t) :
    (t.state = .busy ∧ t.pix.toNat ≠ capacity t) ∨
    (t.state = .doneOk ∧ 3 ≤ t.nbytes.toNat ∧ t.outLen = t.nbytes - 3#32) ∨ t.state = .doneErr := by
  obtain ⟨-, -, ⟨-, rfl⟩ | ⟨c, u, -, he, rfl⟩⟩ := extractStep_eq_next.1 h
  · exact (scanOn_end (s := takeBit (stepAcc s) s) hb).imp_right .inr
  · have hu : u.state = .busy := by
      rcases emitByte_frame he with rfl | ⟨v, rfl⟩ <;> exact hb
    split_ifs with hfound
    · exact .inr (.inl ⟨rfl, three_le_of_pushByte_found hfound, rfl⟩)
    · exact (scanOn_end (s := takeByte _ (takeBit (stepAcc s) u)) hu).imp_right .inr

/-! ## The engine keeps the invariant -/

/-- An EMBED step that does not end the command leaves it running (42_commands.md R138). -/
theorem EmbedRunning.step {s t : State} (r : EmbedRunning s) (h : embedStep s = .next t) (f : EngineFrame s t)
    (hpix : t.pix.toNat = s.pix.toNat + 1) (hbt : t.state = .busy) : EmbedRunning t where
  busy := hbt
  cmd := f.cmd.trans r.cmd
  op := f.op.trans r.op
  checked := (f.sameOperands.validateEmbed f.sizes).trans r.checked
  pix_lt := by
    obtain ⟨hlt, -, b, -, rfl⟩ := embedStep_eq_next.1 h
    have hne : s.pix.toNat + 1 ≠ reqBits s := fun heq => by simp [heq] at hbt
    rw [hpix, f.sameOperands.reqBits]
    omega

/-- An EXTRACT step that does not end the command leaves it running (42_commands.md R144). -/
theorem ExtractRunning.step {s t : State} (r : ExtractRunning s) (h : extractStep s = .next t) (f : EngineFrame s t)
    (hpix : t.pix.toNat = s.pix.toNat + 1) (ho : t.outLen = s.outLen) (hbt : t.state = .busy) : ExtractRunning t where
  busy := hbt
  cmd := f.cmd.trans r.cmd
  op := f.op.trans r.op
  checked := (f.sameOperands.validateExtract f.sizes).trans r.checked
  pix_lt := by
    have hlt := r.pix_lt
    rcases extractStep_end r.busy h with ⟨-, hne⟩ | ⟨hst, -⟩ | hst
    · rw [f.sameOperands.capacity] at hne ⊢
      omega
    · rw [hst] at hbt; cases hbt
    · rw [hst] at hbt; cases hbt
  accCnt_eq := (r.counts_step h hpix).1
  nbytes_eq := (r.counts_step h hpix).2
  outLen_eq := ho.trans r.outLen_eq

/-- The message a scan has found fits OUT (10_state.md R33). -/
theorem ExtractRunning.outLen_le {s t : State} (r : ExtractRunning s) (h : extractStep s = .next t)
    (f : EngineFrame s t) (hpix : t.pix.toNat = s.pix.toNat + 1) (hd : t.state = .doneOk) :
    t.outLen.toNat ≤ t.sizes.oMax := by
  rcases extractStep_end r.busy h with ⟨hst, -⟩ | ⟨-, h3, ho⟩ | hst
  · rw [hd] at hst; cases hst
  · have hle : t.pix.toNat ≤ t.sizes.pMax := by
      have hcap := (validateExtract_eq_none.1 r.checked).1
      have hlt := r.pix_lt
      rw [f.sizes]
      omega
    calc t.outLen.toNat = t.pix.toNat / 8 - 3 := by
          rw [ho, BitVec.toNat_sub_of_le h3, (r.counts_step h hpix).2]; rfl
      _ ≤ t.sizes.oMax := bytes_sub_three_le_oMax t.sizes hle
  · rw [hd] at hst; cases hst

theorem Inv.err_of_busy {s : State} (h : Inv s) (hb : s.state = .busy) : s.err = .noError := by
  by_contra hne
  have hst := h.err_iff.1 hne
  rw [hb] at hst; cases hst

theorem Inv.cmd_of_busy {s : State} (h : Inv s) (hb : s.state = .busy) : ∃ i, s.cmd = encode i :=
  (h.busy hb).elim (fun r => ⟨_, r.cmd⟩) (fun r => ⟨_, r.cmd⟩)

/-- A running command is the one OP selects (42_commands.md R152). -/
theorem Inv.engineStep_cases {s t : State} (h : Inv s) (hb : s.state = .busy) (hs : engineStep s = .next t) :
    (EmbedRunning s ∧ embedStep s = .next t) ∨ (ExtractRunning s ∧ extractStep s = .next t) := by
  rcases h.busy hb with r | r <;> rcases engineStep_eq_next.1 hs with ⟨hop, hs⟩ | ⟨hop, hs⟩
  · exact .inl ⟨r, hs⟩
  · simp [r.op] at hop
  · simp [r.op] at hop
  · exact .inr ⟨r, hs⟩

/-- Every engine step keeps the invariant: the command runs on, has ended in DONE_OK, or has found no marker. -/
theorem engineStep_inv {s t : State} (h : Inv s) (hb : s.state = .busy) (hs : engineStep s = .next t) : Inv t := by
  obtain ⟨f, -⟩ := engineStep_frame hs
  have hpix := engineStep_pix_toNat h hb hs
  have hm := engineStep_memoriesOk hs h.memories
  have hop : t.op = t.cmd.extractLsb' 0 4 := by rw [f.op, f.cmd]; exact h.op_eq
  have herr := h.err_of_busy hb
  have hcmd : ∃ i, t.cmd = encode i := f.cmd ▸ h.cmd_of_busy hb
  rcases engineStep_status hs hb with ⟨hst, he, ho⟩ | ⟨hst, he⟩ | ⟨hst, he, hop3, ho, -⟩
  · refine inv_of_noError hm hop (he.trans herr) (by simp [hst]) (by simp [hst]) hcmd ?_ fun _ => ?_
    · rw [ho, f.sizes]; exact h.outLen_le
    · exact (h.engineStep_cases hb hs).imp (fun ⟨r, hs⟩ => r.step hs f hpix hst)
        (fun ⟨r, hs⟩ => r.step hs f hpix ho hst)
  · refine inv_of_noError hm hop (he.trans herr) (by simp [hst]) (by simp [hst]) hcmd ?_ fun hbt => ?_
    · rcases h.engineStep_cases hb hs with ⟨r, hs⟩ | ⟨r, hs⟩
      · obtain ⟨-, -, b, -, rfl⟩ := embedStep_eq_next.1 hs
        exact h.outLen_le
      · exact r.outLen_le hs f hpix hst
    · rw [hst] at hbt; cases hbt
  · refine inv_of_doneErr hm hop hst (by simp [he]) ?_ (by simp [ho])
    have hextract : t.cmd = encode .extract := by
      rcases h.busy hb with r | r
      · simp [r.op] at hop3
      · exact f.cmd.trans r.cmd
    simp only [errorRecord, he]
    exact ⟨hextract, ho⟩

/-- Settles O56, event by event: `engineStep_inv`, `writeCmd_inv`, `resetBlock_inv` and `HostFrame.inv`. -/
theorem everyStepKeepsTheInvariant : Obligations.EveryStepKeepsTheInvariant := by
  intro s t h hstep
  rcases step_events hstep with ⟨u, hm, hv, hs⟩ | ⟨w, rest, u, hb, -, hv, hw⟩ | ⟨rest, u, -, -, rfl⟩ |
    ⟨op, rest, u, -, hv, hf⟩ | rfl
  · exact engineStep_inv (hv.inv h) (hv.state_busy hm) hs
  · have hu := hv.inv h
    exact writeCmd_inv hu.memories hu.outLen_le (hv.commandFrame.state ▸ hb) hw
  · exact resetBlock_inv u
  · exact hf.inv (hv.inv h)
  · exact h

end Sys2Proof.Machine

/-! PROOFS. The family 20_memory.md: the engine's accesses stay in range, so no step faults; the host's element words;
and who writes each memory. `step_writes` names the steps that can write one; each claim reads it off. -/

namespace Sys2Proof.Machine

/-! ## The engine's accesses are in range -/

/-- A payload byte of the stream is the message byte XORed with its key byte (42_commands.md R134). -/
theorem streamByte_payload {s : State} {j : Nat} (hj : j < s.msgLen.toNat) (hm : s.msgLen.toNat ≤ s.sizes.mMax)
    (hk : s.keyLen.toNat ≤ s.sizes.kMax) (hk0 : s.keyLen.toNat ≠ 0) :
    streamByte s j = .ok (msgAt s j ^^^ keyAt s (j % s.keyLen.toNat)) := by
  have hmsg : engineReadMsg s j = .ok (msgAt s j) := engineReadMsg_eq_ok.2 ⟨hj.trans_le hm, rfl⟩
  have hkey : engineReadKey s j = .ok (keyAt s (j % s.keyLen.toNat)) :=
    engineReadKey_eq_ok.2 ⟨hk0, (Nat.mod_lt j (Nat.pos_of_ne_zero hk0)).trans_le hk, rfl⟩
  simp only [streamByte, if_pos hj, hmsg, hkey]

/-- The three bytes after the payload are the marker (42_commands.md R134). -/
theorem streamByte_marker {s : State} {i : Nat} {v : Byte} (h : marker[i]? = some v) :
    streamByte s (s.msgLen.toNat + i) = .ok v := by
  simp only [streamByte, if_neg (Nat.not_lt.2 (Nat.le_add_right _ i)), Nat.add_sub_cancel_left, h]

/-- Every byte of the stream is there (42_commands.md R134). -/
theorem streamByte_ok {s : State} {j : Nat} (hj : j < s.msgLen.toNat + 3) (hm : s.msgLen.toNat ≤ s.sizes.mMax)
    (hk : s.keyLen.toNat ≤ s.sizes.kMax) (hk0 : s.keyLen.toNat ≠ 0) : ∃ v, streamByte s j = .ok v := by
  by_cases hpay : j < s.msgLen.toNat
  · exact ⟨_, streamByte_payload hpay hm hk hk0⟩
  · obtain ⟨i, rfl⟩ := Nat.exists_eq_add_of_le (Nat.not_lt.1 hpay)
    exact ⟨_, streamByte_marker (List.getElem?_eq_getElem (show i < marker.length from Nat.lt_of_add_lt_add_left hj))⟩

/-- Every bit of the stream is there (42_commands.md R134). -/
theorem streamBit_ok {s : State} {k : Nat} (hk : k < reqBits s) (hv : validateEmbed s = none) :
    ∃ bit, streamBit s k = .ok bit := by
  obtain ⟨-, hm, hkl, hk0, -⟩ := validateEmbed_eq_none.1 hv
  have hbyte : k / 8 < s.msgLen.toNat + 3 := by
    unfold reqBits messageBitLength at hk
    omega
  obtain ⟨v, h⟩ := streamByte_ok hbyte hm hkl hk0
  exact ⟨serialBitOf v k, by simp only [streamBit, h]⟩

/-- An EMBED in progress has its step (42_commands.md R138). -/
theorem EmbedRunning.embedStep_next {s : State} (r : EmbedRunning s) : ∃ t, embedStep s = .next t := by
  obtain ⟨hcap, -, -, -, hreq⟩ := validateEmbed_eq_none.1 r.checked
  obtain ⟨bit, hbit⟩ := streamBit_ok r.pix_lt r.checked
  exact ⟨_, embedStep_eq_next.2 ⟨r.pix_lt, (r.pix_lt.trans_le hreq).trans_le hcap, bit, hbit, rfl⟩⟩

/-- The byte that leaves the window when a byte completes has its place in OUT: the pixels read so far complete one byte
more than NBYTES (20_memory.md R57, 42_commands.md R144, R148). -/
theorem ExtractRunning.emitted_lt_oMax {s : State} (r : ExtractRunning s) (h7 : s.accCnt = 7#3)
    (h3 : 3 ≤ s.nbytes.toNat) : s.nbytes.toNat - 3 < s.sizes.oMax := by
  have hread : s.pix.toNat + 1 ≤ s.sizes.pMax :=
    Nat.succ_le_of_lt (r.pix_lt.trans_le (validateExtract_eq_none.1 r.checked).1)
  have hbyte : (s.pix.toNat + 1) / 8 = s.nbytes.toNat + 1 := by
    have hacc := r.accCnt_eq
    have hnb := r.nbytes_eq
    rw [h7, BitVec.toNat_ofNat] at hacc
    omega
  have hroom := bytes_sub_three_le_oMax s.sizes hread
  omega

/-- The payload byte of an EXTRACT in progress, when there is one, is written (42_commands.md R144). -/
theorem ExtractRunning.emitByte_ok {s : State} (r : ExtractRunning s) (h7 : s.accCnt = 7#3) (c : Byte) :
    ∃ u, emitByte (pushByte s.win s.nbytes c) s = .ok u := by
  obtain ⟨-, hk, hk0, -⟩ := validateExtract_eq_none.1 r.checked
  cases hq : (pushByte s.win s.nbytes c).emit with
  | false => exact ⟨s, emitByte_eq_ok.2 (.inl ⟨hq, rfl⟩)⟩
  | true =>
    have h3 : 3 ≤ s.nbytes.toNat := of_decide_eq_true hq
    have hkey := (Nat.mod_lt (s.nbytes.toNat - 3) (Nat.pos_of_ne_zero hk0)).trans_le hk
    exact ⟨_, emitByte_eq_ok.2 (.inr ⟨hq, hk0, hkey, r.emitted_lt_oMax h7 h3, rfl⟩)⟩

/-- An EXTRACT in progress has its step (42_commands.md R144). -/
theorem ExtractRunning.extractStep_next {s : State} (r : ExtractRunning s) : ∃ t, extractStep s = .next t := by
  have hp := r.pix_lt.trans_le (validateExtract_eq_none.1 r.checked).1
  cases hc : (stepAcc s).completed with
  | none => exact ⟨_, extractStep_eq_next.2 ⟨r.pix_lt, hp, .inl ⟨hc, rfl⟩⟩⟩
  | some c =>
    have h7 : s.accCnt = 7#3 := by
      by_contra hne
      rw [(accumulate_completed_eq_none _ _ _).2 hne] at hc
      cases hc
    obtain ⟨u, hu⟩ := r.emitByte_ok h7 c
    exact ⟨_, extractStep_eq_next.2 ⟨r.pix_lt, hp, .inr ⟨c, u, hc, hu, rfl⟩⟩⟩

/-- While BUSY the engine has its step (42_commands.md R152; 20_memory.md R57). -/
theorem Inv.engineStep_next {s : State} (h : Inv s) (hb : s.state = .busy) : ∃ t, engineStep s = .next t := by
  rcases h.busy hb with r | r
  · obtain ⟨t, ht⟩ := r.embedStep_next
    exact ⟨t, engineStep_eq_next.2 (.inl ⟨r.op, ht⟩)⟩
  · obtain ⟨t, ht⟩ := r.extractStep_next
    exact ⟨t, engineStep_eq_next.2 (.inr ⟨r.op, ht⟩)⟩

/-- Only the engine can fault (43_host_bus.md R170). -/
theorem step_eq_fault {s : State} {f : Fault} (h : step s = .fault f) :
    ∃ u, EngineMoves s ∧ HostView s u s.program ∧ engineStep u = .fault f := by
  unfold step systemStep at h
  cases hr : s.refusal with
  | some r =>
    simp only [hr, moveRefused] at h
    split at h <;> cases h
  | none =>
    cases hp : s.program with
    | nil =>
      simp only [hr, hp, moveAlone] at h
      split_ifs at h with hb
      exact ⟨s, ⟨hr, hb, .inl hp⟩, by rw [HostView, ← hp], h⟩
    | cons op rest =>
      have host_ne : ∀ u, performHost op u ≠ .fault f := fun u he => by
        obtain ⟨t, ht⟩ := performHost_next op u
        rw [ht] at he; cases he
      simp only [hr, hp, moveHost] at h
      split_ifs at h with hb hturn
      · exact ⟨engineTurn s, ⟨hr, hb, .inr hturn⟩, by rw [HostView, ← hp]; rfl, h⟩
      · exact absurd h (host_ne _)
      · exact absurd h (host_ne _)

/-- Settles O57: only the engine could fault, and in a state that meets the invariant it has its step. -/
theorem noStepFaults : Obligations.NoStepFaults := by
  intro s f hinv h
  obtain ⟨u, hm, hv, hs⟩ := step_eq_fault h
  obtain ⟨t, ht⟩ := (hv.inv hinv).engineStep_next (hv.state_busy hm)
  rw [ht] at hs
  cases hs

/-! ## The host words of the elements -/

/-- Appended fields add up, as the lower one ends below the upper. -/
theorem toNat_append_eq_add {m n : Nat} (x : BitVec m) (y : BitVec n) :
    (x ++ y).toNat = 2 ^ n * x.toNat + y.toNat := by
  rw [BitVec.toNat_append, ← Nat.shiftLeft_add_eq_or_of_lt y.isLt, Nat.shiftLeft_eq, Nat.mul_comm]

/-- The channels of a pixel in its host word (20_memory.md R52). -/
theorem pixelWord_toNat (p : Pixel) :
    (pixelWord p).toNat = 2 ^ 16 * p.r.toNat + 2 ^ 8 * p.g.toNat + p.b.toNat := by
  simp only [pixelWord, toNat_append_eq_add, BitVec.toNat_ofNat]
  omega

theorem byteWord_toNat (v : Byte) : (byteWord v).toNat = v.toNat :=
  BitVec.toNat_setWidth_of_le (by decide)

/-- A pixel word written reads back without bits [31:24] (20_memory.md R52). -/
theorem pixelWord_pixelOfWord (v : Word) : pixelWord (pixelOfWord v) = v &&& 0x00FFFFFF#32 := by
  have hmask : (v &&& 0x00FFFFFF#32).toNat = v.toNat % 2 ^ 24 := Nat.and_two_pow_sub_one_eq_mod v.toNat 24
  apply BitVec.eq_of_toNat_eq
  rw [pixelWord_toNat, hmask]
  simp only [pixelOfWord, BitVec.extractLsb'_toNat, Nat.shiftRight_eq_div_pow]
  omega

/-- A byte word written reads back without bits [31:8] (20_memory.md R52). -/
theorem byteWord_byteOfWord (v : Word) : byteWord (byteOfWord v) = v &&& 0x000000FF#32 := by
  have hmask : (v &&& 0x000000FF#32).toNat = v.toNat % 2 ^ 8 := Nat.and_two_pow_sub_one_eq_mod v.toNat 8
  apply BitVec.eq_of_toNat_eq
  rw [byteWord_toNat, hmask]
  simp only [byteOfWord, BitVec.extractLsb'_toNat, Nat.shiftRight_eq_div_pow]
  omega

/-! ## One element after a window write -/

theorem pixelAt_congr {s t : State} (h : t.raster = s.raster) (k : Nat) : pixelAt t k = pixelAt s k := by
  simp only [pixelAt, h]

theorem msgAt_congr {s t : State} (h : t.msg = s.msg) (k : Nat) : msgAt t k = msgAt s k := by simp only [msgAt, h]

theorem keyAt_congr {s t : State} (h : t.key = s.key) (k : Nat) : keyAt t k = keyAt s k := by simp only [keyAt, h]

theorem outAt_congr {s t : State} (h : t.out = s.out) (k : Nat) : outAt t k = outAt s k := by simp only [outAt, h]

theorem pixelAt_writeElement (sp : Space) (i j : Nat) (v : Word) (s : State) :
    pixelAt (writeElement sp i v s) j = if sp = .raster ∧ j = i then pixelOfWord v else pixelAt s j := by
  cases sp with
  | raster => simp [writeElement, pixelAt_store]
  | msg | key | out => exact pixelAt_congr rfl j

theorem msgAt_writeElement (sp : Space) (i j : Nat) (v : Word) (s : State) :
    msgAt (writeElement sp i v s) j = if sp = .msg ∧ j = i then byteOfWord v else msgAt s j := by
  cases sp with
  | msg => simp [writeElement, msgAt_store]
  | raster | key | out => exact msgAt_congr rfl j

theorem keyAt_writeElement (sp : Space) (i j : Nat) (v : Word) (s : State) :
    keyAt (writeElement sp i v s) j = if sp = .key ∧ j = i then byteOfWord v else keyAt s j := by
  cases sp with
  | key => simp [writeElement, keyAt_store]
  | raster | msg | out => exact keyAt_congr rfl j

theorem outAt_writeElement (sp : Space) (i j : Nat) (v : Word) (s : State) :
    outAt (writeElement sp i v s) j = if sp = .out ∧ j = i then byteOfWord v else outAt s j := by
  cases sp with
  | out => simp [writeElement, outAt_store]
  | raster | msg | key => exact outAt_congr rfl j

/-- What an element reads after word `v` was written to it (20_memory.md R52). -/
theorem readElement_writeElement_same (s : State) (sp : Space) (i : Nat) (v : Word) :
    readElement (writeElement sp i v s) sp i =
      if sp = .raster then v &&& 0x00FFFFFF#32 else v &&& 0x000000FF#32 := by
  cases sp with
  | raster => simp only [readElement, pixelAt_writeElement, and_self, if_true, pixelWord_pixelOfWord]
  | msg => simp only [readElement, msgAt_writeElement, and_self, if_true, byteWord_byteOfWord, reduceCtorEq, if_false]
  | key => simp only [readElement, keyAt_writeElement, and_self, if_true, byteWord_byteOfWord, reduceCtorEq, if_false]
  | out => simp only [readElement, outAt_writeElement, and_self, if_true, byteWord_byteOfWord, reduceCtorEq, if_false]

/-- A window write leaves every other element (00_scope.md R13; 20_memory.md R50). -/
theorem readElement_writeElement_other (s : State) {sp sp' : Space} {i j : Nat} (v : Word)
    (h : ¬ (sp' = sp ∧ j = i)) : readElement (writeElement sp i v s) sp' j = readElement s sp' j := by
  rw [eq_comm (a := sp')] at h
  cases sp' with
  | raster => simp only [readElement, pixelAt_writeElement, if_neg h]
  | msg => simp only [readElement, msgAt_writeElement, if_neg h]
  | key => simp only [readElement, keyAt_writeElement, if_neg h]
  | out => simp only [readElement, outAt_writeElement, if_neg h]

/-- Settles O17: the word formats, then the written element and every other one. -/
theorem elementWordsReadBack : Obligations.ElementWordsReadBack := by
  refine ⟨fun s i => ⟨pixelWord_toNat _, byteWord_toNat _, byteWord_toNat _, byteWord_toNat _⟩,
    fun s sp sp' i j v => ?_⟩
  split_ifs with h hsp
  · obtain ⟨rfl, rfl⟩ := h
    rw [readElement_writeElement_same, if_pos hsp]
  · obtain ⟨rfl, rfl⟩ := h
    rw [readElement_writeElement_same, if_neg hsp]
  · exact readElement_writeElement_other s v h

/-! ## Who writes the memories -/

/-- The four memories are as before. -/
structure SameMemories (s t : State) : Prop where
  raster : t.raster = s.raster
  msg : t.msg = s.msg
  key : t.key = s.key
  out : t.out = s.out

theorem HostView.sameMemories {s u : State} {rest : List HostOp} (h : HostView s u rest) : SameMemories s u := by
  rw [h]; constructor <;> rfl

theorem SameMemories.trans {s u t : State} (h : SameMemories s u) (h' : SameMemories u t) : SameMemories s t :=
  ⟨h'.raster.trans h.raster, h'.msg.trans h.msg, h'.key.trans h.key, h'.out.trans h.out⟩

/-- NO_MARKER_FOUND at acceptance means W*H = 0 (42_commands.md R132). -/
theorem capacity_eq_zero_of_validateExtract {s : State} (h : validateExtract s = some .noMarkerFound) :
    capacity s = 0 := by
  unfold validateExtract at h
  split_ifs at h with hlen hkey hcap <;> cases h
  exact hcap

/-- An EXTRACT rejected for W*H = 0 leaves every memory but OUT (60_exceptions.md R201; log entry 11). -/
structure RejectedForNoPixels (w : Word) (s t : State) : Prop where
  word : w = 0x00000003
  capacity_eq : capacity s = 0
  err : t.err = .noMarkerFound
  raster : t.raster = s.raster
  msg : t.msg = s.msg
  key : t.key = s.key

/-- The acceptance of a word writes no size and no memory but OUT, and OUT only by an EXTRACT rejected for W*H = 0
(42_commands.md R133; 60_exceptions.md R201; 10_state.md R39). -/
theorem writeCmd_memories {w : Word} {s t : State} (hb : s.state ≠ .busy) (h : writeCmd w s = .next t) :
    t.sizes = s.sizes ∧ (SameMemories s t ∨ RejectedForNoPixels w s t) := by
  rcases accept_cases hb (Host.Outcome.next.inj (h.symm.trans (writeCmd_eq w s))) with ⟨-, rfl⟩ | ⟨e, -, -, rfl⟩ |
    ⟨-, -, rfl⟩ | ⟨e, -, -, -, rfl⟩ | ⟨hd, hv, rfl⟩ | ⟨-, -, rfl⟩ | ⟨-, rfl⟩
  case inr.inr.inr.inr.inl =>
    exact ⟨rfl, .inr ⟨eq_encode_of_decode hd, capacity_eq_zero_of_validateExtract hv, rfl, rfl, rfl, rfl⟩⟩
  all_goals exact ⟨rfl, .inl ⟨rfl, rfl, rfl, rfl⟩⟩

/-- No step writes the sizes (10_state.md R39). -/
theorem step_sizes {s t : State} (h : step s = .next t) : t.sizes = s.sizes := by
  rcases step_events h with ⟨u, -, hv, hs⟩ | ⟨w, rest, u, hb, -, hv, hw⟩ | ⟨rest, u, -, hv, rfl⟩ |
    ⟨op, rest, u, -, hv, hf⟩ | rfl
  · exact (engineStep_frame hs).1.sizes.trans hv.commandFrame.sizes
  · exact (writeCmd_memories (hv.commandFrame.state ▸ hb) hw).1.trans hv.commandFrame.sizes
  · exact hv.commandFrame.sizes
  · exact hf.frame.sizes.trans hv.commandFrame.sizes
  · rfl

/-- A host item writes the memories by a reset, by a window write outside BUSY, by an EXTRACT rejected for W*H = 0, or
not at all (20_memory.md R59). -/
theorem performHost_memories {op : HostOp} {s t : State} (h : performHost op s = .next t) :
    op = .reset ∨
    (∃ sp i v, op = .mwr sp i v ∧ s.state ≠ .busy ∧ t = writeElement sp i v s) ∨
    (∃ w, op = .wr 32 0x00 w ∧ s.state ≠ .busy ∧ RejectedForNoPixels w s t) ∨
    SameMemories s t := by
  rcases performHost_cases h with ⟨w, rfl, ht⟩ | ⟨off, v, -, rfl, ⟨-, rfl⟩ | ⟨-, ht⟩⟩ | ⟨v, rfl, rfl⟩ | ⟨hop, -⟩ |
    ⟨sp, i, v, hop, -, hb, ht⟩ | ⟨ht, -⟩
  · by_cases hb : s.state = .busy
    · rw [if_pos hb] at ht
      exact .inr (.inr (.inr (ht ▸ ⟨rfl, rfl, rfl, rfl⟩)))
    · rcases writeCmd_memories hb h with ⟨-, hsame | hrej⟩
      · exact .inr (.inr (.inr hsame))
      · exact .inr (.inr (.inl ⟨w, rfl, hb, hrej⟩))
  · exact .inr (.inr (.inr ⟨rfl, rfl, rfl, rfl⟩))
  · exact .inr (.inr (.inr (by rcases ht with rfl | rfl | rfl | rfl <;> exact ⟨rfl, rfl, rfl, rfl⟩)))
  · exact .inr (.inr (.inr ⟨rfl, rfl, rfl, rfl⟩))
  · exact .inl hop
  · exact .inr (.inl ⟨sp, i, v, hop, hb, ht⟩)
  · exact .inr (.inr (.inr (by rw [ht]; exact ⟨rfl, rfl, rfl, rfl⟩)))

/-- The steps that can write a memory: the engine's, a window write outside BUSY, an EXTRACT rejected for W*H = 0, and a
reset (20_memory.md R59, R60). -/
theorem step_writes {s t : State} (h : step s = .next t) :
    (∃ u, EngineMoves s ∧ HostView s u s.program ∧ engineStep u = .next t) ∨
    (∃ sp i v rest u, s.state ≠ .busy ∧ s.program = .mwr sp i v :: rest ∧ HostView s u rest ∧
      t = writeElement sp i v u) ∨
    (∃ w rest u, s.state ≠ .busy ∧ s.program = .wr 32 0x00 w :: rest ∧ HostView s u rest ∧
      RejectedForNoPixels w u t) ∨
    (∃ rest, s.program = .reset :: rest) ∨
    SameMemories s t := by
  rcases step_next_cases h with ⟨u, hm, hu, hs⟩ | ⟨op, rest, u, hp, hv, ho, -, -⟩ | ⟨rfl, -, -⟩ | ⟨rest, u, hp, -, -⟩
  · exact .inl ⟨u, hm, hu, hs⟩
  · rcases performHost_memories ho with rfl | ⟨sp, i, v, rfl, hb, ht⟩ | ⟨w, rfl, hb, hrej⟩ | hsame
    · exact .inr (.inr (.inr (.inl ⟨rest, hp⟩)))
    · exact .inr (.inl ⟨sp, i, v, rest, u, hv.commandFrame.state ▸ hb, hp, hv, ht⟩)
    · exact .inr (.inr (.inl ⟨w, rest, u, hv.commandFrame.state ▸ hb, hp, hv, hrej⟩))
    · exact .inr (.inr (.inr (.inr (hv.sameMemories.trans hsame))))
  · exact .inr (.inr (.inr (.inr ⟨rfl, rfl, rfl, rfl⟩)))
  · exact .inr (.inr (.inr (.inl ⟨rest, hp⟩)))

/-- Setting the blue bit 0 leaves the other blue bits (42_commands.md R138). -/
theorem withBlueBit_b_ushiftRight (p : Pixel) (bit : Bit) : (withBlueBit p bit).b >>> 1 = p.b >>> 1 := by
  ext i hi
  interval_cases i <;> simp [withBlueBit]

/-- The one pixel an engine step can change is RASTER[PIX] of an EMBED, in its blue bit 0 (42_commands.md R138). -/
theorem engineStep_pixel {s t : State} {k : Nat} (h : engineStep s = .next t) (hn : pixelAt t k ≠ pixelAt s k) :
    s.op = 0x2 ∧ k = s.pix.toNat ∧ k < reqBits s ∧ ∃ bit, pixelAt t k = withBlueBit (pixelAt s k) bit := by
  rcases engineStep_memories h with ⟨hop, hlt, -, -, bit, hr⟩ | ⟨-, hr, -⟩
  · have hstore := pixelAt_store s.pix.toNat k (withBlueBit (pixelAt s s.pix.toNat) bit) s
    rw [← pixelAt_congr (t := t) hr k] at hstore
    obtain rfl : k = s.pix.toNat := by
      by_contra hne
      exact hn (hstore.trans (if_neg hne))
    exact ⟨hop, rfl, hlt, bit, hstore.trans (if_pos rfl)⟩
  · exact absurd (pixelAt_congr hr k) hn

/-- An engine step writes OUT only in an EXTRACT (42_commands.md R144). -/
theorem engineStep_out {s t : State} {k : Nat} (h : engineStep s = .next t) (hn : outAt t k ≠ outAt s k) :
    s.op = 0x3 := by
  rcases engineStep_memories h with ⟨-, -, -, ho, -⟩ | ⟨hop, -⟩
  · exact absurd (outAt_congr ho k) hn
  · exact hop

/-- Settles O53, step by step that can write: an element that differs names the step that wrote it. -/
theorem memoriesAreWrittenOnlyAsListed : Obligations.MemoriesAreWrittenOnlyAsListed := by
  intro s t h
  refine ⟨step_sizes h, fun hreset => ?_⟩
  rcases step_writes h with ⟨u, hm, hv, hs⟩ | ⟨sp, i, v, rest, u, hb, hp, hv, rfl⟩ | ⟨w, rest, u, hb, hp, hv, hrej⟩ |
    ⟨rest, hp⟩ | hsame
  · have hu := hv.sameMemories
    obtain ⟨frame, -⟩ := engineStep_frame hs
    refine ⟨fun k hn => .inr ?_, fun k hn => absurd (msgAt_congr (frame.msg.trans hu.msg) k) hn,
      fun k hn => absurd (keyAt_congr (frame.key.trans hu.key) k) hn, fun k hn => .inr (.inl ⟨hm, ?_⟩)⟩
    · rw [← pixelAt_congr hu.raster k] at hn ⊢
      obtain ⟨hop, hk, hlt, bit, hpix⟩ := engineStep_pixel hs hn
      rw [hpix]
      exact ⟨hm, hv.commandFrame.op ▸ hop, hv.commandFrame.pix ▸ hk, hv.sameOperands.reqBits ▸ hlt, rfl, rfl,
        withBlueBit_b_ushiftRight _ bit⟩
    · rw [← outAt_congr hu.out k] at hn
      exact hv.commandFrame.op ▸ engineStep_out hs hn
  · have hu := hv.sameMemories
    refine ⟨fun k hn => .inl ?_, fun k hn => ?_, fun k hn => ?_, fun k hn => .inl ?_⟩
    · rw [pixelAt_writeElement, pixelAt_congr hu.raster, ite_ne_right_iff] at hn
      obtain ⟨⟨rfl, rfl⟩, -⟩ := hn
      exact ⟨hb, v, rest, hp⟩
    · rw [msgAt_writeElement, msgAt_congr hu.msg, ite_ne_right_iff] at hn
      obtain ⟨⟨rfl, rfl⟩, -⟩ := hn
      exact ⟨hb, v, rest, hp⟩
    · rw [keyAt_writeElement, keyAt_congr hu.key, ite_ne_right_iff] at hn
      obtain ⟨⟨rfl, rfl⟩, -⟩ := hn
      exact ⟨hb, v, rest, hp⟩
    · rw [outAt_writeElement, outAt_congr hu.out, ite_ne_right_iff] at hn
      obtain ⟨⟨rfl, rfl⟩, -⟩ := hn
      exact ⟨hb, v, rest, hp⟩
  · have hu := hv.sameMemories
    exact ⟨fun k hn => absurd (pixelAt_congr (hrej.raster.trans hu.raster) k) hn,
      fun k hn => absurd (msgAt_congr (hrej.msg.trans hu.msg) k) hn,
      fun k hn => absurd (keyAt_congr (hrej.key.trans hu.key) k) hn,
      fun _ _ => .inr (.inr ⟨hb, hv.sameOperands.capacity ▸ hrej.capacity_eq, hrej.err, rest, hrej.word ▸ hp⟩)⟩
  · exact absurd hp (hreset rest)
  · exact ⟨fun k hn => absurd (pixelAt_congr hsame.raster k) hn, fun k hn => absurd (msgAt_congr hsame.msg k) hn,
      fun k hn => absurd (keyAt_congr hsame.key k) hn, fun k hn => absurd (outAt_congr hsame.out k) hn⟩

end Sys2Proof.Machine

/-! PROOFS. The family 30_encoding.md: the decoder answers each command on the one word its encoder gives, and a poll reads
STATUS until it shows another state than BUSY. -/

namespace Sys2Proof.Machine

/-! ## The command word -/

/-- The decoder answers every command on its own word (30_encoding.md R72). -/
@[simp] theorem decode_encode (i : Instr) : decode (encode i) = .ok i := by
  cases i with
  | canEmbed => exact decode_canEmbed_word
  | embed => exact decode_embed_word
  | extract => exact decode_extract_word

/-- The words the decoder answers with a given command: one (30_encoding.md R72). -/
theorem decode_eq_ok_iff {w : Word} {i : Instr} : decode w = .ok i ↔ w = encode i := by
  constructor
  · exact eq_encode_of_decode
  · rintro rfl
    exact decode_encode i

/-- Settles O3: a decoded word is its own two fields, and the encoder puts them back together. -/
theorem decodeInvertsEncode : Obligations.DecodeInvertsEncode := fun _ _ _ => decode_eq_ok_iff

/-- RSVD is looked at first (30_encoding.md R74). -/
theorem decode_eq_reservedBits {w : Word} (h : rsvdField w ≠ 0#28) : decode w = .error .reservedBits := if_pos h

/-- The opcodes of no command (30_encoding.md R74). -/
theorem decode_eq_reservedOpcode {w : Word} (hr : rsvdField w = 0#28) (ho : ∀ i, opcField w ≠ opcode i) :
    decode w = .error .reservedOpcode := by
  have h1 : opcField w ≠ 0x1#4 := ho .canEmbed
  have h2 : opcField w ≠ 0x2#4 := ho .embed
  have h3 : opcField w ≠ 0x3#4 := ho .extract
  simp only [decode, hr, h1, h2, h3, ne_eq, not_true_eq_false, if_false]

/-- Settles O1: each of the three words is a command's own, and each illegal word has a field that no command has. -/
theorem tableWordsDecode : Obligations.TableWordsDecode := by
  refine ⟨decode_encode .canEmbed, decode_encode .embed, decode_encode .extract, ?_, ?_, ?_, ?_⟩
  · exact decode_eq_reservedOpcode (by decide) (by rintro (_ | _ | _) <;> decide)
  · exact decode_eq_reservedOpcode (by decide) (by rintro (_ | _ | _) <;> decide)
  · exact decode_eq_reservedBits (by decide)
  · exact decode_eq_reservedBits (by decide)

/-- Settles O2: on a command's word the decoder gives the command, and a word that is none of the three it cannot have
decoded. -/
theorem decoderIsTheSpecsCaseSplit : Obligations.DecoderIsTheSpecsCaseSplit := by
  intro w
  split_ifs with h1 h2 h3
  · exact congrArg Except.toOption (decode_eq_ok_iff.2 h1)
  · exact congrArg Except.toOption (decode_eq_ok_iff.2 h2)
  · exact congrArg Except.toOption (decode_eq_ok_iff.2 h3)
  · cases hd : decode w with
    | error e => rfl
    | ok i =>
      have hw := decode_eq_ok_iff.1 hd
      cases i with
      | canEmbed => exact absurd hw h1
      | embed => exact absurd hw h2
      | extract => exact absurd hw h3

/-! ## The poll -/

/-- STATUS[1:0] is STATE (10_state.md R24). -/
theorem statusWord_stateBits (s : State) : (statusWord s).extractLsb' 0 2 = s.state.code := by
  unfold statusWord
  exact BitVec.extractLsb'_append_eq_right

/-- Only BUSY has the code 1 (10_state.md R25). -/
theorem code_eq_one_iff {x : EngineState} : x.code = 1 ↔ x = .busy := by
  cases x <;> decide

/-- Settles O22: both branches of a poll's one read, and the field of STATUS that decides between them. -/
theorem pollReadsUntilNotBusy : Obligations.PollReadsUntilNotBusy := by
  intro s
  refine ⟨fun hb => if_pos hb, fun hb => if_neg hb, ?_⟩
  rw [statusWord_stateBits, code_eq_one_iff]

end Sys2Proof.Machine

/-! PROOFS. The family 40_bitcodec.md: the functional forms are each other's inverse, the marker test is a test of three
bytes, and the hardware forms agree with the functional ones. -/

namespace Sys2Proof.Machine

/-! ## The bits of one byte -/

theorem bitOf_toNat (v : Byte) (i : Nat) : (bitOf v i).toNat = v.toNat / 2 ^ i % 2 := by
  simp [bitOf, BitVec.extractLsb'_toNat, Nat.shiftRight_eq_div_pow]

/-- A byte is the sum of its bits, the first as bit 7 (40_bitcodec.md R101). -/
theorem byteOfBits_toNat (b7 b6 b5 b4 b3 b2 b1 b0 : Bit) :
    (byteOfBits b7 b6 b5 b4 b3 b2 b1 b0).toNat =
      128 * b7.toNat + 64 * b6.toNat + 32 * b5.toNat + 16 * b4.toNat + 8 * b3.toNat + 4 * b2.toNat + 2 * b1.toNat +
        b0.toNat := by
  simp only [byteOfBits, toNat_append_eq_add]
  omega

/-- The eight bits of a byte, put together again. -/
theorem byteOfBits_bitOf (v : Byte) :
    byteOfBits (bitOf v 7) (bitOf v 6) (bitOf v 5) (bitOf v 4) (bitOf v 3) (bitOf v 2) (bitOf v 1) (bitOf v 0) = v := by
  apply BitVec.eq_of_toNat_eq
  rw [← Nat.mod_eq_of_lt v.isLt, byteOfBits_toNat]
  simp only [bitOf_toNat, Nat.mod_pow_succ, pow_zero, Nat.mod_one]
  ring

/-- Eight bits, put together and read back. -/
theorem byteBits_byteOfBits (b7 b6 b5 b4 b3 b2 b1 b0 : Bit) :
    byteBits (byteOfBits b7 b6 b5 b4 b3 b2 b1 b0) = [b7, b6, b5, b4, b3, b2, b1, b0] := by
  simp only [byteBits, List.cons.injEq, and_true, ← BitVec.toNat_inj, bitOf_toNat, byteOfBits_toNat]
  omega

/-- A byte is its eight bits. -/
theorem eq_of_bitOf_eq {v w : Byte} (h : ∀ i, i < 8 → bitOf v i = bitOf w i) : v = w := by
  rw [← byteOfBits_bitOf v, ← byteOfBits_bitOf w]
  simp only [h, Nat.reduceLT]

/-- The shift and mask of 40_bitcodec.md R109 pick one bit of the byte. -/
theorem serialBitOf_eq_bitOf (v : Byte) (k : Nat) : serialBitOf v k = bitOf v (7 - k % 8) := by
  ext i hi
  obtain rfl : i = 0 := by omega
  simp [serialBitOf, bitOf]

/-- Position k of a byte's bits is bit 7 - k. -/
theorem byteBits_getElem? (v : Byte) {k : Nat} (hk : k < 8) : (byteBits v)[k]? = some (bitOf v (7 - k)) := by
  unfold byteBits
  interval_cases k <;> rfl

/-! ## The serializer and its inverse -/

theorem bytesToBits_append (a b : List Byte) : bytesToBits (a ++ b) = bytesToBits a ++ bytesToBits b := by
  induction a with
  | nil => rfl
  | cons v a ih => simp [bytesToBits, ih]

@[simp] theorem length_bytesToBits (bs : List Byte) : (bytesToBits bs).length = 8 * bs.length := by
  induction bs with
  | nil => rfl
  | cons v bs ih =>
    simp only [bytesToBits, byteBits, List.length_append, List.length_cons, List.length_nil, ih]
    omega

theorem bytesToBits_getElem? (bs : List Byte) (k : Nat) :
    (bytesToBits bs)[k]? = (bs[k / 8]?).map fun v => bitOf v (7 - k % 8) := by
  induction bs generalizing k with
  | nil => simp [bytesToBits]
  | cons v bs ih =>
    rcases Nat.lt_or_ge k 8 with hk | hk
    · rw [bytesToBits, List.getElem?_append_left hk, byteBits_getElem? v hk, Nat.div_eq_of_lt hk, Nat.mod_eq_of_lt hk]
      rfl
    · obtain ⟨j, rfl⟩ := Nat.exists_eq_add_of_le' hk
      rw [bytesToBits, List.getElem?_append_right hk, Nat.add_div_right j (by decide : 0 < 8)]
      simp [byteBits, ih]

theorem bitsToBytes_bytesToBits (bs : List Byte) : bitsToBytes (bytesToBits bs) = some bs := by
  induction bs with
  | nil => rfl
  | cons v bs ih => simp [bytesToBits, byteBits, bitsToBytes, ih, byteOfBits_bitOf]

/-- The bytes a bit sequence gives have that sequence as their bits. -/
theorem bytesToBits_of_bitsToBytes {t : List Bit} {bs : List Byte} (h : bitsToBytes t = some bs) : bytesToBits bs = t := by
  induction t using bitsToBytes.induct generalizing bs with
  | case1 => cases h; rfl
  | case2 b7 b6 b5 b4 b3 b2 b1 b0 rest ih =>
    obtain ⟨cs, hcs, rfl⟩ := Option.map_eq_some_iff.1 h
    simp [bytesToBits, byteBits_byteOfBits, ih hcs]
  | case3 t h0 h8 => cases (bitsToBytes.eq_3 t h0 h8).symm.trans h

/-- Whole bytes are some byte sequence's bits (40_bitcodec.md R101). -/
theorem exists_bytesToBits_eq {t : List Bit} (h : t.length % 8 = 0) : ∃ bs, bytesToBits bs = t := by
  induction t using bitsToBytes.induct with
  | case1 => exact ⟨[], rfl⟩
  | case2 b7 b6 b5 b4 b3 b2 b1 b0 rest ih =>
    obtain ⟨bs, rfl⟩ := ih (by simp only [List.length_cons] at h; omega)
    exact ⟨byteOfBits b7 b6 b5 b4 b3 b2 b1 b0 :: bs, by rw [bytesToBits, byteBits_byteOfBits]; rfl⟩
  | case3 t h0 h8 =>
    have hl : 8 ≤ t.length := by
      have := List.length_pos_iff.2 h0
      omega
    have ht : t = t[0] :: t[1] :: t[2] :: t[3] :: t[4] :: t[5] :: t[6] :: t[7] :: t.drop 8 := by
      simp only [List.getElem_cons_drop, List.drop_zero]
    exact (h8 _ _ _ _ _ _ _ _ _ ht).elim

theorem bytesToBits_injective : Function.Injective bytesToBits := fun a b h => by
  simpa [bitsToBytes_bytesToBits] using congrArg bitsToBytes h

/-- Settles O24: the definition's two equations, and eight bits a byte. -/
theorem bytesToBitsIsMsbFirst : Obligations.BytesToBitsIsMsbFirst :=
  ⟨rfl, fun _ _ => rfl, length_bytesToBits⟩

/-- Settles O26: whole bytes are the bits of some byte sequence, which bitsToBytes then gives back. -/
theorem bitCodecLaws : Obligations.BitCodecLaws := by
  refine ⟨bitsToBytes_bytesToBits, fun t ht => ?_, bytesToBits_append, length_bytesToBits⟩
  obtain ⟨bs, rfl⟩ := exists_bytesToBits_eq ht
  rw [bitsToBytes_bytesToBits, Option.map_some]

/-- A byte is the sum of its bits, bit 7 first (40_bitcodec.md R101). -/
theorem toNat_eq_sum_bitOf (v : Byte) :
    v.toNat = ((List.range 8).map fun j => (bitOf v (7 - j)).toNat * 2 ^ (7 - j)).sum := by
  conv_lhs => rw [← byteOfBits_bitOf v, byteOfBits_toNat]
  simp only [List.range_succ, List.range_zero, List.nil_append, List.cons_append, List.map_cons, List.map_nil, List.sum_cons,
    List.sum_nil]
  ring

/-- Settles O25: the bytes given have the bits as their own, so there are eight a byte, and each byte is the sum of its
bits. -/
theorem bitsToBytesSumsEachOctet : Obligations.BitsToBytesSumsEachOctet := by
  intro t
  refine ⟨fun ht => ?_, fun ht => ?_⟩
  · refine Option.eq_none_iff_forall_ne_some.2 fun bs h => ht ?_
    rw [← bytesToBits_of_bitsToBytes h, length_bytesToBits, Nat.mul_mod_right]
  · obtain ⟨bs, rfl⟩ := exists_bytesToBits_eq ht
    refine ⟨bs, bitsToBytes_bytesToBits bs, by simp, fun i v hv => ?_⟩
    rw [toNat_eq_sum_bitOf v]
    refine congrArg List.sum (List.map_congr_left fun j hj => ?_)
    have hj : j < 8 := List.mem_range.1 hj
    have hbit : (bytesToBits bs)[8 * i + j]? = some (bitOf v (7 - j)) := by
      rw [bytesToBits_getElem?, Nat.mul_add_div (by decide), Nat.div_eq_of_lt hj, Nat.mul_add_mod, Nat.mod_eq_of_lt hj]
      simp [hv]
    rw [hbit, Option.getD_some]

/-- Settles O29: the shift and mask pick the bit that stands at that position of the byte's eight. -/
theorem serialBitAgrees : Obligations.SerialBitAgrees := by
  intro bs k
  refine ⟨?_, fun v hv => ⟨bitOf v (7 - k % 8), ?_, bitOf_toNat v _⟩⟩
  · simp only [serialBit, bytesToBits_getElem?, serialBitOf_eq_bitOf]
  · rw [serialBit, hv, Option.map_some, serialBitOf_eq_bitOf]

/-! ## The marker test -/

/-- The test reads the 24 bits before its position alone (40_bitcodec.md R104). -/
theorem isEndMarker_window (before after : List Bit) {window : List Bit} (h : window.length = 24) :
    isEndMarker (before ++ window ++ after) (before.length + 24) = some (window == endMarkerBits) := by
  have hn : (before ++ window).length = before.length + 24 := by rw [List.length_append, h]
  rw [isEndMarker, if_pos (by rw [List.length_append]; omega), List.take_left' hn, Nat.add_sub_cancel, List.drop_left]

/-- Settles O27: the marker's bits are twenty-two zeros and two ones. -/
theorem endMarkerTestReadsTheWindow : Obligations.EndMarkerTestReadsTheWindow := by
  intro before window after h
  have hm : endMarkerBits = List.replicate 22 0#1 ++ [1#1, 1#1] := by decide
  rw [isEndMarker_window before after h, hm, beq_eq_decide]

/-- A byte sequence cut around its bytes i, i+1 and i+2. -/
theorem eq_take_append_three {bs : List Byte} {i : Nat} (h : i + 2 < bs.length) :
    bs = bs.take i ++ [bs[i], bs[i + 1], bs[i + 2]] ++ bs.drop (i + 3) := by
  simp

/-- At a byte boundary the test asks for the marker's three bytes just before it (40_bitcodec.md R104). -/
theorem isEndMarker_bytesToBits (bs : List Byte) (i : Nat) :
    isEndMarker (bytesToBits bs) (8 * (i + 3)) = some true ↔ MarkerAt bs i := by
  rcases Nat.lt_or_ge (i + 2) bs.length with h | h
  · have hn : 8 * (i + 3) = (bytesToBits (bs.take i)).length + 24 := by
      rw [length_bytesToBits, List.length_take_of_le (by omega)]
      omega
    conv_lhs => rw [eq_take_append_three h, bytesToBits_append, bytesToBits_append, hn, isEndMarker_window _ _ rfl]
    have h1 : i + 1 < bs.length := Nat.lt_of_succ_lt h
    have h0 : i < bs.length := Nat.lt_of_succ_lt h1
    simp [MarkerAt, endMarkerBits, bytesToBits_injective.eq_iff, marker, h, h1, h0]
  · rw [isEndMarker, if_neg (by rw [length_bytesToBits]; omega)]
    simp [List.getElem?_eq_none h]

/-- Settles O28: the last three bytes are the marker, and eight times three bits are stripped. -/
theorem markedStreamEndsWithTheMarker : Obligations.MarkedStreamEndsWithTheMarker := by
  intro b
  have hl : (toBitsWithMarker b).length = 8 * (b.length + 3) := by
    simp [toBitsWithMarker, appendEndMarker, marker]
  refine ⟨hl, ?_, ?_⟩
  · rw [hl, toBitsWithMarker, isEndMarker_bytesToBits]
    simp [MarkerAt, appendEndMarker, marker]
  · have hs : (toBitsWithMarker b).length - 24 = (bytesToBits b).length := by
      rw [hl, length_bytesToBits]
      omega
    rw [stripMarker, if_pos (by omega), hs, toBitsWithMarker, appendEndMarker, bytesToBits_append, List.take_left]

/-- Before its end, a marked stream holds the marker's three bytes only where the payload does: no match reaches into the
marker, whose first two bytes are no 0x03 (40_bitcodec.md R113). -/
theorem markerAt_appendEndMarker {b : List Byte} {i : Nat} (h : i < b.length) :
    MarkerAt (appendEndMarker b) i ↔ MarkerAt b i := by
  unfold MarkerAt appendEndMarker
  rcases Nat.lt_or_ge (i + 2) b.length with h2 | h2
  · rw [List.getElem?_append_left h, List.getElem?_append_left (Nat.lt_of_succ_lt h2), List.getElem?_append_left h2]
  · have hz : marker[i + 2 - b.length]? = some 0x00 := by
      obtain hd | hd : i + 2 - b.length = 0 ∨ i + 2 - b.length = 1 := by omega
      all_goals rw [hd]; rfl
    rw [List.getElem?_append_right h2, hz, List.getElem?_eq_none h2]
    simp

/-- Settles O32: the test at n looks at bytes n/8 - 3 to n/8 - 1, the first of them in the payload. -/
theorem earlyMatchesLieInThePayload : Obligations.EarlyMatchesLieInThePayload := by
  intro b n h24 h8 hn
  unfold messageBitLength at hn
  have hi : n = 8 * (n / 8 - 3 + 3) := by omega
  rw [← markerAt_appendEndMarker (by omega), ← isEndMarker_bytesToBits, ← hi, toBitsWithMarker]

/-! ## The accumulator -/

/-- Shifted left with the new bits put in at the bottom: what no longer fits is dropped. -/
theorem shiftLeft_or_setWidth {w n : Nat} (x : BitVec w) (y : BitVec n) :
    (x <<< n) ||| y.setWidth w = (x ++ y).setWidth w := by
  ext i hi
  simp only [BitVec.getElem_or, BitVec.getElem_shiftLeft, BitVec.getElem_setWidth, BitVec.getLsbD_append]
  by_cases h : i < n
  · simp [h]
  · have hx : i - n < w := by omega
    simp [h, hx, BitVec.getLsbD_of_ge y i (Nat.le_of_not_lt h)]

theorem accumulate_acc (acc : Byte) (cnt : BitVec 3) (bit : Bit) :
    (accumulate acc cnt bit).acc = (acc ++ bit).setWidth 8 := by
  rw [← shiftLeft_or_setWidth]
  unfold accumulate
  split_ifs <;> rfl

/-- The bit enters ACC from below (40_bitcodec.md R110). -/
theorem accumulate_acc_toNat (acc : Byte) (cnt : BitVec 3) (bit : Bit) :
    (accumulate acc cnt bit).acc.toNat = (2 * acc.toNat + bit.toNat) % 256 := by
  rw [accumulate_acc, BitVec.toNat_setWidth, toNat_append_eq_add]
  rfl

/-- The bit taken is bit 0 of ACC (40_bitcodec.md R110). -/
theorem accumulate_bitOf_newest (acc : Byte) (cnt : BitVec 3) (bit : Bit) : bitOf (accumulate acc cnt bit).acc 0 = bit := by
  apply BitVec.eq_of_toNat_eq
  rw [bitOf_toNat, accumulate_acc_toNat]
  omega

/-- The bits in ACC move up one place (40_bitcodec.md R110). -/
theorem accumulate_bitOf_older (acc : Byte) (cnt : BitVec 3) (bit : Bit) {i : Nat} (hi : i + 1 < 8) :
    bitOf (accumulate acc cnt bit).acc (i + 1) = bitOf acc i := by
  apply BitVec.eq_of_toNat_eq
  rw [bitOf_toNat, bitOf_toNat, accumulate_acc_toNat]
  have hi : i < 7 := Nat.lt_of_succ_lt_succ hi
  interval_cases i <;> omega

/-- ACC_CNT counts the bits modulo 8 (40_bitcodec.md R110). -/
theorem accumulate_accCnt_toNat (acc : Byte) (cnt : BitVec 3) (bit : Bit) :
    (accumulate acc cnt bit).accCnt.toNat = (cnt.toNat + 1) % 8 := by
  rw [accumulate_accCnt, BitVec.toNat_add]
  rfl

/-- A byte is completed exactly when ACC_CNT comes back to 0, and it is ACC (40_bitcodec.md R110). -/
theorem accumulate_completed (acc : Byte) (cnt : BitVec 3) (bit : Bit) :
    (accumulate acc cnt bit).completed =
      if (accumulate acc cnt bit).accCnt.toNat = 0 then some (accumulate acc cnt bit).acc else none := by
  rw [accumulate_accCnt_toNat]
  by_cases h : cnt = 7#3
  · subst h
    rfl
  · have h7 : cnt.toNat ≠ 7 := BitVec.toNat_ne.1 h
    rw [(accumulate_completed_eq_none acc cnt bit).2 h, if_neg (by omega)]

theorem accumulateBits_append (a : Accumulated) (t u : List Bit) :
    accumulateBits a (t ++ u) = accumulateBits (accumulateBits a t) u := by
  induction t generalizing a with
  | nil => rfl
  | cons b t ih => exact ih _

theorem accumulateBits_accCnt_toNat (a : Accumulated) (t : List Bit) :
    (accumulateBits a t).accCnt.toNat = (a.accCnt.toNat + t.length) % 8 := by
  induction t generalizing a with
  | nil => exact (Nat.mod_eq_of_lt a.accCnt.isLt).symm
  | cons b t ih =>
    rw [accumulateBits, ih, accumulate_accCnt_toNat, List.length_cons]
    omega

theorem accumulateBits_completed (a : Accumulated) {t : List Bit} (ht : t ≠ []) :
    (accumulateBits a t).completed =
      if (accumulateBits a t).accCnt.toNat = 0 then some (accumulateBits a t).acc else none := by
  obtain ⟨u, b, rfl⟩ := (List.eq_nil_or_concat' t).resolve_left ht
  rw [accumulateBits_append]
  exact accumulate_completed _ _ b

/-- ACC holds the latest bits, the newest as bit 0 (40_bitcodec.md R110). -/
theorem accumulateBits_bitOf (a : Accumulated) (t : List Bit) {i : Nat} (hi : i < 8) (ht : i < t.length) :
    t[t.length - 1 - i]? = some (bitOf (accumulateBits a t).acc i) := by
  induction t using List.reverseRecOn generalizing i with
  | nil => exact absurd ht (Nat.not_lt_zero i)
  | append_singleton t b ih =>
    rw [accumulateBits_append, accumulateBits, accumulateBits]
    simp only [List.length_append, List.length_singleton, Nat.add_sub_cancel] at ht ⊢
    cases i with
    | zero => rw [accumulate_bitOf_newest]; simp
    | succ i =>
      rw [accumulate_bitOf_older _ _ _ hi, ← ih (by omega) (by omega), List.getElem?_append_left (by omega)]
      congr 1
      omega

/-- Eight bits shift out whatever ACC held (40_bitcodec.md R110). -/
theorem accumulateBits_byteBits_acc (a : Accumulated) (v : Byte) : (accumulateBits a (byteBits v)).acc = v := by
  refine eq_of_bitOf_eq fun i hi => Option.some_inj.1 ?_
  have hv : (byteBits v)[7 - i]? = some (bitOf v (7 - (7 - i))) := byteBits_getElem? v (by omega)
  rw [Nat.sub_sub_self (by omega)] at hv
  exact (accumulateBits_bitOf a (byteBits v) hi hi).symm.trans hv

/-- Settles O30: a byte is complete when ACC_CNT comes back to 0, which it does after eight bits and not before, and eight
bits are the bits of the byte that is then in ACC. -/
theorem accumulatorGathersAByte : Obligations.AccumulatorGathersAByte := by
  refine ⟨fun acc cnt bit => ⟨accumulate_acc_toNat acc cnt bit, ?_, fun h => ⟨?_, ?_⟩⟩, fun a t ha => ?_⟩
  · rintro rfl
    exact ⟨rfl, rfl⟩
  · have h7 : cnt.toNat ≠ 7 := BitVec.toNat_ne.1 h
    rw [accumulate_accCnt_toNat]
    omega
  · exact (accumulate_completed_eq_none acc cnt bit).2 h
  · have hcnt : (accumulateBits a t).accCnt.toNat = t.length % 8 := by rw [accumulateBits_accCnt_toNat, ha]; simp
    refine ⟨fun hl ht => ?_, fun hl => ?_⟩
    · have h0 : t.length ≠ 0 := mt List.length_eq_zero_iff.1 ht
      rw [Nat.mod_eq_of_lt hl] at hcnt
      exact ⟨by rw [accumulateBits_completed a ht, hcnt, if_neg h0], hcnt⟩
    · rw [hl] at hcnt
      obtain ⟨bs, rfl⟩ := exists_bytesToBits_eq (t := t) (by rw [hl])
      obtain ⟨v, rfl⟩ : ∃ v, bs = [v] := List.length_eq_one_iff.1 (by rw [length_bytesToBits] at hl; omega)
      refine ⟨v, bitsToBytes_bytesToBits [v], ?_, BitVec.eq_of_toNat_eq hcnt⟩
      rw [accumulateBits_completed (t := bytesToBits [v]) a (List.cons_ne_nil _ _), if_pos hcnt]
      exact congrArg some (accumulateBits_byteBits_acc a v)

/-! ## The marker window -/

theorem pushByte_win (win : BitVec 24) (n : Word) (c : Byte) : (pushByte win n c).win = (win ++ c).setWidth 24 :=
  shiftLeft_or_setWidth win c

/-- The byte pushed is the newest (40_bitcodec.md R111). -/
theorem pushByte_win_newest (win : BitVec 24) (n : Word) (c : Byte) : (pushByte win n c).win.extractLsb' 0 8 = c := by
  apply BitVec.eq_of_toNat_eq
  rw [pushByte_win, BitVec.extractLsb'_toNat, BitVec.toNat_setWidth, toNat_append_eq_add, Nat.shiftRight_zero]
  omega

/-- The bytes in the window become one place older (40_bitcodec.md R111). -/
theorem pushByte_win_older (win : BitVec 24) (n : Word) (c : Byte) {d : Nat} (hd : d < 2) :
    (pushByte win n c).win.extractLsb' (8 * (d + 1)) 8 = win.extractLsb' (8 * d) 8 := by
  apply BitVec.eq_of_toNat_eq
  rw [pushByte_win, BitVec.extractLsb'_toNat, BitVec.extractLsb'_toNat, BitVec.toNat_setWidth, toNat_append_eq_add,
    Nat.shiftRight_eq_div_pow, Nat.shiftRight_eq_div_pow]
  interval_cases d <;> omega

theorem pushByte_nbytes_toNat {n : Word} (h : n.toNat + 1 < 2 ^ 32) (win : BitVec 24) (c : Byte) :
    (pushByte win n c).nbytes.toNat = n.toNat + 1 :=
  BitVec.toNat_add_of_lt h

theorem pushByte_found (win : BitVec 24) (n : Word) (c : Byte) :
    (pushByte win n c).found = true ↔ 3 ≤ (pushByte win n c).nbytes.toNat ∧ (pushByte win n c).win = 0x000003#24 :=
  decide_eq_true_iff

/-- A byte that exists, counted from the end. -/
theorem newestByte_eq_iff {bs : List Byte} {d : Nat} (h : d < bs.length) (v : Byte) :
    newestByte bs d = v ↔ bs[bs.length - 1 - d]? = some v := by
  rw [newestByte, if_pos h, List.getElem?_eq_getElem (by omega), Option.getD_some, Option.some_inj]

theorem newestByte_concat_zero (bs : List Byte) (c : Byte) : newestByte (bs ++ [c]) 0 = c := by
  simp [newestByte]

theorem newestByte_concat_succ (bs : List Byte) (c : Byte) (d : Nat) : newestByte (bs ++ [c]) (d + 1) = newestByte bs d := by
  unfold newestByte
  rw [List.length_append, List.length_singleton]
  by_cases h : d < bs.length
  · have he : bs.length + 1 - 1 - (d + 1) = bs.length - 1 - d := by omega
    rw [if_pos h, if_pos (Nat.succ_lt_succ h), he, List.getElem?_append_left (by omega)]
  · rw [if_neg h, if_neg (mt Nat.lt_of_succ_lt_succ h)]

/-- The window holds the last three of the bytes read, and NBYTES counts them (40_bitcodec.md R111). -/
structure WindowHolds (win : BitVec 24) (n : Word) (bs : List Byte) : Prop where
  nbytes_eq : n.toNat = bs.length
  win_eq : ∀ d, d < 3 → win.extractLsb' (8 * d) 8 = newestByte bs d

theorem WindowHolds.pushByte {win : BitVec 24} {n : Word} {bs : List Byte} (h : WindowHolds win n bs) {c : Byte}
    (hl : (bs ++ [c]).length < 2 ^ 32) : WindowHolds (pushByte win n c).win (pushByte win n c).nbytes (bs ++ [c]) where
  nbytes_eq := by
    have hlen : (bs ++ [c]).length = n.toNat + 1 := by rw [List.length_append, h.nbytes_eq, List.length_singleton]
    rw [hlen] at hl ⊢
    exact pushByte_nbytes_toNat hl win c
  win_eq d hd := by
    cases d with
    | zero => rw [newestByte_concat_zero]; exact pushByte_win_newest win n c
    | succ d =>
      rw [newestByte_concat_succ, pushByte_win_older win n c (Nat.lt_of_succ_lt_succ hd)]
      exact h.win_eq d (Nat.lt_of_succ_lt hd)

/-- The window's three bytes are the marker's (40_bitcodec.md R111). -/
theorem win_eq_marker_iff (win : BitVec 24) :
    win = 0x000003#24 ↔
      win.extractLsb' (8 * 2) 8 = 0x00#8 ∧ win.extractLsb' (8 * 1) 8 = 0x00#8 ∧ win.extractLsb' (8 * 0) 8 = 0x03#8 := by
  simp only [← BitVec.toNat_inj, BitVec.extractLsb'_toNat, BitVec.toNat_ofNat, Nat.shiftRight_eq_div_pow]
  omega

/-- The window finds the marker exactly when the source's test does (40_bitcodec.md R111). -/
theorem WindowHolds.found_iff {win : BitVec 24} {n : Word} {bs : List Byte} (h : WindowHolds win n bs) :
    (3 ≤ n.toNat ∧ win = 0x000003#24) ↔ isEndMarker (bytesToBits bs) (8 * bs.length) = some true := by
  rw [h.nbytes_eq]
  rcases Nat.lt_or_ge bs.length 3 with hl | hl
  · rw [isEndMarker, if_neg (by omega)]
    simp [hl]
  · obtain ⟨i, hi⟩ := Nat.exists_eq_add_of_le' hl
    rw [win_eq_marker_iff, h.win_eq 2 (by decide), h.win_eq 1 (by decide), h.win_eq 0 (by decide),
      newestByte_eq_iff (by omega), newestByte_eq_iff (by omega), newestByte_eq_iff (by omega), hi, isEndMarker_bytesToBits]
    simp [MarkerAt]

theorem windowHolds_empty : WindowHolds emptyWindow.win emptyWindow.nbytes [] where
  nbytes_eq := rfl
  win_eq d _ := by simp [emptyWindow, newestByte]

theorem pushBytes_append (q : Pushed) (cs ds : List Byte) : pushBytes q (cs ++ ds) = pushBytes (pushBytes q cs) ds := by
  induction cs generalizing q with
  | nil => rfl
  | cons c cs ih => exact ih _

theorem windowHolds_pushBytes {cs : List Byte} (h : cs.length < 2 ^ 32) :
    WindowHolds (pushBytes emptyWindow cs).win (pushBytes emptyWindow cs).nbytes cs := by
  induction cs using List.reverseRecOn with
  | nil => exact windowHolds_empty
  | append_singleton cs c ih =>
    rw [pushBytes_append]
    have hc : cs.length < 2 ^ 32 := by
      rw [List.length_append] at h
      omega
    exact (ih hc).pushByte h

/-- Settles O31: one push's rules, and every push keeps the last three bytes in the window. -/
theorem markerDetectorAgrees : Obligations.MarkerDetectorAgrees := by
  refine ⟨fun win n c hn => ⟨rfl, decide_eq_true_iff, ?_, pushByte_nbytes_toNat hn win c, ?_⟩, fun cs c hl => ?_⟩
  · rw [pushByte_win, BitVec.toNat_setWidth, toNat_append_eq_add]
  · rw [pushByte_found, pushByte_nbytes_toNat hn]
  · have h := windowHolds_pushBytes hl
    refine ⟨h.nbytes_eq, h.win_eq, ?_⟩
    rw [← h.found_iff, pushBytes_append]
    exact pushByte_found _ _ c

end Sys2Proof.Machine

/-! PROOFS. The family 41_xor.md: `xorCyclic_eq_some_iff` says once what the stage computes, byte by byte; each claim reads
it off. -/

namespace Sys2Proof.Machine

/-! ## What the stage computes -/

@[simp] theorem length_xorFrom (k : List Byte) (pad : Byte) (start : Nat) (b : List Byte) :
    (xorFrom k pad start b).length = b.length := by
  induction b generalizing start with
  | nil => rfl
  | cons v b ih => exact congrArg (· + 1) (ih (start + 1))

/-- Byte i of the result, where the key has a byte for it (41_xor.md R120). -/
theorem xorFrom_getElem? {k b : List Byte} {pad : Byte} {start i : Nat} {v x : Byte} (hv : b[i]? = some v)
    (hx : k[(start + i) % k.length]? = some x) : (xorFrom k pad start b)[i]? = some (v ^^^ x) := by
  induction b generalizing start i with
  | nil => cases hv
  | cons u b ih =>
    cases i with
    | zero =>
      obtain rfl : u = v := Option.some_inj.1 hv
      rw [Nat.add_zero] at hx
      simp [xorFrom, hx]
    | succ i => exact ih hv (by rwa [Nat.add_right_comm])

/-- A non-empty key has a byte for every position (41_xor.md R120). -/
theorem exists_keyByte {k : List Byte} (hk : k ≠ []) (i : Nat) : ∃ x, k[i % k.length]? = some x :=
  ⟨_, List.getElem?_eq_getElem (Nat.mod_lt i (List.length_pos_iff.2 hk))⟩

/-- A sequence has a byte wherever one of the same length has one. -/
theorem exists_getElem?_of_length_eq {b r : List Byte} (h : r.length = b.length) {i : Nat} {w : Byte} (hw : r[i]? = some w) :
    ∃ v, b[i]? = some v :=
  ⟨_, List.getElem?_eq_getElem (h ▸ (List.getElem?_eq_some_iff.1 hw).1)⟩

/-- `r` is as long as `b` and its byte i is `b[i] XOR k[i mod len(k)]` (41_xor.md R120). -/
structure XorsBytewise (b k r : List Byte) : Prop where
  length_eq : r.length = b.length
  byte_eq : ∀ (i : Nat) (v x : Byte), b[i]? = some v → k[i % k.length]? = some x → r[i]? = some (v ^^^ x)

/-- On a non-empty key the bytewise description fixes the result. -/
theorem XorsBytewise.unique {b k r r' : List Byte} (hk : k ≠ []) (hr : XorsBytewise b k r) (hr' : XorsBytewise b k r') :
    r = r' := by
  refine List.ext_getElem (hr.length_eq.trans hr'.length_eq.symm) fun i h h' => ?_
  obtain ⟨x, hx⟩ := exists_keyByte hk i
  obtain ⟨v, hv⟩ := exists_getElem?_of_length_eq hr.length_eq (List.getElem?_eq_getElem h)
  rw [← Option.some_inj, ← List.getElem?_eq_getElem h, ← List.getElem?_eq_getElem h', hr.byte_eq i v x hv hx,
    hr'.byte_eq i v x hv hx]

theorem xorsBytewise_xorFrom (k : List Byte) (pad : Byte) (b : List Byte) : XorsBytewise b k (xorFrom k pad 0 b) where
  length_eq := length_xorFrom k pad 0 b
  byte_eq i v x hv hx := xorFrom_getElem? hv (by rwa [Nat.zero_add])

/-- The stage gives the bytewise XOR, and nothing on an empty key (41_xor.md R120). -/
theorem xorCyclic_eq_some_iff {b k r : List Byte} : xorCyclic b k = some r ↔ k ≠ [] ∧ XorsBytewise b k r := by
  cases k with
  | nil => simp [xorCyclic]
  | cons k0 ks =>
    have hk : k0 :: ks ≠ [] := List.cons_ne_nil k0 ks
    have hx := xorsBytewise_xorFrom (k0 :: ks) k0 b
    constructor
    · rintro ⟨⟩
      exact ⟨hk, hx⟩
    · rintro ⟨-, hr⟩
      exact congrArg some (hx.unique hk hr)

theorem exists_xorCyclic_eq_some {k : List Byte} (hk : k ≠ []) (b : List Byte) : ∃ r, xorCyclic b k = some r := by
  cases k with
  | nil => exact absurd rfl hk
  | cons k0 ks => exact ⟨_, rfl⟩

/-! ## The claims -/

/-- Settles O33: a non-empty key gives a result, and a result is the bytewise XOR. -/
theorem xorCyclicBytes : Obligations.XorCyclicBytes := by
  refine fun b k => ⟨?_, fun hk => ?_⟩
  · rintro rfl
    rfl
  · obtain ⟨r, hr⟩ := exists_xorCyclic_eq_some hk b
    obtain ⟨-, hlen, hbyte⟩ := xorCyclic_eq_some_iff.1 hr
    exact ⟨r, hr, hlen, hbyte⟩

/-- Bytewise, (v XOR x) XOR x = v (41_xor.md R121). -/
theorem XorsBytewise.symm {b k r : List Byte} (h : XorsBytewise b k r) : XorsBytewise r k b where
  length_eq := h.length_eq.symm
  byte_eq i w x hw hx := by
    obtain ⟨v, hv⟩ := exists_getElem?_of_length_eq h.length_eq hw
    obtain rfl : w = v ^^^ x := Option.some_inj.1 (hw.symm.trans (h.byte_eq i v x hv hx))
    rw [hv, BitVec.xor_assoc, BitVec.xor_self, BitVec.xor_zero]

/-- Settles O34: the bytewise XOR is its own inverse. -/
theorem xorIsAnInvolution : Obligations.XorIsAnInvolution := by
  intro b k r h
  obtain ⟨hk, hr⟩ := xorCyclic_eq_some_iff.1 h
  exact xorCyclic_eq_some_iff.2 ⟨hk, hr.symm⟩

/-- Two key bytes cancel exactly when they are equal (41_xor.md R123). -/
theorem xor_xor_eq_self_iff (v x y : Byte) : v ^^^ x ^^^ y = v ↔ x = y :=
  calc v ^^^ x ^^^ y = v ↔ v ^^^ (x ^^^ y) = v ^^^ 0#8 := by rw [BitVec.xor_assoc, BitVec.xor_zero]
    _ ↔ x ^^^ y = 0#8 := BitVec.xor_right_inj v
    _ ↔ x = y := BitVec.xor_eq_zero_iff

/-- Settles O35: byte i is the message byte XORed with both key bytes, which cancel exactly when they are equal. -/
theorem wrongKeyGarblesBytewise : Obligations.WrongKeyGarblesBytewise := by
  intro m k1 k2 r g hr hg
  obtain ⟨-, hr⟩ := xorCyclic_eq_some_iff.1 hr
  obtain ⟨-, hg⟩ := xorCyclic_eq_some_iff.1 hg
  refine ⟨hg.length_eq.trans hr.length_eq, fun i v x y hv hx hy => ?_⟩
  rw [hg.byte_eq i _ y (hr.byte_eq i v x hv hx) hy, Option.some_inj, xor_xor_eq_self_iff]

/-- Settles O36: every key byte is 0x00, and v XOR 0x00 = v. -/
theorem zeroKeyIsTheIdentity : Obligations.ZeroKeyIsTheIdentity := by
  refine fun b => xorCyclic_eq_some_iff.2 ⟨List.cons_ne_nil _ _, rfl, fun i v x hv hx => ?_⟩
  obtain rfl : 0x00#8 = x := by simpa [Nat.mod_one] using hx
  rw [hv, BitVec.xor_zero]

end Sys2Proof.Machine

/-! PROOFS. The family 42_commands.md, acceptance: what the write of each command's word does, check by check. -/

namespace Sys2Proof.Machine

/-! ## The acceptance of each command -/

/-- Outside BUSY a word written to CMD is accepted (42_commands.md R130). -/
theorem issue_of_not_busy {s : State} (hb : s.state ≠ .busy) (w : Word) (effect : State → State) :
    issue w effect s = effect (acceptWord w s) := if_neg hb

theorem exec_canEmbed {s : State} (hb : s.state ≠ .busy) :
    exec .canEmbed s = .next (canEmbedEffect (acceptWord (encode .canEmbed) s)) :=
  congrArg Host.Outcome.next (issue_of_not_busy hb _ _)

theorem exec_embed {s : State} (hb : s.state ≠ .busy) :
    exec .embed s = .next (embedEffect (acceptWord (encode .embed) s)) :=
  congrArg Host.Outcome.next (issue_of_not_busy hb _ _)

theorem exec_extract {s : State} (hb : s.state ≠ .busy) :
    exec .extract s = .next (extractEffect (acceptWord (encode .extract) s)) :=
  congrArg Host.Outcome.next (issue_of_not_busy hb _ _)

/-- EMBED's checks with the error each of them raises (42_commands.md R131). -/
theorem embedEffect_eq (s : State) :
    embedEffect s =
      if s.sizes.pMax < capacity s ∨ s.sizes.mMax < s.msgLen.toNat ∨ s.sizes.kMax < s.keyLen.toNat then raise .badLength s
      else if s.keyLen.toNat = 0 then raise .keyEmpty s
      else if capacity s < reqBits s then raise .capacityExceeded s
      else startBusy s := by
  unfold embedEffect validateEmbed
  split_ifs <;> rfl

/-- EXTRACT's checks with the error each of them raises (42_commands.md R132, R143). -/
theorem extractEffect_eq (s : State) :
    extractEffect s =
      if s.sizes.pMax < capacity s ∨ s.sizes.kMax < s.keyLen.toNat then raise .badLength (clearOutLen s)
      else if s.keyLen.toNat = 0 then raise .keyEmpty (clearOutLen s)
      else if capacity s = 0 then scanMissed s
      else startBusy (clearOutLen s) := by
  unfold extractEffect validateExtract
  split_ifs <;> rfl

/-- Settles O9: CAN_EMBED runs whole at acceptance, and checks nothing. -/
theorem canEmbedSetsFits : Obligations.CanEmbedSetsFits := fun _ hb => exec_canEmbed hb

/-- Settles O10: the checks are looked at after the acceptance, which leaves the operands. -/
theorem embedChecksInOrder : Obligations.EmbedChecksInOrder := by
  intro s hb
  rw [exec_embed hb, embedEffect_eq]
  rfl

/-- Settles O11: as for EMBED, with OUT_LEN cleared whatever the checks say. -/
theorem extractChecksInOrder : Obligations.ExtractChecksInOrder := by
  intro s hb
  rw [exec_extract hb, extractEffect_eq]
  rfl

/-! ## The acceptance of any word -/

theorem performHost_writeCmd (w : Word) (s : State) : performHost (.wr 32 0x00 w) s = writeCmd w s := rfl

/-- Settles O12: a word of no command does not decode. -/
theorem illegalWordEndsInError : Obligations.IllegalWordEndsInError := by
  intro s w hb h1 h2 h3
  rw [performHost_writeCmd, writeCmd_eq, if_neg hb]
  cases hd : decode w with
  | error e => rfl
  | ok i =>
    have hw := decode_eq_ok_iff.1 hd
    cases i with
    | canEmbed => exact absurd hw h1
    | embed => exact absurd hw h2
    | extract => exact absurd hw h3

/-- Settles O13, outcome by outcome of `accept_cases`. -/
theorem acceptanceFrame : Obligations.AcceptanceFrame := by
  intro s w hb
  obtain ⟨t, ht⟩ := performHost_next (.wr 32 0x00 w) s
  refine ⟨t, ht, ?_⟩
  rcases accept_cases hb (Host.Outcome.next.inj (ht.symm.trans (writeCmd_eq w s))) with ⟨hd, rfl⟩ | ⟨e, hd, -, rfl⟩ |
    ⟨hd, -, rfl⟩ | ⟨e, hd, -, -, rfl⟩ | ⟨hd, -, rfl⟩ | ⟨hd, -, rfl⟩ | ⟨-, rfl⟩
  · obtain rfl := eq_encode_of_decode hd
    exact ⟨rfl, rfl, rfl, rfl, rfl, rfl, rfl, fun _ => rfl, fun hw => absurd rfl hw, fun _ => rfl, .inl rfl, rfl⟩
  · obtain rfl := eq_encode_of_decode hd
    exact ⟨rfl, rfl, rfl, rfl, rfl, rfl, rfl, fun he => absurd rfl he, fun _ => rfl, fun _ => rfl, .inl rfl, rfl⟩
  · obtain rfl := eq_encode_of_decode hd
    exact ⟨rfl, rfl, rfl, rfl, rfl, rfl, rfl, fun _ => rfl, fun _ => rfl, fun _ => rfl, .inl rfl, rfl⟩
  · obtain rfl := eq_encode_of_decode hd
    exact ⟨rfl, rfl, rfl, rfl, rfl, rfl, rfl, fun he => absurd rfl he, fun _ => rfl, fun hw => absurd rfl hw, .inl rfl, rfl⟩
  · obtain rfl := eq_encode_of_decode hd
    exact ⟨rfl, rfl, rfl, rfl, rfl, rfl, rfl, fun he => absurd rfl he, fun _ => rfl, fun hw => absurd rfl hw,
      .inr ⟨rfl, rfl, rfl⟩, rfl⟩
  · obtain rfl := eq_encode_of_decode hd
    exact ⟨rfl, rfl, rfl, rfl, rfl, rfl, rfl, fun _ => rfl, fun _ => rfl, fun hw => absurd rfl hw, .inl rfl, rfl⟩
  · exact ⟨rfl, rfl, rfl, rfl, rfl, rfl, rfl, fun he => absurd rfl he, fun _ => rfl, fun _ => rfl, .inl rfl, rfl⟩

/-- Settles O14: FITS is EMBED's last check. -/
theorem fitsPredictsEmbed : Obligations.FitsPredictsEmbed := by
  intro s u hs hu hw hh hl
  refine ⟨_, _, exec_canEmbed hs, exec_embed hu, fun hfits hp hm hk0 hk => ?_, fun hfits => ?_⟩
  · have hle : reqBits s ≤ capacity s := of_decide_eq_true hfits
    have hchecked : validateEmbed (acceptWord (encode .embed) u) = none :=
      validateEmbed_eq_none.2 ⟨hp, hm, hk, Nat.ne_of_gt hk0, by
        simpa only [capacity, reqBits, acceptWord_width, acceptWord_height, acceptWord_msgLen, hw, hh, hl] using hle⟩
    rw [embedEffect, hchecked]
    rfl
  · have hlt : capacity (acceptWord (encode .embed) u) < reqBits (acceptWord (encode .embed) u) := by
      have hlt : ¬ reqBits s ≤ capacity s := of_decide_eq_false hfits
      simpa only [capacity, reqBits, acceptWord_width, acceptWord_height, acceptWord_msgLen, hw, hh, hl, not_le] using hlt
    rw [embedEffect_eq, if_pos hlt]
    split_ifs with hsize hkey
    · exact ⟨rfl, .inl ⟨rfl, hsize⟩⟩
    · exact ⟨rfl, .inr (.inl ⟨rfl, hkey⟩)⟩
    · obtain ⟨hp, hm, hk⟩ : _ ∧ _ ∧ _ := by simpa only [not_or, not_lt] using hsize
      exact ⟨rfl, .inr (.inr ⟨rfl, hp, hm, hk, hkey⟩)⟩

end Sys2Proof.Machine

/-! PROOFS. The family 42_commands.md, EMBED: its stream, its step, and what a run of it leaves under every interleaving.
`step_while_busy` names what can happen in BUSY; `CommandEnds.induct` carries an invariant to the end of a command. -/

namespace Sys2Proof.Machine

/-! ## The embed stream -/

@[simp] theorem length_message (s : State) : (message s).length = s.msgLen.toNat := by simp [message]

@[simp] theorem length_keyBytes (s : State) : (keyBytes s).length = s.keyLen.toNat := by simp [keyBytes]

theorem message_getElem? {s : State} {j : Nat} (hj : j < s.msgLen.toNat) : (message s)[j]? = some (msgAt s j) := by
  simp [message, hj]

theorem keyBytes_getElem? {s : State} {j : Nat} (hj : j < s.keyLen.toNat) : (keyBytes s)[j]? = some (keyAt s j) := by
  simp [keyBytes, hj]

/-- The key byte of position j, KEY[j mod KL] (41_xor.md R120). -/
theorem keyBytes_cyclic {s : State} (hk : s.keyLen.toNat ≠ 0) (j : Nat) :
    (keyBytes s)[j % (keyBytes s).length]? = some (keyAt s (j % s.keyLen.toNat)) := by
  rw [length_keyBytes]
  exact keyBytes_getElem? (Nat.mod_lt j (Nat.pos_of_ne_zero hk))

theorem keyBytes_ne_nil {s : State} : keyBytes s ≠ [] ↔ s.keyLen.toNat ≠ 0 := by
  rw [← List.length_eq_zero_iff.ne, length_keyBytes]

/-- The obfuscated message, byte by byte (42_commands.md R134). -/
theorem payload_getElem? {s : State} {payload : List Byte} (hx : xorCyclic (message s) (keyBytes s) = some payload)
    {j : Nat} (hj : j < s.msgLen.toNat) : payload[j]? = some (msgAt s j ^^^ keyAt s (j % s.keyLen.toNat)) := by
  obtain ⟨hk, hp⟩ := xorCyclic_eq_some_iff.1 hx
  exact hp.byte_eq j _ _ (message_getElem? hj) (keyBytes_cyclic (keyBytes_ne_nil.1 hk) j)

theorem length_payload {s : State} {payload : List Byte} (hx : xorCyclic (message s) (keyBytes s) = some payload) :
    payload.length = s.msgLen.toNat :=
  (xorCyclic_eq_some_iff.1 hx).2.length_eq.trans (length_message s)

theorem embedStream_eq_some {s : State} {st : List Byte} :
    embedStream s = some st ↔ ∃ payload, xorCyclic (message s) (keyBytes s) = some payload ∧ appendEndMarker payload = st :=
  Option.map_eq_some_iff

/-- The stream is eight bits a byte, and three marker bytes follow the payload (42_commands.md R134). -/
theorem length_bits_embedStream {s : State} {st : List Byte} (h : embedStream s = some st) :
    (bytesToBits st).length = reqBits s := by
  obtain ⟨payload, hx, rfl⟩ := embedStream_eq_some.1 h
  rw [length_bytesToBits, appendEndMarker, List.length_append, length_payload hx]
  exact Nat.mul_add 8 _ 3

/-- The engine's stream byte is the source's (42_commands.md R134). -/
theorem streamByte_eq_embedStream {s : State} {st : List Byte} (h : embedStream s = some st) {j : Nat}
    (hj : j < s.msgLen.toNat + 3) (hm : s.msgLen.toNat ≤ s.sizes.mMax) (hk : s.keyLen.toNat ≤ s.sizes.kMax) :
    ∃ v, streamByte s j = .ok v ∧ st[j]? = some v := by
  obtain ⟨payload, hx, rfl⟩ := embedStream_eq_some.1 h
  have hlen := length_payload hx
  have hk0 := keyBytes_ne_nil.1 (xorCyclic_eq_some_iff.1 hx).1
  by_cases hpay : j < s.msgLen.toNat
  · refine ⟨_, streamByte_payload hpay hm hk hk0, ?_⟩
    rw [appendEndMarker, List.getElem?_append_left (hlen ▸ hpay), payload_getElem? hx hpay]
  · obtain ⟨i, rfl⟩ := Nat.exists_eq_add_of_le (Nat.not_lt.1 hpay)
    have hi := List.getElem?_eq_getElem (show i < marker.length from Nat.lt_of_add_lt_add_left hj)
    refine ⟨_, streamByte_marker hi, ?_⟩
    rw [appendEndMarker, List.getElem?_append_right (hlen ▸ Nat.le_add_right _ i), hlen, Nat.add_sub_cancel_left, hi]

/-- The engine's stream bit is the source's (42_commands.md R134). -/
theorem streamBit_eq_embedStream {s : State} {st : List Byte} (h : embedStream s = some st) {k : Nat} (hk : k < reqBits s)
    (hm : s.msgLen.toNat ≤ s.sizes.mMax) (hkl : s.keyLen.toNat ≤ s.sizes.kMax) :
    ∃ v, streamByte s (k / 8) = .ok v ∧ streamBit s k = .ok (bitOf v (7 - k % 8)) ∧
      (bytesToBits st)[k]? = some (bitOf v (7 - k % 8)) := by
  have hbyte : k / 8 < s.msgLen.toNat + 3 := by
    unfold reqBits messageBitLength at hk
    omega
  obtain ⟨v, hv, hst⟩ := streamByte_eq_embedStream h hbyte hm hkl
  refine ⟨v, hv, ?_, ?_⟩
  · simp only [streamBit, hv, serialBitOf_eq_bitOf]
  · rw [bytesToBits_getElem?, hst, Option.map_some]

/-- A key of at least one byte gives a stream (42_commands.md R134). -/
theorem exists_embedStream {s : State} (hk : s.keyLen.toNat ≠ 0) :
    ∃ payload, xorCyclic (message s) (keyBytes s) = some payload ∧ embedStream s = some (appendEndMarker payload) := by
  obtain ⟨payload, hx⟩ := exists_xorCyclic_eq_some (keyBytes_ne_nil.2 hk) (message s)
  exact ⟨payload, hx, embedStream_eq_some.2 ⟨payload, hx, rfl⟩⟩

/-- Settles O37: payload bytes and marker bytes, and the bits of the source's bytes. -/
theorem embedStreamIsTheSourcesBitstream : Obligations.EmbedStreamIsTheSourcesBitstream := by
  intro s hm hk hk0
  obtain ⟨payload, hx, hst⟩ := exists_embedStream hk0
  refine ⟨rfl, fun j hj => ?_, payload, hx, hst, length_bits_embedStream hst, fun k hk' => ?_⟩
  · split_ifs with hpay hlast
    · exact streamByte_payload hpay hm hk hk0
    · rw [hlast]
      exact streamByte_marker rfl
    · obtain rfl | rfl : j = s.msgLen.toNat + 0 ∨ j = s.msgLen.toNat + 1 := by omega
      · exact streamByte_marker rfl
      · exact streamByte_marker rfl
  · obtain ⟨v, hv, hbit, hsrc⟩ := streamBit_eq_embedStream hst hk' hm hk
    exact ⟨v, _, hv, hbit, bitOf_toNat v _, hsrc⟩

/-! ## One step of EMBED -/

/-- PIX is a 32-bit counter and W*H fits it (10_state.md R34). -/
theorem toNat_pix_succ {s : State} (h : s.pix.toNat < capacity s) : (s.pix + 1#32).toNat = s.pix.toNat + 1 := by
  have hcap := capacity_lt s
  exact BitVec.toNat_add_of_lt (show s.pix.toNat + 1 < 2 ^ 32 by omega)

theorem EmbedRunning.pix_lt_capacity {s : State} (r : EmbedRunning s) : s.pix.toNat < capacity s := by
  obtain ⟨-, -, -, -, hreq⟩ := validateEmbed_eq_none.1 r.checked
  exact r.pix_lt.trans_le hreq

/-- The step of an EMBED in progress (42_commands.md R138). -/
theorem EmbedRunning.engineStep_eq {s : State} (r : EmbedRunning s) :
    ∃ bit, streamBit s s.pix.toNat = .ok bit ∧ engineStep s = .next (embedWrite (pixelAt s s.pix.toNat) bit s) := by
  obtain ⟨t, h⟩ := r.embedStep_next
  obtain ⟨-, -, bit, hbit, rfl⟩ := embedStep_eq_next.1 h
  exact ⟨bit, hbit, engineStep_eq_next.2 (.inl ⟨r.op, h⟩)⟩

theorem pixelAt_embedWrite (p : Pixel) (bit : Bit) (s : State) (j : Nat) :
    pixelAt (embedWrite p bit s) j = if j = s.pix.toNat then withBlueBit p bit else pixelAt s j :=
  (pixelAt_congr rfl j).trans (pixelAt_store s.pix.toNat j (withBlueBit p bit) s)

/-- Settles O38: the step is `embedWrite`, field by field. -/
theorem embedStepWritesOnePixel : Obligations.EmbedStepWritesOnePixel := by
  intro s r
  obtain ⟨bit, hbit, h⟩ := r.engineStep_eq
  refine ⟨_, bit, hbit, h, rfl, toNat_pix_succ r.pix_lt_capacity, ?_, fun j => ?_⟩
  · rw [embedWrite_state, r.busy]
    rfl
  · rw [pixelAt_embedWrite]
    split_ifs with hj
    · rw [hj]
      rfl
    · rfl

/-! ## What can happen in BUSY -/

/-- Nothing but LOST and what is not the block's may differ. -/
def BlockKept (s t : State) : Prop :=
  t = { s with
    lost := t.lost, refusal := t.refusal, program := t.program, turns := t.turns, draws := t.draws, answers := t.answers }

theorem HostView.blockKept {s u : State} {rest : List HostOp} (h : HostView s u rest) : BlockKept s u := by
  unfold BlockKept
  rw [h]

theorem BlockKept.trans {s u t : State} (h : BlockKept s u) (h' : BlockKept u t) : BlockKept s t :=
  Eq.trans h' (by rw [h])

theorem BlockKept.commandFrame {s t : State} (h : BlockKept s t) : CommandFrame s t := by
  rw [h]; constructor <;> rfl

theorem BlockKept.sameOperands {s t : State} (h : BlockKept s t) : SameOperands s t := by
  rw [h]; constructor <;> rfl

/-- LOST is as before, unless the program has a register write (10_state.md R37); and the program shrinks, but for a poll
read again. -/
structure ProgramUsed (s t : State) : Prop where
  program : ∀ op ∈ t.program, op ∈ s.program
  lost : t.lost = s.lost ∨ ∃ width off v, .wr width off v ∈ s.program

theorem ProgramUsed.trans {s u t : State} (h : ProgramUsed s u) (h' : ProgramUsed u t) : ProgramUsed s t where
  program op hop := h.program op (h'.program op hop)
  lost := by
    rcases h'.lost with hl | ⟨width, off, v, hw⟩
    · rw [hl]; exact h.lost
    · exact .inr ⟨width, off, v, h.program _ hw⟩

theorem programUsed_of_eq {s t : State} (hp : t.program = s.program) (hl : t.lost = s.lost) : ProgramUsed s t :=
  ⟨fun _ => hp ▸ id, .inl hl⟩

/-- A host item short of a reset, in BUSY, leaves the block but for LOST (43_host_bus.md R171 to R177). -/
theorem performHost_while_busy {op : HostOp} {rest : List HostOp} {s u t : State} (hp : s.program = op :: rest)
    (hv : HostView s u rest) (hb : u.state = .busy) (h : performHost op u = .next t) :
    op = .reset ∧ t.state = .idle ∨ BlockKept u t ∧ ProgramUsed s t := by
  have hrest : ∀ o ∈ u.program, o ∈ s.program := by
    rw [hv, hp]
    exact fun o ho => List.mem_cons_of_mem op ho
  have hop : op ∈ s.program := hp ▸ List.mem_cons_self
  rcases performHost_cases h with ⟨w, rfl, rfl⟩ | ⟨off, v, -, rfl, ⟨-, rfl⟩ | ⟨hb', -⟩⟩ | ⟨v, rfl, rfl⟩ | ⟨rfl, rfl⟩ |
    ⟨sp, i, v, -, -, hb', -⟩ | ⟨ht, hprog⟩
  · rw [if_pos hb]
    exact .inr ⟨rfl, hrest, .inr ⟨_, _, _, hop⟩⟩
  · exact .inr ⟨rfl, hrest, .inr ⟨_, _, _, hop⟩⟩
  · exact absurd hb hb'
  · exact .inr ⟨rfl, hrest, .inr ⟨_, _, _, hop⟩⟩
  · exact .inl ⟨rfl, rfl⟩
  · exact absurd hb hb'
  · refine .inr ⟨by rw [ht]; rfl, ?_, .inl ?_⟩
    · rcases hprog with e | ⟨rfl, -, e⟩
      · rwa [e]
      · rw [e]
        exact List.forall_mem_cons.2 ⟨hop, hrest⟩
    · rw [ht]
      exact hv.lost

/-- A step in BUSY is the engine's, or a reset, or leaves the block but for LOST (43_host_bus.md R170, R176). -/
theorem step_while_busy {s t : State} (hb : s.state = .busy) (h : step s = .next t) :
    (∃ u, BlockKept s u ∧ ProgramUsed s u ∧ engineStep u = .next t) ∨
    (∃ rest, s.program = .reset :: rest ∧ t.state = .idle) ∨
    (BlockKept s t ∧ ProgramUsed s t) := by
  rcases step_next_cases h with ⟨u, -, hu, hs⟩ | ⟨op, rest, u, hp, hv, hs, -, -⟩ | ⟨-, hb', -⟩ | ⟨rest, u, hp, -, rfl⟩
  · exact .inl ⟨u, HostView.blockKept (rest := s.program) hu, by rw [hu]; exact programUsed_of_eq rfl rfl, hs⟩
  · rcases performHost_while_busy hp hv (hv.commandFrame.state.trans hb) hs with ⟨rfl, hi⟩ | ⟨hk, hu⟩
    · exact .inr (.inl ⟨rest, hp, hi⟩)
    · exact .inr (.inr ⟨hv.blockKept.trans hk, hu⟩)
  · exact absurd hb hb'
  · exact .inr (.inl ⟨rest, hp, rfl⟩)

/-! ## An EMBED in progress -/

theorem BlockKept.embedRunning {s t : State} (h : BlockKept s t) (r : EmbedRunning s) : EmbedRunning t :=
  r.congr h.commandFrame h.sameOperands

theorem BlockKept.embedProgress {ras : Nat → Pixel} {st : List Byte} {s t : State} (h : BlockKept s t)
    (p : EmbedProgress ras st s) : EmbedProgress ras st t := by
  rw [h]
  exact ⟨p.stream, p.written, p.untouched⟩

/-- The step of an EMBED in progress writes one more bit of its stream (42_commands.md R138, R139). -/
theorem EmbedProgress.step {ras : Nat → Pixel} {st : List Byte} {s : State} (p : EmbedProgress ras st s)
    (r : EmbedRunning s) : ∃ bit, engineStep s = .next (embedWrite (pixelAt s s.pix.toNat) bit s) ∧
      EmbedProgress ras st (embedWrite (pixelAt s s.pix.toNat) bit s) := by
  obtain ⟨bit, hbit, h⟩ := r.engineStep_eq
  obtain ⟨-, hm, hk, -, -⟩ := validateEmbed_eq_none.1 r.checked
  obtain ⟨v, -, hv, hsrc⟩ := streamBit_eq_embedStream p.stream r.pix_lt hm hk
  obtain rfl : bit = bitOf v (7 - s.pix.toNat % 8) := Except.ok.inj (hbit.symm.trans hv)
  have hpix := toNat_pix_succ r.pix_lt_capacity
  refine ⟨_, h, p.stream, fun k b hlt hb => ?_, fun k hle => ?_⟩
  · rw [embedWrite_pix, hpix] at hlt
    rw [pixelAt_embedWrite]
    split_ifs with hk'
    · obtain rfl : b = bitOf v (7 - s.pix.toNat % 8) := Option.some_inj.1 (hb.symm.trans (hk' ▸ hsrc))
      rw [hk', p.untouched _ le_rfl]
    · exact p.written k b (by omega) hb
  · rw [embedWrite_pix, hpix] at hle
    rw [pixelAt_embedWrite, if_neg (by omega)]
    exact p.untouched k (by omega)

/-- The step that writes the last bit ends the command; any other leaves it running (42_commands.md R139). -/
theorem EmbedRunning.embedWrite_cases {s : State} (r : EmbedRunning s) (p : Pixel) (bit : Bit) :
    EmbedRunning (embedWrite p bit s) ∨
      (embedWrite p bit s).state = .doneOk ∧ (embedWrite p bit s).pix.toNat = reqBits s := by
  have hpix := toNat_pix_succ r.pix_lt_capacity
  by_cases hlast : s.pix.toNat + 1 = reqBits s
  · exact .inr ⟨if_pos hlast, hpix.trans hlast⟩
  · have hlt := r.pix_lt
    exact .inl ⟨(if_neg hlast).trans r.busy, r.cmd, r.op, r.checked, by
      rw [embedWrite_pix, hpix]
      exact Nat.lt_of_le_of_ne hlt hlast⟩

/-- Settles O41: the engine writes the next bit, a reset abandons the command, and any other item of the host leaves it. -/
theorem embedProgressesUnderEveryInterleaving : Obligations.EmbedProgressesUnderEveryInterleaving := by
  intro s t ras st r p h
  rcases step_while_busy r.busy h with ⟨u, hu, -, hs⟩ | ⟨rest, hp, hi⟩ | ⟨hk, -⟩
  · obtain ⟨bit, hs', hprog⟩ := (hu.embedProgress p).step (hu.embedRunning r)
    obtain rfl := Host.Outcome.next.inj (hs.symm.trans hs')
    rcases (hu.embedRunning r).embedWrite_cases (pixelAt u u.pix.toNat) bit with hrun | ⟨hst, hpix⟩
    · exact .inl ⟨hrun, hprog⟩
    · exact .inr (.inl ⟨hst, hu.commandFrame.err, hpix.trans hu.sameOperands.reqBits, hprog⟩)
  · exact .inr (.inr ⟨rest, hp, hi⟩)
  · exact .inl ⟨hk.embedRunning r, hk.embedProgress p⟩

end Sys2Proof.Machine

/-! PROOFS. The family 42_commands.md, whole commands: a run in BUSY, what EMBED leaves at its end, and that a command
left alone reaches its end. -/

namespace Sys2Proof.Machine

/-! ## From the acceptance of a command to its end -/

/-- The end of a command seen from its first step. -/
theorem commandEnds_succ {n : Nat} {a u t : State} (h : step a = .next u) :
    CommandEnds (n + 1) a t ↔ a.state = .busy ∧ CommandEnds n u t := by
  unfold CommandEnds
  rw [runFor_succ_next h]
  constructor
  · rintro ⟨hrun, hend, hbusy⟩
    obtain ⟨a', ha, hb⟩ := hbusy 0 (Nat.succ_pos n)
    cases ha
    exact ⟨hb, hrun, hend, fun m hm => runFor_succ_next h ▸ hbusy (m + 1) (Nat.succ_lt_succ hm)⟩
  · rintro ⟨hb, hrun, hend, hbusy⟩
    refine ⟨hrun, hend, fun m hm => ?_⟩
    cases m with
    | zero => exact ⟨a, rfl, hb⟩
    | succ m =>
      rw [runFor_succ_next h]
      exact hbusy m (Nat.lt_of_succ_lt_succ hm)

theorem commandEnds_zero {a t : State} : CommandEnds 0 a t ↔ a.state ≠ .busy ∧ t = a := by
  constructor
  · rintro ⟨hrun, hend, -⟩
    cases hrun
    exact ⟨hend, rfl⟩
  · rintro ⟨hend, rfl⟩
    exact ⟨rfl, hend, fun m hm => absurd hm (Nat.not_lt_zero m)⟩

/-- A run that goes on has its first step. -/
theorem exists_step_of_runFor_succ {n : Nat} {a t : State} (h : runFor (n + 1) a = .next t) : ∃ u, step a = .next u := by
  cases hs : step a with
  | next u => exact ⟨u, rfl⟩
  | fault f => rw [runFor_succ_fault hs] at h; cases h
  | refused r => rw [runFor_succ_refused hs] at h; cases h

/-- A command that ended at acceptance takes no step (42_commands.md R133). -/
theorem CommandEnds.eq_of_not_busy {n : Nat} {a t : State} (h : CommandEnds n a t) (hb : a.state ≠ .busy) : t = a := by
  cases n with
  | zero => exact (commandEnds_zero.1 h).2
  | succ n =>
    obtain ⟨u, hu⟩ := exists_step_of_runFor_succ h.1
    exact absurd ((commandEnds_succ hu).1 h).1 hb

/-- Where every step from a state with `P` is a reset, or leads to a state with `P`, in BUSY, or with `Q`, outside it, a
command that no reset abandons ends in `Q`, whoever moves on the way. -/
theorem CommandEnds.induct {P Q : State → Prop} (hP : ∀ s, P s → s.state = .busy) (hQ : ∀ s, Q s → s.state ≠ .busy)
    (hstep : ∀ s t, P s → step s = .next t → t.state = .idle ∨ P t ∨ Q t)
    {n : Nat} {a t : State} (h : CommandEnds n a t) (ha : P a) (hi : t.state ≠ .idle) : Q t := by
  induction n generalizing a with
  | zero => exact absurd (hP a ha) (commandEnds_zero.1 h).1
  | succ n ih =>
    obtain ⟨u, hu⟩ := exists_step_of_runFor_succ h.1
    obtain ⟨-, h'⟩ := (commandEnds_succ hu).1 h
    rcases hstep a u ha hu with hidle | hp | hq
    · obtain rfl := h'.eq_of_not_busy (by rw [hidle]; decide)
      exact absurd hidle hi
    · exact ih h' hp
    · obtain rfl := h'.eq_of_not_busy (hQ u hq)
      exact hq

/-! ## The result of EMBED -/

/-- The block once EMBED is accepted into BUSY (42_commands.md R137). -/
abbrev acceptedEmbed (s : State) : State := startBusy (acceptWord (encode .embed) s)

/-- EMBED enters BUSY only when its checks pass (42_commands.md R137). -/
theorem exec_embed_busy {s a : State} (hb : s.state ≠ .busy) (h : exec .embed s = .next a) (ha : a.state = .busy) :
    validateEmbed s = none ∧ a = acceptedEmbed s := by
  obtain rfl := Host.Outcome.next.inj ((exec_embed hb).symm.trans h)
  rcases enterBusy_cases (validateEmbed s) (acceptWord (encode .embed) s) with ⟨e, -, he⟩ | ⟨hv, he⟩
  · rw [show embedEffect (acceptWord (encode .embed) s) = _ from he] at ha
    cases ha
  · exact ⟨hv, he⟩

/-- An EMBED whose checks pass enters BUSY (42_commands.md R137). -/
theorem exec_embed_of_validateEmbed {s : State} (hb : s.state ≠ .busy) (hv : validateEmbed s = none) :
    exec .embed s = .next (acceptedEmbed s) := by
  have hv' : validateEmbed (acceptWord (encode .embed) s) = none := hv
  rw [exec_embed hb, embedEffect, hv']
  rfl

theorem embedRunning_accepted {s : State} (hv : validateEmbed s = none) :
    EmbedRunning (acceptedEmbed s) :=
  ⟨rfl, rfl, rfl, hv, Nat.succ_pos _⟩

/-- An EMBED starts with no pixel written (42_commands.md R137). -/
theorem embedProgress_accepted {s : State} {st : List Byte} (hst : embedStream s = some st) :
    EmbedProgress (pixelAt s) st (acceptedEmbed s) :=
  ⟨hst, fun k _ hk => absurd hk (Nat.not_lt_zero k), fun _ _ => rfl⟩

/-- Nothing of the block differs but RASTER, PIX, STATE and LOST (42_commands.md R138, R140). -/
def EmbedKept (a s : State) : Prop :=
  s = { a with
    raster := s.raster, pix := s.pix, state := s.state, lost := s.lost
    refusal := s.refusal, program := s.program, turns := s.turns, draws := s.draws, answers := s.answers }

theorem EmbedKept.trans {a s t : State} (h : EmbedKept a s) (h' : EmbedKept s t) : EmbedKept a t :=
  Eq.trans h' (by rw [h])

theorem BlockKept.embedKept {s t : State} (h : BlockKept s t) : EmbedKept s t := by
  unfold EmbedKept
  rw [h]

theorem EmbedKept.validateEmbed {a s : State} (h : EmbedKept a s) : validateEmbed s = validateEmbed a := by rw [h]; rfl

theorem EmbedKept.reqBits {a s : State} (h : EmbedKept a s) : reqBits s = reqBits a := by rw [h]; rfl

theorem EmbedKept.registers_and_memories {a s : State} (h : EmbedKept a s) : s.err = a.err ∧ s.fits = a.fits ∧
    s.outLen = a.outLen ∧ s.msg = a.msg ∧ s.key = a.key ∧ s.out = a.out := by
  rw [h]
  exact ⟨rfl, rfl, rfl, rfl, rfl, rfl⟩

/-- The EMBED accepted as `a` is at `s`, its stream `st` written to the pixels below PIX. -/
structure EmbedSince (a : State) (st : List Byte) (s : State) : Prop where
  kept : EmbedKept a s
  used : ProgramUsed a s
  progress : EmbedProgress (pixelAt a) st s

theorem EmbedSince.of_blockKept {a s t : State} {st : List Byte} (i : EmbedSince a st s) (hk : BlockKept s t)
    (hu : ProgramUsed s t) : EmbedSince a st t :=
  ⟨i.kept.trans hk.embedKept, i.used.trans hu, hk.embedProgress i.progress⟩

/-- Whoever moves, an EMBED is abandoned by a reset, goes on, or is complete (42_commands.md R138, R139). -/
theorem EmbedSince.step_cases {a s t : State} {st : List Byte} (i : EmbedSince a st s) (r : EmbedRunning s)
    (h : step s = .next t) :
    t.state = .idle ∨ (EmbedSince a st t ∧ EmbedRunning t) ∨
      (EmbedSince a st t ∧ t.state = .doneOk ∧ t.pix.toNat = reqBits a) := by
  rcases step_while_busy r.busy h with ⟨u, hk, hu, hs⟩ | ⟨-, -, hi⟩ | ⟨hk, hu⟩
  · have iu := i.of_blockKept hk hu
    have ru := hk.embedRunning r
    obtain ⟨bit, hs', hprog⟩ := iu.progress.step ru
    obtain rfl := Host.Outcome.next.inj (hs.symm.trans hs')
    have it : EmbedSince a st (embedWrite (pixelAt u u.pix.toNat) bit u) :=
      ⟨iu.kept.trans rfl, iu.used.trans (programUsed_of_eq rfl rfl), hprog⟩
    refine .inr ((ru.embedWrite_cases _ bit).imp (fun hrun => ⟨it, hrun⟩) fun hdone => ⟨it, ?_⟩)
    rwa [iu.kept.reqBits] at hdone
  · exact .inl hi
  · exact .inr (.inl ⟨i.of_blockKept hk hu, hk.embedRunning r⟩)

/-- What an accepted EMBED is at its end, if no reset abandons it (42_commands.md R139, R140). -/
theorem embed_result {s t : State} {n : Nat} (hv : validateEmbed s = none) (h : CommandEnds n (acceptedEmbed s) t)
    (hi : t.state ≠ .idle) :
    ∃ payload, xorCyclic (message s) (keyBytes s) = some payload ∧
      EmbedSince (acceptedEmbed s) (appendEndMarker payload) t ∧ t.state = .doneOk ∧ t.pix.toNat = reqBits s := by
  obtain ⟨-, -, -, hk0, -⟩ := validateEmbed_eq_none.1 hv
  obtain ⟨payload, hx, hst⟩ := exists_embedStream hk0
  have hstart : EmbedSince (acceptedEmbed s) (appendEndMarker payload) (acceptedEmbed s) :=
    ⟨rfl, programUsed_of_eq rfl rfl, embedProgress_accepted hst⟩
  exact ⟨payload, hx, CommandEnds.induct
    (P := fun u => EmbedSince (acceptedEmbed s) (appendEndMarker payload) u ∧ EmbedRunning u)
    (Q := fun u => EmbedSince (acceptedEmbed s) (appendEndMarker payload) u ∧ u.state = .doneOk ∧
      u.pix.toNat = reqBits (acceptedEmbed s))
    (fun _ ⟨_, r⟩ => r.busy) (fun _ ⟨_, hd, _⟩ => by rw [hd]; decide) (fun _ _ ⟨i, r⟩ hstep => i.step_cases r hstep)
    h ⟨hstart, embedRunning_accepted hv⟩ hi⟩

/-- At PIX = N every bit of the stream is written (42_commands.md R140). -/
theorem EmbedProgress.written_all {ras : Nat → Pixel} {st : List Byte} {s : State} (p : EmbedProgress ras st s)
    (hpix : s.pix.toNat = reqBits s) {k : Nat} {bit : Bit} (hk : (bytesToBits st)[k]? = some bit) :
    pixelAt s k = withBlueBit (ras k) bit := by
  refine p.written k bit ?_ hk
  rw [hpix, ← length_bits_embedStream p.stream]
  exact (List.getElem?_eq_some_iff.1 hk).1

/-- Settles O40: the invariant `EmbedSince` at PIX = N. -/
theorem embedResult : Obligations.EmbedResult := by
  intro s a t n hb hexec ha hend hidle
  obtain ⟨hv, rfl⟩ := exec_embed_busy hb hexec ha
  obtain ⟨payload, hx, ⟨kept, used, progress⟩, hst, hpix⟩ := embed_result hv hend hidle
  have hstream : embedStream s = some (appendEndMarker payload) := embedStream_eq_some.2 ⟨payload, hx, rfl⟩
  obtain ⟨herr, hfits, hlen, hmsg, hkey, hout⟩ := kept.registers_and_memories
  refine ⟨_, hstream, length_bits_embedStream hstream, hst, herr, hpix, kept, fun hno => ?_, hfits, hlen, hmsg, hkey, hout,
    fun k bit hk => progress.written_all (hpix.trans kept.reqBits.symm) hk,
    fun k hk => progress.untouched k (hpix.trans_le hk)⟩
  exact used.lost.resolve_right fun ⟨width, off, v, hmem⟩ => hno width off v hmem

/-! ## EMBED again -/

/-- A blue bit that is set already stays as it is (42_commands.md R141). -/
theorem withBlueBit_withBlueBit (p : Pixel) (bit : Bit) : withBlueBit (withBlueBit p bit) bit = withBlueBit p bit := by
  unfold withBlueBit
  congr 1
  ext i hi
  interval_cases i <;> simp

/-- Settles O42: the second run writes the bits that are there. -/
theorem embedTwiceIsEmbedOnce : Obligations.EmbedTwiceIsEmbedOnce := by
  intro s a t n hb hexec ha hend hidle
  obtain ⟨hv, rfl⟩ := exec_embed_busy hb hexec ha
  obtain ⟨payload, hx, ⟨kept, -, progress⟩, hst, hpix⟩ := embed_result hv hend hidle
  have hv' : validateEmbed t = none := kept.validateEmbed.trans hv
  refine ⟨_, exec_embed_of_validateEmbed (by simp [hst]) hv', rfl, fun m t' hend' hidle' k => ?_⟩
  obtain ⟨payload', hx', ⟨kept', -, progress'⟩, -, hpix'⟩ := embed_result hv' hend' hidle'
  have hsame : appendEndMarker payload' = appendEndMarker payload :=
    Option.some_inj.1 ((embedStream_eq_some.2 ⟨payload', hx', rfl⟩).symm.trans progress.stream)
  rw [hsame] at progress'
  cases hk : (bytesToBits (appendEndMarker payload))[k]? with
  | some bit =>
    have hw := progress.written_all (hpix.trans kept.reqBits.symm) hk
    calc pixelAt t' k = withBlueBit (pixelAt t k) bit := progress'.written_all (hpix'.trans kept'.reqBits.symm) hk
      _ = pixelAt t k := by rw [hw, withBlueBit_withBlueBit]
  | none =>
    refine progress'.untouched k ?_
    rw [hpix', ← length_bits_embedStream progress.stream]
    exact List.getElem?_eq_none_iff.1 hk

/-! ## Every command ends -/

theorem step_alone {s : State} (hr : s.refusal = none) (hp : s.program = []) (hb : s.state = .busy) :
    step s = engineStep s := by
  simp only [step, systemStep, hr, hp, moveAlone, hb, if_true]

/-- An EMBED left alone ends after as many steps as bits are left (42_commands.md R139, R153). -/
theorem EmbedRunning.ends {s : State} (r : EmbedRunning s) (hr : s.refusal = none) (hp : s.program = []) :
    ∃ t, CommandEnds (reqBits s - s.pix.toNat) s t ∧ t.pix.toNat = reqBits s ∧
      t = { s with raster := t.raster, pix := t.pix, state := .doneOk } := by
  obtain ⟨n, hn⟩ : ∃ n, n = reqBits s - s.pix.toNat := ⟨_, rfl⟩
  rw [← hn]
  have hlt := r.pix_lt
  induction n generalizing s with
  | zero => omega
  | succ n ih =>
    obtain ⟨bit, -, hs⟩ := r.engineStep_eq
    have hstep := (step_alone hr hp r.busy).trans hs
    have hpix : (embedWrite (pixelAt s s.pix.toNat) bit s).pix.toNat = s.pix.toNat + 1 :=
      toNat_pix_succ r.pix_lt_capacity
    have hreq : reqBits (embedWrite (pixelAt s s.pix.toNat) bit s) = reqBits s := rfl
    rcases r.embedWrite_cases (pixelAt s s.pix.toNat) bit with hrun | ⟨hst, hlast⟩
    · obtain ⟨t, hends, hend, ht⟩ := ih hrun hr hp (by omega) hrun.pix_lt
      exact ⟨t, (commandEnds_succ hstep).2 ⟨r.busy, hends⟩, hend, ht⟩
    · obtain rfl : n = 0 := by omega
      exact ⟨_, (commandEnds_succ hstep).2 ⟨r.busy, commandEnds_zero.2 ⟨by rw [hst]; decide, rfl⟩⟩, hlast, hst ▸ rfl⟩

/-- Settles O39: the acceptance, and the run of `EmbedRunning.ends` from PIX = 0. -/
theorem embedCompletes : Obligations.EmbedCompletes := by
  intro s hb hp hm hk hk0 hreq
  have hv : validateEmbed s = none := validateEmbed_eq_none.2 ⟨hp, hm, hk, hk0, hreq⟩
  refine ⟨_, rfl, exec_embed_of_validateEmbed hb hv, fun hr hprog => ?_⟩
  obtain ⟨t, hends, -, ht⟩ := (embedRunning_accepted hv).ends hr hprog
  exact ⟨t, hends, ht⟩

/-- An EXTRACT left alone ends after as many steps as pixels are read on (42_commands.md R153). -/
theorem ExtractRunning.ends {s : State} (r : ExtractRunning s) (hr : s.refusal = none) (hp : s.program = []) :
    ∃ n t, n ≤ capacity s - s.pix.toNat ∧ CommandEnds n s t ∧ t.pix.toNat = s.pix.toNat + n ∧ t.state ≠ .idle := by
  obtain ⟨d, hd⟩ : ∃ d, d = capacity s - s.pix.toNat := ⟨_, rfl⟩
  have hlt := r.pix_lt
  induction d generalizing s with
  | zero => omega
  | succ d ih =>
    obtain ⟨u, hu⟩ := r.extractStep_next
    have hs : engineStep s = .next u := engineStep_eq_next.2 (.inr ⟨r.op, hu⟩)
    have hstep := (step_alone hr hp r.busy).trans hs
    obtain ⟨frame, hpix⟩ := engineStep_frame hs
    have hpix : u.pix.toNat = s.pix.toNat + 1 := hpix ▸ toNat_pix_succ hlt
    have hcap := frame.sameOperands.capacity
    rcases engineStep_status hs r.busy with ⟨hub, -, ho⟩ | hdone
    · have ru := r.step hu frame hpix ho hub
      obtain ⟨n, t, hn, hends, hend, hi⟩ :=
        ih ru (frame.refusal.trans hr) (frame.program.trans hp) (by omega) ru.pix_lt
      exact ⟨n + 1, t, by omega, (commandEnds_succ hstep).2 ⟨r.busy, hends⟩, by omega, hi⟩
    · have hne : u.state ≠ .busy ∧ u.state ≠ .idle := by
        rcases hdone with ⟨hst, -⟩ | ⟨hst, -⟩ <;> rw [hst] <;> decide
      exact ⟨1, u, by omega, (commandEnds_succ hstep).2 ⟨r.busy, commandEnds_zero.2 ⟨hne.1, rfl⟩⟩, hpix, hne.2⟩

/-- Settles O58: in BUSY an EMBED or an EXTRACT is in progress. -/
theorem everyCommandEnds : Obligations.EveryCommandEnds := by
  intro s hinv hr hp hb
  rcases hinv.busy hb with r | r
  · obtain ⟨t, hends, hpix, ht⟩ := r.ends hr hp
    have hlt := r.pix_lt
    obtain ⟨-, -, -, -, hreq⟩ := validateEmbed_eq_none.1 r.checked
    exact ⟨_, t, Nat.sub_le_sub_right hreq _, hends, by omega, fun _ => ⟨rfl, by rw [ht]⟩⟩
  · obtain ⟨n, t, hn, hends, hpix, -⟩ := r.ends hr hp
    exact ⟨n, t, hn, hends, hpix, fun hop => by simp [r.op] at hop⟩

end Sys2Proof.Machine

/-! PROOFS. The family 42_commands.md, EXTRACT: its step, the scan's invariant under every interleaving, and its acceptance.
`ScanInv.step_cases` says once how the invariant goes on, or what stands in its place at the end. -/

namespace Sys2Proof.Machine

/-! ## One step of EXTRACT -/

theorem blueBit_setWidth (s : State) (k : Nat) : (blueBit s k).setWidth 8 = (pixelAt s k).b &&& 1#8 := by
  ext i hi
  interval_cases i <;> simp [blueBit]

/-- ACC after a step: the blue bit 0 of pixel PIX is shifted in (42_commands.md R144). -/
theorem stepAcc_acc (s : State) : (stepAcc s).acc = ((s.acc <<< 1) ||| ((pixelAt s s.pix.toNat).b &&& 1#8)) := by
  rw [← blueBit_setWidth, stepAcc, accumulate]
  split_ifs <;> rfl

/-- The step of an EXTRACT in progress that completes no byte (42_commands.md R144). -/
theorem ExtractRunning.engineStep_inside {s : State} (r : ExtractRunning s) (h7 : s.accCnt ≠ 7#3) :
    engineStep s = .next (scanOn (takeBit (stepAcc s) s)) := by
  obtain ⟨t, h⟩ := r.extractStep_next
  have hc : (stepAcc s).completed = none := (accumulate_completed_eq_none _ _ _).2 h7
  obtain ⟨-, -, ⟨-, rfl⟩ | ⟨c, u, hc', -⟩⟩ := extractStep_eq_next.1 h
  · exact engineStep_eq_next.2 (.inr ⟨r.op, h⟩)
  · rw [hc] at hc'
    cases hc'

/-- Settles O43: the bit is taken, and the scan goes on unless that was the last pixel. -/
theorem extractStepInsideAByte : Obligations.ExtractStepInsideAByte := by
  intro s r h7
  have hpix := toNat_pix_succ r.pix_lt
  have hcnt : (stepAcc s).accCnt.toNat = s.accCnt.toNat + 1 := by
    have h7' : s.accCnt.toNat ≠ 7 := BitVec.toNat_ne.1 h7
    rw [accumulate_accCnt_toNat]
    omega
  refine ⟨_, r.engineStep_inside h7, ?_⟩
  rcases scanOn_cases (takeBit (stepAcc s) s) with ⟨hlast, h⟩ | ⟨hlast, h⟩ <;> rw [h]
  · refine ⟨hpix, stepAcc_acc s, hcnt, fun hne => absurd (hpix.symm.trans hlast) hne, fun _ => rfl⟩
  · refine ⟨hpix, stepAcc_acc s, hcnt, fun _ => rfl, fun he => absurd (hpix.trans he) hlast⟩

/-- The payload byte leaving the window goes to OUT[NBYTES - 3], and nothing else changes (42_commands.md R144). -/
structure Emitted (s u : State) : Prop where
  frame : u = { s with out := u.out }
  written : 3 ≤ s.nbytes.toNat → u.out.find (s.nbytes.toNat - 3) =
    some (s.win.extractLsb' 16 8 ^^^ keyAt s ((s.nbytes.toNat - 3) % s.keyLen.toNat))
  others : ∀ j, j + 3 ≠ s.nbytes.toNat → u.out.find j = s.out.find j

theorem emitted_of_emitByte {s u : State} {c : Byte} (h : emitByte (pushByte s.win s.nbytes c) s = .ok u) :
    Emitted s u := by
  rcases emitByte_eq_ok.1 h with ⟨hq, rfl⟩ | ⟨hq, -, -, -, rfl⟩
  · exact ⟨rfl, fun h3 => absurd h3 (of_decide_eq_false hq), fun _ _ => rfl⟩
  · have h3 : 3 ≤ s.nbytes.toNat := of_decide_eq_true hq
    exact ⟨rfl, fun _ => find_store_same _ _ _, fun j hj => find_store_other _ _ (by omega)⟩

/-- The step of an EXTRACT in progress that completes a byte (42_commands.md R144, R145). -/
theorem ExtractRunning.engineStep_boundary {s : State} (r : ExtractRunning s) (h7 : s.accCnt = 7#3) :
    ∃ u, Emitted s u ∧ engineStep s = .next
      (if (pushByte s.win s.nbytes (stepAcc s).acc).found
        then scanFound (takeByte (pushByte s.win s.nbytes (stepAcc s).acc) (takeBit (stepAcc s) u))
        else scanOn (takeByte (pushByte s.win s.nbytes (stepAcc s).acc) (takeBit (stepAcc s) u))) := by
  obtain ⟨t, h⟩ := r.extractStep_next
  have hc : (stepAcc s).completed = some (stepAcc s).acc := by
    rw [accumulate_completed, if_pos]
    rw [accumulate_accCnt_toNat, h7]
    rfl
  obtain ⟨-, -, ⟨hc', -⟩ | ⟨c, u, hc', hu, ht⟩⟩ := extractStep_eq_next.1 h
  · rw [hc] at hc'
    cases hc'
  · obtain rfl : (stepAcc s).acc = c := Option.some_inj.1 (hc.symm.trans hc')
    exact ⟨u, emitted_of_emitByte hu, engineStep_eq_next.2 (.inr ⟨r.op, ht ▸ h⟩)⟩

/-- NBYTES is at most W*H / 8, so it does not wrap (42_commands.md R147). -/
theorem ExtractRunning.toNat_nbytes_succ {s : State} (r : ExtractRunning s) (c : Byte) :
    (pushByte s.win s.nbytes c).nbytes.toNat = s.nbytes.toNat + 1 := by
  have hn := r.nbytes_eq
  have hlt := r.pix_lt
  have hcap := capacity_lt s
  exact pushByte_nbytes_toNat (by omega) _ _

/-- Settles O44: the byte is pushed, then the scan has found the marker, is exhausted, or goes on. -/
theorem extractStepAtAByteBoundary : Obligations.ExtractStepAtAByteBoundary := by
  intro s r h7
  obtain ⟨u, e, h⟩ := r.engineStep_boundary h7
  obtain ⟨o, rfl⟩ : ∃ o, u = { s with out := o } := ⟨u.out, e.frame⟩
  have hpix := toNat_pix_succ r.pix_lt
  have hnb := r.toNat_nbytes_succ (stepAcc s).acc
  have hcnt : (stepAcc s).accCnt = 0 := by rw [stepAcc, accumulate_accCnt, h7]; rfl
  have hfound := pushByte_found s.win s.nbytes (stepAcc s).acc
  refine ⟨_, (stepAcc s).acc, h, ?_⟩
  split_ifs with hf
  · obtain ⟨h3, -⟩ := hfound.1 hf
    refine ⟨hpix, stepAcc_acc s, rfl, hcnt, rfl, hnb, fun _ => rfl, fun hn => absurd (hfound.1 hf) hn,
      fun hn => absurd (hfound.1 hf) hn, fun _ h3' => ?_, fun j hj hlt => ?_⟩
    · rw [scanFound_out, find_keepBelow, if_pos]
      · exact e.written h3'
      · rw [takeByte_nbytes, BitVec.toNat_sub_of_le h3, hnb, BitVec.toNat_ofNat]
        omega
    · rcases hlt with hst | ⟨-, hlt⟩
      · cases hst
      · rw [scanFound_out, find_keepBelow]
        exact (if_pos hlt).trans (e.others j hj)
  · have hq : ¬ (3 ≤ (pushByte s.win s.nbytes (stepAcc s).acc).nbytes.toNat ∧ _) := mt hfound.2 hf
    rcases scanOn_cases (takeByte (pushByte s.win s.nbytes (stepAcc s).acc) (takeBit (stepAcc s) { s with out := o })) with
      ⟨hlast, hon⟩ | ⟨hlast, hon⟩ <;> rw [hon]
    · exact ⟨hpix, stepAcc_acc s, rfl, hcnt, rfl, hnb, fun hq' => absurd hq' hq,
        fun _ hne => absurd (hpix.symm.trans hlast) hne, fun _ _ => rfl, fun hne => absurd rfl hne,
        fun j hj h => by simp at h⟩
    · exact ⟨hpix, stepAcc_acc s, rfl, hcnt, rfl, hnb, fun hq' => absurd hq' hq, fun _ _ => rfl,
        fun _ he => absurd (hpix.trans he) hlast, fun _ => e.written, fun j hj _ => e.others j hj⟩

/-! ## The bits read -/

@[simp] theorem length_bitBuffer (s : State) (n : Nat) : (bitBuffer s n).length = n := by simp [bitBuffer]

theorem bitBuffer_getElem? (s : State) {k n : Nat} (hk : k < n) : (bitBuffer s n)[k]? = some (blueBit s k) := by
  simp [bitBuffer, hk]

theorem blueBit_congr {s t : State} (h : t.raster = s.raster) (k : Nat) : blueBit t k = blueBit s k := by
  rw [blueBit, pixelAt_congr h]
  rfl

theorem bitBuffer_eq {s t : State} {n : Nat} (h : ∀ k, k < n → blueBit t k = blueBit s k) :
    bitBuffer t n = bitBuffer s n :=
  List.map_congr_left fun k hk => h k (List.mem_range.1 hk)

theorem bitBuffer_congr {s t : State} (h : t.raster = s.raster) (n : Nat) : bitBuffer t n = bitBuffer s n :=
  bitBuffer_eq fun k _ => blueBit_congr h k

/-- Eight more bits are one more byte, the newest of them its bit 0 (42_commands.md R147). -/
theorem bitBuffer_add_eight {s : State} {m : Nat} {c : Byte} (h : ∀ i, i < 8 → bitOf c i = blueBit s (m + 7 - i)) :
    bitBuffer s (m + 8) = bitBuffer s m ++ bytesToBits [c] := by
  have hc : bytesToBits [c] = (List.range 8).map fun j => bitOf c (7 - j) := rfl
  rw [hc, bitBuffer, bitBuffer, List.range_add, List.map_append, List.map_map]
  refine congrArg _ (List.map_congr_left fun j hj => ?_)
  have hj : j < 8 := List.mem_range.1 hj
  rw [h (7 - j) (by omega), Function.comp_apply]
  congr 1
  omega

/-- The marker test has an answer where 24 bits stand before its position (40_bitcodec.md R104). -/
theorem isEndMarker_eq_false_iff {t : List Bit} {n : Nat} (h24 : 24 ≤ n) (hn : n ≤ t.length) :
    isEndMarker t n = some false ↔ isEndMarker t n ≠ some true := by
  rw [isEndMarker, if_pos ⟨h24, hn⟩]
  simp

theorem le_of_isEndMarker {t : List Bit} {n : Nat} {b : Bool} (h : isEndMarker t n = some b) :
    24 ≤ n ∧ n ≤ t.length := by
  unfold isEndMarker at h
  split_ifs at h with hn
  exact hn

/-- No marker ends at a byte boundary in the first `n` bits (42_commands.md R147). -/
def NoMarkerUpTo (s : State) (n : Nat) : Prop :=
  ∀ k, 24 ≤ k → k ≤ n → k % 8 = 0 → isEndMarker (bitBuffer s k) k = some false

theorem NoMarkerUpTo.congr {s t : State} {n : Nat} (h : NoMarkerUpTo s n) (hr : t.raster = s.raster) :
    NoMarkerUpTo t n := by
  intro k h24 hk h8
  rw [bitBuffer_congr hr]
  exact h k h24 hk h8

/-- One more bit that ends no byte ends no marker. -/
theorem NoMarkerUpTo.succ {s : State} {n : Nat} (h : NoMarkerUpTo s n)
    (hn : (n + 1) % 8 = 0 → isEndMarker (bitBuffer s (n + 1)) (n + 1) ≠ some true) : NoMarkerUpTo s (n + 1) := by
  intro k h24 hk h8
  rcases Nat.lt_or_ge n k with hlt | hle
  · obtain rfl : k = n + 1 := by omega
    exact (isEndMarker_eq_false_iff h24 (length_bitBuffer s _).ge).2 (hn h8)
  · exact h k h24 hle h8

/-! ## The scan's registers -/

/-- ACC, WIN and NBYTES stand to the bits read as 42_commands.md R147 says; this holds after the last step too. -/
structure ScanReads (s : State) (bs : List Byte) : Prop where
  bits : bytesToBits bs = bitBuffer s (8 * (s.pix.toNat / 8))
  acc_bits : ∀ i, i < s.pix.toNat % 8 → bitOf s.acc i = blueBit s (s.pix.toNat - 1 - i)
  window : WindowHolds s.win s.nbytes bs

/-- The bytes that left the window are in OUT, deobfuscated (42_commands.md R147). -/
def OutHolds (s : State) (bs : List Byte) : Prop :=
  ∀ j v, j + 3 < bs.length → bs[j]? = some v → s.out.find j = some (v ^^^ keyAt s (j % s.keyLen.toNat))

theorem ScanReads.length_eq {s : State} {bs : List Byte} (i : ScanReads s bs) : bs.length = s.pix.toNat / 8 := by
  have h := congrArg List.length i.bits
  rw [length_bytesToBits, length_bitBuffer] at h
  omega

/-- The invariant of the scan, in its parts. -/
theorem scanInv_iff {s : State} {bs : List Byte} : ScanInv s bs ↔
    ScanReads s bs ∧ s.accCnt.toNat = s.pix.toNat % 8 ∧ OutHolds s bs ∧ NoMarkerUpTo s s.pix.toNat := by
  constructor
  · intro i
    refine ⟨⟨bytesToBits_of_bitsToBytes i.bytes, i.acc_bits, i.nbytes_eq, fun d hd => ?_⟩, i.accCnt_eq,
      i.out_eq, i.no_marker⟩
    interval_cases d
    · exact i.win_0
    · exact i.win_1
    · exact i.win_2
  · rintro ⟨i, hcnt, hout, hno⟩
    exact ⟨i.bits ▸ bitsToBytes_bytesToBits bs, hcnt, i.acc_bits, i.window.nbytes_eq, i.length_eq,
      i.window.win_eq 0 (by decide), i.window.win_eq 1 (by decide), i.window.win_eq 2 (by decide), hout, hno⟩

/-- ACC after a step holds the bits of the byte being read, the one just read as bit 0 (42_commands.md R144, R147). -/
theorem ScanReads.bitOf_stepAcc {s : State} {bs : List Byte} (i : ScanReads s bs) {d : Nat} (hd : d ≤ s.pix.toNat % 8) :
    bitOf (stepAcc s).acc d = blueBit s (s.pix.toNat - d) := by
  cases d with
  | zero => exact accumulate_bitOf_newest _ _ _
  | succ d =>
    rw [stepAcc, accumulate_bitOf_older _ _ _ (by omega), i.acc_bits d hd, Nat.sub_sub, Nat.add_comm 1 d]

/-- A step inside a byte keeps the whole bytes and the window (42_commands.md R144). -/
theorem ScanReads.inside {s t : State} {bs : List Byte} (i : ScanReads s bs) (h7 : s.pix.toNat % 8 ≠ 7)
    (hr : t.raster = s.raster) (hpix : t.pix.toNat = s.pix.toNat + 1) (hacc : t.acc = (stepAcc s).acc)
    (hwin : t.win = s.win) (hnb : t.nbytes = s.nbytes) : ScanReads t bs where
  bits := by
    rw [bitBuffer_congr hr, i.bits, hpix]
    congr 2
    omega
  acc_bits d hd := by
    rw [hacc, i.bitOf_stepAcc (by omega), blueBit_congr hr, hpix]
    rfl
  window := by
    rw [hwin, hnb]
    exact i.window

/-- A step that completes a byte adds it to the bytes and to the window (42_commands.md R144). -/
theorem ScanReads.boundary {s t : State} {bs : List Byte} (i : ScanReads s bs) (h7 : s.pix.toNat % 8 = 7)
    (hr : t.raster = s.raster) (hpix : t.pix.toNat = s.pix.toNat + 1)
    (hwin : t.win = (pushByte s.win s.nbytes (stepAcc s).acc).win)
    (hnb : t.nbytes = (pushByte s.win s.nbytes (stepAcc s).acc).nbytes) : ScanReads t (bs ++ [(stepAcc s).acc]) where
  bits := by
    have hm : 8 * (t.pix.toNat / 8) = 8 * (s.pix.toNat / 8) + 8 := by omega
    rw [bytesToBits_append, i.bits, bitBuffer_congr hr, hm]
    refine (bitBuffer_add_eight fun d hd => ?_).symm
    rw [i.bitOf_stepAcc (by omega)]
    congr 1
    omega
  acc_bits d hd := by omega
  window := by
    rw [hwin, hnb]
    refine i.window.pushByte ?_
    have hlt := s.pix.isLt
    rw [List.length_append, i.length_eq, List.length_singleton]
    omega

/-- A marker ends in the last whole byte exactly when the window holds it (42_commands.md R147). -/
theorem ScanReads.found_iff {s : State} {bs : List Byte} (i : ScanReads s bs) (h8 : s.pix.toNat % 8 = 0) :
    (3 ≤ s.nbytes.toNat ∧ s.win = 0x000003#24) ↔ isEndMarker (bitBuffer s s.pix.toNat) s.pix.toNat = some true := by
  have hn : s.pix.toNat = 8 * bs.length := by
    rw [i.length_eq]
    omega
  have hbits := i.bits
  rw [show 8 * (s.pix.toNat / 8) = s.pix.toNat by omega] at hbits
  rw [i.window.found_iff, hbits, ← hn]

/-- The byte that leaves the window is its oldest (42_commands.md R144). -/
theorem ScanReads.outgoing {s : State} {bs : List Byte} (i : ScanReads s bs) {j : Nat} {v : Byte} (hj : j + 3 = bs.length)
    (hv : bs[j]? = some v) : s.win.extractLsb' 16 8 = v := by
  have h2 : 2 < bs.length := by omega
  rw [show s.win.extractLsb' 16 8 = newestByte bs 2 from i.window.win_eq 2 (by decide), newestByte_eq_iff h2,
    show bs.length - 1 - 2 = j by omega, hv]

/-! ## The scan, step by step -/

/-- The scan has found the marker: it ends the bytes read, and is the first to end in them (42_commands.md R145, R148). -/
structure FoundAt (s : State) (bs : List Byte) : Prop where
  bits : bytesToBits bs = bitBuffer s s.pix.toNat
  marker : isEndMarker (bitBuffer s s.pix.toNat) s.pix.toNat = some true
  first : NoMarkerUpTo s (s.pix.toNat - 1)
  pix_le : s.pix.toNat ≤ capacity s
  outLen_eq : s.outLen.toNat = bs.length - 3
  out : OutHolds s bs

theorem ExtractRunning.engineStep_raster {s t : State} (r : ExtractRunning s) (h : engineStep s = .next t) :
    t.raster = s.raster := by
  rcases engineStep_memories h with ⟨hop, -⟩ | ⟨-, hr, -⟩
  · simp [r.op] at hop
  · exact hr

theorem ExtractRunning.accCnt_eq_seven {s : State} (r : ExtractRunning s) : s.accCnt = 7 ↔ s.pix.toNat % 8 = 7 := by
  rw [← r.accCnt_eq, ← BitVec.toNat_inj]
  rfl

/-- The step that completes a byte adds the byte leaving the window to those in OUT (42_commands.md R144). -/
theorem OutHolds.boundary {s t : State} {bs : List Byte} {c : Byte} (h : OutHolds s bs) (reads : ScanReads s bs)
    (hkey : t.key = s.key) (hkl : t.keyLen = s.keyLen)
    (hnew : 3 ≤ s.nbytes.toNat → t.out.find (s.nbytes.toNat - 3) =
      some (s.win.extractLsb' 16 8 ^^^ keyAt s ((s.nbytes.toNat - 3) % s.keyLen.toNat)))
    (hold : ∀ j, j + 3 < bs.length → t.out.find j = s.out.find j) : OutHolds t (bs ++ [c]) := by
  intro j v hj hv
  rw [List.length_append, List.length_singleton] at hj
  rw [List.getElem?_append_left (by omega)] at hv
  rw [keyAt_congr hkey, hkl]
  rcases Nat.lt_or_ge (j + 3) bs.length with hlt | hge
  · rw [hold j hlt]
    exact h j v hlt hv
  · have hj3 : j + 3 = bs.length := by omega
    have hn : s.nbytes.toNat - 3 = j := by
      rw [reads.window.nbytes_eq]
      omega
    have h3 : 3 ≤ s.nbytes.toNat := by
      rw [reads.window.nbytes_eq]
      omega
    rw [← reads.outgoing hj3 hv, ← hn]
    exact hnew h3

/-- A step inside a byte goes on with the scan, or has come to the last pixel (42_commands.md R144, R146). -/
theorem ScanInv.step_inside {s t : State} {bs : List Byte} (i : ScanInv s bs) (r : ExtractRunning s)
    (h : engineStep s = .next t) (h7 : s.accCnt ≠ 7) :
    (t.state = .busy ∧ ScanInv t bs) ∨ (t.state = .doneErr ∧ NoMarkerUpTo t t.pix.toNat) := by
  obtain ⟨reads, -, hout, hno⟩ := scanInv_iff.1 i
  obtain ⟨t', h', hpix, hacc, hcnt, hon, hend⟩ := extractStepInsideAByte s r h7
  obtain rfl := Host.Outcome.next.inj (h.symm.trans h')
  have hr := r.engineStep_raster h
  have h7' := mt r.accCnt_eq_seven.2 h7
  have hno' : NoMarkerUpTo t t.pix.toNat := by
    rw [hpix]
    exact (hno.congr hr).succ fun h8 => by omega
  by_cases hlast : s.pix.toNat + 1 = s.width.toNat * s.height.toNat
  · exact .inr ⟨by rw [hend hlast], hno'⟩
  · have ht := hon hlast
    refine .inl ⟨by rw [ht]; exact r.busy, scanInv_iff.2 ⟨?_, ?_, ?_, hno'⟩⟩
    · exact reads.inside h7' hr hpix (hacc.trans (stepAcc_acc s).symm) (by rw [ht]) (by rw [ht])
    · rw [hcnt, hpix, r.accCnt_eq]
      omega
    · rw [ht]
      exact hout

/-- A step at a byte boundary goes on with the scan, finds the marker, or has come to the last pixel (42_commands.md R144 to
R146). -/
theorem ScanInv.step_boundary {s t : State} {bs : List Byte} (i : ScanInv s bs) (r : ExtractRunning s)
    (h : engineStep s = .next t) (h7 : s.accCnt = 7) : ∃ bs',
    (t.state = .busy ∧ ScanInv t bs') ∨ (t.state = .doneOk ∧ FoundAt t bs') ∨
      (t.state = .doneErr ∧ NoMarkerUpTo t t.pix.toNat) := by
  obtain ⟨reads, -, hout, hno⟩ := scanInv_iff.1 i
  obtain ⟨t', c, h', hpix, hc, hacc, hcnt, hwin, hnb, hfound, hon, hend, hnew, hold⟩ := extractStepAtAByteBoundary s r h7
  obtain rfl := Host.Outcome.next.inj (h.symm.trans h')
  obtain rfl : (stepAcc s).acc = c := (stepAcc_acc s).trans hc.symm
  have hr := r.engineStep_raster h
  obtain ⟨frame, -⟩ := engineStep_frame h
  have h7' := r.accCnt_eq_seven.1 h7
  have h8 : t.pix.toNat % 8 = 0 := by omega
  have hnb' : t.nbytes = (pushByte s.win s.nbytes (stepAcc s).acc).nbytes :=
    BitVec.eq_of_toNat_eq (hnb.trans (r.toNat_nbytes_succ _).symm)
  have reads' : ScanReads t (bs ++ [(stepAcc s).acc]) := reads.boundary h7' hr hpix hwin hnb'
  have hlen := reads.window.nbytes_eq
  have hout' (hst : t.state = .busy ∨ t.state = .doneOk ∧ t.outLen.toNat = t.nbytes.toNat - 3) :
      OutHolds t (bs ++ [(stepAcc s).acc]) := by
    refine hout.boundary reads frame.key frame.keyLen (hnew ?_) fun j hj => hold j (by omega) ?_
    · rcases hst with hst | ⟨hst, -⟩ <;> rw [hst] <;> decide
    · exact hst.imp_right fun ⟨hst, ho⟩ => ⟨hst, by omega⟩
  refine ⟨bs ++ [(stepAcc s).acc], ?_⟩
  by_cases hf : 3 ≤ t.nbytes.toNat ∧ t.win = 0x000003
  · have ht := hfound hf
    have hst : t.state = .doneOk := by rw [ht]
    have ho : t.outLen.toNat = t.nbytes.toNat - 3 := by
      rw [ht]
      exact BitVec.toNat_sub_of_le hf.1
    have hbits := reads'.bits
    rw [show 8 * (t.pix.toNat / 8) = t.pix.toNat by omega] at hbits
    refine .inr (.inl ⟨hst, hbits, (reads'.found_iff h8).1 hf, ?_, ?_, ?_, hout' (.inr ⟨hst, ho⟩)⟩)
    · rw [hpix]
      exact hno.congr hr
    · rw [hpix, frame.sameOperands.capacity]
      exact r.pix_lt
    · rw [ho, reads'.window.nbytes_eq]
  · have hno' : NoMarkerUpTo t t.pix.toNat := by
      rw [hpix]
      exact (hno.congr hr).succ fun _ => hpix ▸ mt (reads'.found_iff h8).2 hf
    by_cases hlast : s.pix.toNat + 1 = s.width.toNat * s.height.toNat
    · exact .inr (.inr ⟨by rw [hend hf hlast], hno'⟩)
    · have hst : t.state = .busy := by
        rw [hon hf hlast]
        exact r.busy
      exact .inl ⟨hst, scanInv_iff.2 ⟨reads', by rw [hcnt, h8]; rfl, hout' (.inl hst), hno'⟩⟩

/-- A step of the scan keeps its invariant, finds the marker, or has come to the last pixel without one (42_commands.md
R147). -/
theorem ScanInv.step_cases {s t : State} {bs : List Byte} (i : ScanInv s bs) (r : ExtractRunning s)
    (h : engineStep s = .next t) : ∃ bs',
    (t.state = .busy ∧ ScanInv t bs') ∨ (t.state = .doneOk ∧ FoundAt t bs') ∨
      (t.state = .doneErr ∧ NoMarkerUpTo t t.pix.toNat) := by
  by_cases h7 : s.accCnt = 7
  · exact i.step_boundary r h h7
  · exact ⟨bs, (i.step_inside r h h7).imp_right .inr⟩

/-- A step of the engine in an EXTRACT after which STATE = BUSY leaves it in progress (42_commands.md R144). -/
theorem ExtractRunning.of_engineStep {s t : State} (r : ExtractRunning s) (h : engineStep s = .next t)
    (hb : t.state = .busy) : ExtractRunning t := by
  obtain ⟨frame, hpix⟩ := engineStep_frame h
  rcases engineStep_eq_next.1 h with ⟨hop, -⟩ | ⟨-, hs⟩
  · simp [r.op] at hop
  · rcases engineStep_status h r.busy with ⟨-, -, ho⟩ | ⟨hst, -⟩ | ⟨hst, -⟩
    · exact r.step hs frame (hpix ▸ toNat_pix_succ r.pix_lt) ho hb
    · rw [hb] at hst; cases hst
    · rw [hb] at hst; cases hst

theorem BlockKept.extractRunning {s t : State} (h : BlockKept s t) (r : ExtractRunning s) : ExtractRunning t :=
  r.congr h.commandFrame h.sameOperands

theorem BlockKept.scanInv {s t : State} {bs : List Byte} (h : BlockKept s t) (i : ScanInv s bs) : ScanInv t bs := by
  rw [h]
  obtain ⟨bytes, cnt, acc, nb, len, w0, w1, w2, out, no⟩ := i
  exact ⟨bytes, cnt, acc, nb, len, w0, w1, w2, out, no⟩

/-- Settles O46: the engine's step is `ScanInv.step`, and the host leaves the block. -/
theorem everyStepKeepsTheScan : Obligations.EveryStepKeepsTheScan := by
  intro s t bs r i h hb
  rcases step_while_busy r.busy h with ⟨u, hu, -, hs⟩ | ⟨-, -, hi⟩ | ⟨hk, -⟩
  · have ru := hu.extractRunning r
    obtain ⟨bs', ⟨-, hi⟩ | ⟨hst, -⟩ | ⟨hst, -⟩⟩ := (hu.scanInv i).step_cases ru hs
    · exact ⟨bs', ru.of_engineStep hs hb, hi⟩
    · rw [hb] at hst; cases hst
    · rw [hb] at hst; cases hst
  · rw [hb] at hi; cases hi
  · exact ⟨bs, hk.extractRunning r, hk.scanInv i⟩

/-! ## The acceptance of EXTRACT -/

/-- The block once EXTRACT is accepted into BUSY (42_commands.md R143). -/
abbrev acceptedExtract (s : State) : State := startBusy (clearOutLen (acceptWord (encode .extract) s))

/-- An EXTRACT whose checks pass enters BUSY (42_commands.md R143). -/
theorem exec_extract_of_validateExtract {s : State} (hb : s.state ≠ .busy) (hv : validateExtract s = none) :
    exec .extract s = .next (acceptedExtract s) := by
  have hv' : validateExtract (acceptWord (encode .extract) s) = none := hv
  rw [exec_extract hb, extractEffect, hv']

/-- An EXTRACT whose checks fail ends at acceptance, with no pixel read and no message (42_commands.md R132, R133, R143). -/
theorem exec_extract_rejected {s a : State} {e : ErrCode} (hb : s.state ≠ .busy) (h : exec .extract s = .next a)
    (hv : validateExtract s = some e) : a.state = .doneErr ∧ a.err = e ∧ a.outLen = 0 ∧ a.pix = 0 := by
  obtain rfl := Host.Outcome.next.inj ((exec_extract hb).symm.trans h)
  rcases extractEffect_cases (acceptWord (encode .extract) s) with ⟨e', hv', -, he⟩ | ⟨hv', he⟩ | ⟨hv', -⟩
  · obtain rfl : e' = e := Option.some_inj.1 (hv'.symm.trans hv)
    rw [he]
    exact ⟨rfl, rfl, rfl, rfl⟩
  · obtain rfl : .noMarkerFound = e := Option.some_inj.1 (hv'.symm.trans hv)
    rw [he]
    exact ⟨rfl, rfl, rfl, rfl⟩
  · cases hv'.symm.trans hv

/-- EXTRACT enters BUSY only when its checks pass (42_commands.md R143). -/
theorem exec_extract_busy {s a : State} (hb : s.state ≠ .busy) (h : exec .extract s = .next a) (ha : a.state = .busy) :
    validateExtract s = none ∧ a = acceptedExtract s := by
  cases hv : validateExtract s with
  | none => exact ⟨rfl, Host.Outcome.next.inj (h.symm.trans (exec_extract_of_validateExtract hb hv))⟩
  | some e =>
    obtain ⟨hst, -⟩ := exec_extract_rejected hb h hv
    rw [ha] at hst; cases hst

theorem extractRunning_accepted {s : State} (hv : validateExtract s = none) :
    ExtractRunning (acceptedExtract s) := by
  obtain ⟨-, -, -, hpos⟩ := validateExtract_eq_none.1 hv
  exact ⟨rfl, rfl, rfl, hv, Nat.pos_of_ne_zero hpos, by simp, by simp, rfl⟩

/-- The scan starts with nothing read (42_commands.md R143). -/
theorem scanInv_accepted (s : State) : ScanInv (acceptedExtract s) [] := by
  refine scanInv_iff.2 ⟨⟨by simp [bytesToBits, bitBuffer], fun d hd => absurd hd (Nat.not_lt_zero d), windowHolds_empty⟩,
    rfl, fun j _ hj => absurd hj (Nat.not_lt_zero _), fun k h24 hk => ?_⟩
  exact absurd (h24.trans hk) (Nat.not_succ_le_zero 23)

/-- Settles O45: the counters are 0 and no bit is read. -/
theorem acceptedExtractStartsTheScan : Obligations.AcceptedExtractStartsTheScan := by
  intro s t hb h ht
  obtain ⟨hv, rfl⟩ := exec_extract_busy hb h ht
  exact ⟨extractRunning_accepted hv, scanInv_accepted s⟩

/-- Settles O47: the acceptance, and the run of `ExtractRunning.ends` from PIX = 0. -/
theorem extractCompletes : Obligations.ExtractCompletes := by
  intro s hb hp hk hk0 hcap
  have hv : validateExtract s = none := validateExtract_eq_none.2 ⟨hp, hk, hk0, hcap⟩
  refine ⟨_, rfl, exec_extract_of_validateExtract hb hv, fun hr hprog => ?_⟩
  obtain ⟨n, t, hn, hends, hpix, hi⟩ := (extractRunning_accepted hv).ends hr hprog
  exact ⟨n, t, hends, hi, by rw [hpix]; exact (Nat.zero_add n).symm, hn⟩

end Sys2Proof.Machine

/-! PROOFS. The family 42_commands.md, the results of EXTRACT: what a scan leaves at its end, whatever the host did
meanwhile, and what it says of the message that an EMBED wrote. -/

namespace Sys2Proof.Machine

/-! ## An EXTRACT from its acceptance to its end -/

/-- Nothing that an EXTRACT reads is written while it runs, and nothing of the block but what it counts and finds
(42_commands.md R144, R148). -/
structure ExtractKept (a s : State) : Prop where
  operands : SameOperands a s
  raster : s.raster = a.raster
  msg : s.msg = a.msg
  key : s.key = a.key
  fits : s.fits = a.fits
  cmd : s.cmd = a.cmd
  op : s.op = a.op
  sizes : s.sizes = a.sizes

theorem ExtractKept.refl (s : State) : ExtractKept s s := ⟨⟨rfl, rfl, rfl, rfl⟩, rfl, rfl, rfl, rfl, rfl, rfl, rfl⟩

theorem SameOperands.trans {s u t : State} (h : SameOperands s u) (h' : SameOperands u t) : SameOperands s t :=
  ⟨h'.width.trans h.width, h'.height.trans h.height, h'.msgLen.trans h.msgLen, h'.keyLen.trans h.keyLen⟩

theorem ExtractKept.trans {a s t : State} (h : ExtractKept a s) (h' : ExtractKept s t) : ExtractKept a t :=
  ⟨h.operands.trans h'.operands, h'.raster.trans h.raster, h'.msg.trans h.msg, h'.key.trans h.key, h'.fits.trans h.fits,
    h'.cmd.trans h.cmd, h'.op.trans h.op, h'.sizes.trans h.sizes⟩

theorem BlockKept.extractKept {s t : State} (h : BlockKept s t) : ExtractKept s t := by
  rw [h]
  exact ⟨⟨rfl, rfl, rfl, rfl⟩, rfl, rfl, rfl, rfl, rfl, rfl, rfl⟩

theorem EngineFrame.extractKept {s t : State} (f : EngineFrame s t) (hr : t.raster = s.raster) : ExtractKept s t :=
  ⟨f.sameOperands, hr, f.msg, f.key, f.fits, f.cmd, f.op, f.sizes⟩

theorem ExtractKept.keyBytes {a s : State} (h : ExtractKept a s) : keyBytes s = keyBytes a := by
  unfold Machine.keyBytes
  rw [h.operands.keyLen]
  exact List.map_congr_left fun j _ => keyAt_congr h.key j

/-- How a scan ends: at the first marker, or at the last pixel with none before it (42_commands.md R145, R146). -/
def ScanEnd (t : State) : Prop :=
  (t.state = .doneOk ∧ t.err = .noError ∧ ∃ bs, FoundAt t bs) ∨
  (t.state = .doneErr ∧ t.err = .noMarkerFound ∧ t.outLen = 0 ∧ t.pix.toNat = capacity t ∧ NoMarkerUpTo t t.pix.toNat)

/-- The EXTRACT accepted as `a` is at `s`. -/
structure ScanSince (a s : State) : Prop where
  kept : ExtractKept a s
  running : ExtractRunning s
  err : s.err = .noError
  scan : ∃ bs, ScanInv s bs

theorem ScanSince.of_blockKept {a s t : State} (i : ScanSince a s) (h : BlockKept s t) : ScanSince a t := by
  obtain ⟨bs, hbs⟩ := i.scan
  exact ⟨i.kept.trans h.extractKept, h.extractRunning i.running, h.commandFrame.err.trans i.err, bs, h.scanInv hbs⟩

/-- The engine's step goes on with the scan or ends it (42_commands.md R144 to R146). -/
theorem ScanSince.engineStep_cases {a s t : State} (i : ScanSince a s) (h : engineStep s = .next t) :
    ScanSince a t ∨ ExtractKept a t ∧ ScanEnd t := by
  obtain ⟨bs, hbs⟩ := i.scan
  have kept : ExtractKept a t := i.kept.trans ((engineStep_frame h).1.extractKept (i.running.engineStep_raster h))
  have status := engineStep_status h i.running.busy
  obtain ⟨bs', ⟨hst, hscan⟩ | ⟨hst, hfound⟩ | ⟨hst, hno⟩⟩ := hbs.step_cases i.running h
  · simp only [hst, reduceCtorEq, false_and, or_false, true_and] at status
    exact .inl ⟨kept, i.running.of_engineStep h hst, status.1.trans i.err, bs', hscan⟩
  · simp only [hst, reduceCtorEq, false_and, or_false, false_or, true_and] at status
    exact .inr ⟨kept, .inl ⟨hst, status.trans i.err, bs', hfound⟩⟩
  · simp only [hst, reduceCtorEq, false_and, false_or, true_and] at status
    obtain ⟨herr, -, hout, hpix⟩ := status
    exact .inr ⟨kept, .inr ⟨hst, herr, hout, hpix, hno⟩⟩

/-- Whoever moves, an EXTRACT goes on, has ended, or is abandoned by a reset. -/
theorem ScanSince.step_cases {a s t : State} (i : ScanSince a s) (h : step s = .next t) :
    t.state = .idle ∨ ScanSince a t ∨ ExtractKept a t ∧ ScanEnd t := by
  rcases step_while_busy i.running.busy h with ⟨u, hu, -, hs⟩ | ⟨-, -, hi⟩ | ⟨hk, -⟩
  · exact .inr ((i.of_blockKept hu).engineStep_cases hs)
  · exact .inl hi
  · exact .inr (.inl (i.of_blockKept hk))

theorem ScanEnd.not_busy {t : State} (h : ScanEnd t) : t.state ≠ .busy := by
  rcases h with ⟨hst, -⟩ | ⟨hst, -⟩ <;> rw [hst] <;> decide

/-- What an accepted EXTRACT is at its end, if no reset abandons it (42_commands.md R148). -/
theorem extract_result {s t : State} {n : Nat} (hv : validateExtract s = none) (h : CommandEnds n (acceptedExtract s) t)
    (hi : t.state ≠ .idle) : ExtractKept (acceptedExtract s) t ∧ ScanEnd t :=
  CommandEnds.induct (P := ScanSince (acceptedExtract s)) (Q := fun u => ExtractKept (acceptedExtract s) u ∧ ScanEnd u)
    (fun _ i => i.running.busy) (fun _ ⟨_, hend⟩ => hend.not_busy) (fun _ _ i hstep => i.step_cases hstep)
    h ⟨ExtractKept.refl _, extractRunning_accepted hv, rfl, [], scanInv_accepted s⟩ hi

/-! ## The message found -/

/-- The marker is stripped as three whole bytes (40_bitcodec.md R107). -/
theorem stripMarker_bytesToBits {bs : List Byte} (h : 3 ≤ bs.length) :
    stripMarker (bytesToBits bs) = some (bytesToBits (bs.take (bs.length - 3))) := by
  have hlen : (bytesToBits bs).length - 24 = (bytesToBits (bs.take (bs.length - 3))).length := by
    rw [length_bytesToBits, length_bytesToBits, List.length_take]
    omega
  have hcut : bytesToBits bs = bytesToBits (bs.take (bs.length - 3)) ++ bytesToBits (bs.drop (bs.length - 3)) := by
    rw [← bytesToBits_append, List.take_append_drop]
  rw [stripMarker, if_pos (by rw [length_bytesToBits]; omega), hlen, hcut, List.take_left]

theorem outBytes_getElem? {s : State} {j : Nat} (hj : j < s.outLen.toNat) : (outBytes s)[j]? = some (outAt s j) := by
  simp [outBytes, hj]

@[simp] theorem length_outBytes (s : State) : (outBytes s).length = s.outLen.toNat := by simp [outBytes]

theorem FoundAt.pix_eq {s : State} {bs : List Byte} (h : FoundAt s bs) : s.pix.toNat = 8 * bs.length := by
  rw [← length_bytesToBits, h.bits, length_bitBuffer]

theorem FoundAt.three_le {s : State} {bs : List Byte} (h : FoundAt s bs) : 3 ≤ bs.length := by
  have h24 := (le_of_isEndMarker h.marker).1
  rw [h.pix_eq] at h24
  omega

/-- OUT holds the bytes before the marker, deobfuscated (42_commands.md R148). -/
theorem FoundAt.xorCyclic_outBytes {s : State} {bs : List Byte} (h : FoundAt s bs) (hk : s.keyLen.toNat ≠ 0) :
    xorCyclic (bs.take (bs.length - 3)) (keyBytes s) = some (outBytes s) := by
  have h3 := h.three_le
  refine xorCyclic_eq_some_iff.2 ⟨keyBytes_ne_nil.2 hk, ?_, fun j v x hv hx => ?_⟩
  · rw [length_outBytes, h.outLen_eq, List.length_take]
    omega
  · obtain rfl : keyAt s (j % s.keyLen.toNat) = x := Option.some_inj.1 ((keyBytes_cyclic hk j).symm.trans hx)
    obtain ⟨hj, hv⟩ : j < bs.length - 3 ∧ bs[j]? = some v := by
      rw [List.getElem?_take] at hv
      split_ifs at hv with hj
      exact ⟨hj, hv⟩
    rw [outBytes_getElem? (h.outLen_eq ▸ hj), outAt, h.out j v (by omega) hv, Option.getD_some]

/-- The bytes before the marker are the bits read without it (42_commands.md R148). -/
theorem FoundAt.stripMarker_bind {s : State} {bs : List Byte} (h : FoundAt s bs) :
    (stripMarker (bitBuffer s s.pix.toNat)).bind bitsToBytes = some (bs.take (bs.length - 3)) := by
  rw [← h.bits, stripMarker_bytesToBits h.three_le, Option.bind_some, bitsToBytes_bytesToBits]

/-- The marker found is the first there is (42_commands.md R148). -/
theorem FoundAt.pix_eq_of_first {s : State} {bs : List Byte} {n : Nat} (h : FoundAt s bs) (h24 : 24 ≤ n) (h8 : n % 8 = 0)
    (hn : isEndMarker (bitBuffer s n) n = some true)
    (hfirst : ∀ k, 24 ≤ k → k < n → k % 8 = 0 → isEndMarker (bitBuffer s k) k = some false) : s.pix.toNat = n := by
  rcases Nat.lt_trichotomy s.pix.toNat n with hlt | heq | hgt
  · have hno := hfirst _ (le_of_isEndMarker h.marker).1 hlt (by rw [h.pix_eq]; exact Nat.mul_mod_right 8 _)
    rw [h.marker] at hno; cases hno
  · exact heq
  · have hno := h.first n h24 (Nat.le_sub_one_of_lt hgt) h8
    rw [hn] at hno; cases hno

/-- Settles O48: `ScanEnd`, read at the least marker position or with no marker. -/
theorem extractResult : Obligations.ExtractResult := by
  intro s a t m hb hexec ha hend hidle
  obtain ⟨hv, rfl⟩ := exec_extract_busy hb hexec ha
  obtain ⟨kept, hscan⟩ := extract_result hv hend hidle
  have hbuf : ∀ n, bitBuffer t n = bitBuffer s n := bitBuffer_congr kept.raster
  have hcap : capacity t = s.width.toNat * s.height.toNat := kept.operands.capacity
  refine ⟨⟨kept.raster, kept.msg, kept.key, kept.fits, kept.operands.width, kept.operands.height, kept.operands.msgLen,
    kept.operands.keyLen, kept.cmd, kept.op, kept.sizes⟩, fun n h24 hn h8 hmark hfirst => ?_, fun hnone => ?_⟩
  · simp only [← hbuf] at hmark hfirst ⊢
    rcases hscan with ⟨hst, herr, bs, hfound⟩ | ⟨-, -, -, hpix, hno⟩
    · obtain rfl := hfound.pix_eq_of_first h24 h8 hmark hfirst
      have hk : t.keyLen.toNat ≠ 0 := by
        obtain ⟨-, -, hk0, -⟩ := validateExtract_eq_none.1 hv
        rw [kept.operands.keyLen]
        exact hk0
      have hkey : keyBytes t = keyBytes s := kept.keyBytes
      refine ⟨_, hfound.stripMarker_bind, hkey ▸ hfound.xorCyclic_outBytes hk, hst, herr, ?_, rfl⟩
      rw [hfound.outLen_eq, hfound.pix_eq, Nat.mul_div_cancel_left _ (by decide)]
    · have hmiss := hno n h24 (by rw [hpix, hcap]; exact hn) h8
      rw [hmark] at hmiss; cases hmiss
  · simp only [← hbuf] at hnone
    rcases hscan with ⟨-, -, bs, hfound⟩ | ⟨hst, herr, hout, hpix, -⟩
    · have hmiss := hnone _ (le_of_isEndMarker hfound.marker).1 (hcap ▸ hfound.pix_le)
        (by rw [hfound.pix_eq]; exact Nat.mul_mod_right 8 _)
      rw [hfound.marker] at hmiss; cases hmiss
    · exact ⟨hst, herr, hout, hpix.trans hcap⟩

/-! ## What EXTRACT depends on -/

/-- A marker ends at `n` on a byte boundary, and none before it (42_commands.md R148). -/
structure FirstMarker (s : State) (n : Nat) : Prop where
  ge : 24 ≤ n
  aligned : n % 8 = 0
  marker : isEndMarker (bitBuffer s n) n = some true
  first : ∀ k, 24 ≤ k → k < n → k % 8 = 0 → isEndMarker (bitBuffer s k) k = some false

/-- Among the first `N` bits there is a first marker, or none. -/
theorem firstMarker_or_noMarker (s : State) (N : Nat) : (∃ n, n ≤ N ∧ FirstMarker s n) ∨ NoMarkerUpTo s N := by
  induction N with
  | zero => exact .inr fun k h24 hk => absurd (h24.trans hk) (Nat.not_succ_le_zero 23)
  | succ N ih =>
    rcases ih with ⟨n, hn, hf⟩ | hno
    · exact .inl ⟨n, Nat.le_succ_of_le hn, hf⟩
    · by_cases hm : (N + 1) % 8 = 0 ∧ isEndMarker (bitBuffer s (N + 1)) (N + 1) = some true
      · exact .inl ⟨N + 1, le_rfl, (le_of_isEndMarker hm.2).1, hm.1, hm.2,
          fun k h24 hk => hno k h24 (Nat.le_of_lt_succ hk)⟩
      · exact .inr (hno.succ fun h8 hmark => hm ⟨h8, hmark⟩)

/-- The first marker is a matter of the bits up to it. -/
theorem FirstMarker.congr {s t : State} {n : Nat} (h : FirstMarker s n) (hbit : ∀ k, k < n → blueBit t k = blueBit s k) :
    FirstMarker t n where
  ge := h.ge
  aligned := h.aligned
  marker := by rw [bitBuffer_eq hbit]; exact h.marker
  first k h24 hk h8 := by
    rw [bitBuffer_eq fun j hj => hbit j (hj.trans hk)]
    exact h.first k h24 hk h8

theorem outBytes_eq_nil {s : State} (h : s.outLen = 0) : outBytes s = [] := by
  rw [outBytes, h]
  rfl

/-- Settles O51: the checks see sizes, W*H and KL alike, and the two scans find the same first marker, or none. -/
theorem extractDependsOnBlueBitsOnly : Obligations.ExtractDependsOnBlueBitsOnly := by
  intro s s' a a' t t' n n' hb hexec hend hidle hb' hexec' hend' hidle' hsizes hcap hkl hkey hbit
  have hv : validateExtract s' = validateExtract s := by
    unfold validateExtract
    rw [hsizes, hcap, hkl]
  cases he : validateExtract s with
  | some e =>
    obtain ⟨hst, herr, hout, hpix⟩ := exec_extract_rejected hb hexec he
    obtain ⟨hst', herr', hout', hpix'⟩ := exec_extract_rejected hb' hexec' (hv.trans he)
    obtain rfl := hend.eq_of_not_busy (by rw [hst]; decide)
    obtain rfl := hend'.eq_of_not_busy (by rw [hst']; decide)
    exact ⟨hst'.trans hst.symm, herr'.trans herr.symm, hout'.trans hout.symm, hpix'.trans hpix.symm,
      (outBytes_eq_nil hout').trans (outBytes_eq_nil hout).symm⟩
  | none =>
    obtain rfl := Host.Outcome.next.inj ((exec_extract_of_validateExtract hb he).symm.trans hexec)
    obtain rfl := Host.Outcome.next.inj ((exec_extract_of_validateExtract hb' (hv.trans he)).symm.trans hexec')
    obtain ⟨-, hfound, hmissed⟩ := extractResult _ _ _ _ hb hexec rfl hend hidle
    obtain ⟨-, hfound', hmissed'⟩ := extractResult _ _ _ _ hb' hexec' rfl hend' hidle'
    rcases firstMarker_or_noMarker s (capacity s) with ⟨k, hk, hf⟩ | hno
    · obtain ⟨p, hp, hx, hst, herr, hout, hpix⟩ := hfound k hf.ge hk hf.aligned hf.marker hf.first
      rw [hpix] at hbit
      have hf' := hf.congr hbit
      obtain ⟨p', hp', hx', hst', herr', hout', hpix'⟩ :=
        hfound' k hf'.ge (hk.trans_eq hcap.symm) hf'.aligned hf'.marker hf'.first
      obtain rfl : p' = p := Option.some_inj.1 (by rw [← hp', ← hp, bitBuffer_eq hbit])
      rw [hkey] at hx'
      exact ⟨hst'.trans hst.symm, herr'.trans herr.symm, BitVec.eq_of_toNat_eq (hout'.trans hout.symm),
        BitVec.eq_of_toNat_eq (hpix'.trans hpix.symm), Option.some_inj.1 (hx'.symm.trans hx)⟩
    · obtain ⟨hst, herr, hout, hpix⟩ := hmissed hno
      rw [hpix] at hbit
      have hcap' : s'.width.toNat * s'.height.toNat = s.width.toNat * s.height.toNat := hcap
      obtain ⟨hst', herr', hout', hpix'⟩ := hmissed' fun k h24 hk h8 => by
        rw [hcap'] at hk
        rw [bitBuffer_eq fun j hj => hbit j (hj.trans_le hk)]
        exact hno k h24 hk h8
      exact ⟨hst'.trans hst.symm, herr'.trans herr.symm, hout'.trans hout.symm,
        BitVec.eq_of_toNat_eq (by rw [hpix', hpix, hcap']), (outBytes_eq_nil hout').trans (outBytes_eq_nil hout).symm⟩

end Sys2Proof.Machine

/-! PROOFS. The family 42_commands.md, the round trip: an EXTRACT finds the first 0x00, 0x00, 0x03 of the stream that an
EMBED left in the blue bits. -/

namespace Sys2Proof.Machine

/-! ## A raster that carries a stream -/

/-- The first blue bits 0 of the raster are the bits of `st`. -/
def CarriesStream (x : State) (st : List Byte) : Prop :=
  ∀ k bit, (bytesToBits st)[k]? = some bit → blueBit x k = bit

theorem withBlueBit_blueBit (p : Pixel) (bit : Bit) : ((withBlueBit p bit).b &&& 1#8).setWidth 1 = bit := by
  ext i hi
  obtain rfl : i = 0 := by omega
  simp [withBlueBit]

theorem bytesToBits_take (bs : List Byte) (n : Nat) : (bytesToBits bs).take (8 * n) = bytesToBits (bs.take n) := by
  ext1 k
  rw [List.getElem?_take, bytesToBits_getElem?, bytesToBits_getElem?, List.getElem?_take]
  have hdiv : k < 8 * n ↔ k / 8 < n := by omega
  simp only [hdiv]
  split_ifs <;> rfl

/-- The bits read from a raster that carries a stream are the bits of its first bytes. -/
theorem CarriesStream.bitBuffer_eq {x : State} {st : List Byte} (h : CarriesStream x st) {i : Nat} (hi : i ≤ st.length) :
    bitBuffer x (8 * i) = bytesToBits (st.take i) := by
  rw [← bytesToBits_take]
  refine List.ext_getElem? fun k => ?_
  rw [List.getElem?_take]
  split_ifs with hk
  · have hlt : k < (bytesToBits st).length := by
      rw [length_bytesToBits]
      omega
    rw [bitBuffer_getElem? x hk, h k _ (List.getElem?_eq_getElem hlt), List.getElem?_eq_getElem hlt]
  · exact List.getElem?_eq_none (by rw [length_bitBuffer]; omega)

theorem markerAt_take {st : List Byte} {i n : Nat} (h : i + 3 ≤ n) : MarkerAt (st.take n) i ↔ MarkerAt st i := by
  unfold MarkerAt
  rw [List.getElem?_take_of_lt (by omega), List.getElem?_take_of_lt (by omega), List.getElem?_take_of_lt (by omega)]

theorem MarkerAt.le_length {st : List Byte} {i : Nat} (h : MarkerAt st i) : i + 3 ≤ st.length := by
  obtain ⟨-, -, h2⟩ := h
  exact (List.getElem?_eq_some_iff.1 h2).1

/-- In the bits that are read a marker ends where the stream has its three bytes (40_bitcodec.md R104). -/
theorem CarriesStream.isEndMarker_iff {x : State} {st : List Byte} (h : CarriesStream x st) {i : Nat}
    (hi : i + 3 ≤ st.length) : isEndMarker (bitBuffer x (8 * (i + 3))) (8 * (i + 3)) = some true ↔ MarkerAt st i := by
  rw [h.bitBuffer_eq hi, isEndMarker_bytesToBits, markerAt_take le_rfl]

/-- The stream's first marker is the scan's. -/
theorem CarriesStream.firstMarker {x : State} {st : List Byte} (h : CarriesStream x st) {i : Nat} (hi : MarkerAt st i)
    (hfirst : ∀ j, j < i → ¬ MarkerAt st j) : FirstMarker x (8 * (i + 3)) where
  ge := by omega
  aligned := Nat.mul_mod_right 8 _
  marker := (h.isEndMarker_iff hi.le_length).2 hi
  first k h24 hk h8 := by
    obtain ⟨j, rfl⟩ : ∃ j, k = 8 * (j + 3) := ⟨k / 8 - 3, by omega⟩
    have hlen := hi.le_length
    rw [isEndMarker_eq_false_iff h24 (length_bitBuffer x _).ge, ne_eq, h.isEndMarker_iff (by omega)]
    exact hfirst j (by omega)

/-- An EXTRACT gives the stream's bytes before its first marker, deobfuscated (42_commands.md R148). -/
theorem CarriesStream.extracted {x b t : State} {m i : Nat} {st : List Byte} (h : CarriesStream x st)
    (hi : MarkerAt st i) (hfirst : ∀ j, j < i → ¬ MarkerAt st j) (hb : x.state ≠ .busy) (hv : validateExtract x = none)
    (hlen : 8 * st.length ≤ capacity x) (hexec : exec .extract x = .next b) (hend : CommandEnds m b t)
    (hidle : t.state ≠ .idle) :
    t.state = .doneOk ∧ t.outLen.toNat = i ∧ xorCyclic (st.take i) (keyBytes x) = some (outBytes t) ∧
      t.pix.toNat = 8 * (i + 3) := by
  obtain rfl := Host.Outcome.next.inj ((exec_extract_of_validateExtract hb hv).symm.trans hexec)
  obtain ⟨-, hfound, -⟩ := extractResult _ _ _ _ hb hexec rfl hend hidle
  have hf := h.firstMarker hi hfirst
  have hl := hi.le_length
  have hle : 8 * (i + 3) ≤ capacity x := (Nat.mul_le_mul_left 8 hl).trans hlen
  obtain ⟨p, hp, hx, hst, -, hout, hpix⟩ := hfound _ hf.ge hle hf.aligned hf.marker hf.first
  have htake : (st.take (i + 3)).length = i + 3 := List.length_take_of_le hl
  rw [h.bitBuffer_eq hl, stripMarker_bytesToBits (by omega), Option.bind_some, bitsToBytes_bytesToBits, htake,
    Nat.add_sub_cancel, List.take_take, Nat.min_eq_left (Nat.le_add_right i 3), Option.some_inj] at hp
  refine ⟨hst, ?_, hp ▸ hx, hpix⟩
  rw [hout, Nat.mul_div_cancel_left _ (by decide), Nat.add_sub_cancel]

/-! ## What an EMBED leaves for an EXTRACT -/

/-- The first bytes of a result are the result of the first bytes (41_xor.md R120). -/
theorem xorCyclic_take {b k r : List Byte} (h : xorCyclic b k = some r) (n : Nat) :
    xorCyclic (b.take n) k = some (r.take n) := by
  obtain ⟨hk, hr⟩ := xorCyclic_eq_some_iff.1 h
  refine xorCyclic_eq_some_iff.2 ⟨hk, by rw [List.length_take, List.length_take, hr.length_eq], fun i v x hv hx => ?_⟩
  rw [List.getElem?_take] at hv ⊢
  split_ifs at hv ⊢ with hi
  exact hr.byte_eq i v x hv hx

/-- The premises of the round trip, read on the block `x` before the EXTRACT: the EMBED's stream is there, and EXTRACT's
checks pass (42_commands.md R132, R140). -/
theorem carriesStream_after_embed {s a e x : State} {n : Nat} {payload : List Byte} (hb : s.state ≠ .busy)
    (hexec : exec .embed s = .next a) (ha : a.state = .busy) (hend : CommandEnds n a e) (hidle : e.state ≠ .idle)
    (hx : xorCyclic (message s) (keyBytes s) = some payload) (hpix : ∀ k, k < reqBits s → pixelAt x k = pixelAt e k)
    (hkl : x.keyLen = s.keyLen) (hkm : x.keyLen.toNat ≤ x.sizes.kMax) (hcap : capacity x ≤ x.sizes.pMax)
    (hreq : reqBits s ≤ capacity x) : CarriesStream x (appendEndMarker payload) ∧ validateExtract x = none := by
  obtain ⟨hv, rfl⟩ := exec_embed_busy hb hexec ha
  obtain ⟨-, -, -, hk0, -⟩ := validateEmbed_eq_none.1 hv
  obtain ⟨payload', hx', ⟨kept, -, progress⟩, -, hend'⟩ := embed_result hv hend hidle
  obtain rfl : payload' = payload := Option.some_inj.1 (hx'.symm.trans hx)
  refine ⟨fun k bit hk => ?_, validateExtract_eq_none.2 ⟨hcap, hkm, hkl ▸ hk0, ?_⟩⟩
  · have hlt : k < reqBits s := by
      rw [← length_bits_embedStream (embedStream_eq_some.2 ⟨payload', hx, rfl⟩)]
      exact (List.getElem?_eq_some_iff.1 hk).1
    rw [blueBit, hpix k hlt, progress.written_all (hend'.trans kept.reqBits.symm) hk, withBlueBit_blueBit]
  · exact Nat.ne_of_gt (Nat.lt_of_lt_of_le (Nat.succ_pos _) hreq)

/-- The marker that ends every stream (40_bitcodec.md R102). -/
theorem markerAt_length_appendEndMarker (b : List Byte) : MarkerAt (appendEndMarker b) b.length := by
  simp [MarkerAt, appendEndMarker, marker]

theorem length_appendEndMarker (b : List Byte) : (appendEndMarker b).length = b.length + 3 := List.length_append

/-- An EXTRACT after an EMBED gives the message as far as the stream's first marker (42_commands.md R149, R150). -/
theorem extracted_after_embed {s x b t : State} {m i : Nat} {payload : List Byte}
    (hx : xorCyclic (message s) (keyBytes s) = some payload)
    (hc : CarriesStream x (appendEndMarker payload)) (hv : validateExtract x = none)
    (hi : MarkerAt (appendEndMarker payload) i) (hfirst : ∀ j, j < i → ¬ MarkerAt payload j) (hb : x.state ≠ .busy)
    (hkey : keyBytes x = keyBytes s) (hreq : reqBits s ≤ capacity x) (hexec : exec .extract x = .next b)
    (hend : CommandEnds m b t) (hidle : t.state ≠ .idle) :
    t.state = .doneOk ∧ t.outLen.toNat = i ∧ outBytes t = (message s).take i ∧ t.pix.toNat = 8 * (i + 3) := by
  have hil : i ≤ payload.length := Nat.le_of_add_le_add_right (length_appendEndMarker payload ▸ hi.le_length)
  have hlen : 8 * (appendEndMarker payload).length ≤ capacity x := by
    rw [length_appendEndMarker, length_payload hx]
    exact hreq
  obtain ⟨hst, hout, hxor, hpix⟩ := hc.extracted hi
    (fun j hj => mt (markerAt_appendEndMarker (hj.trans_le hil)).1 (hfirst j hj)) hb hv hlen hexec hend hidle
  rw [appendEndMarker, List.take_append_of_le_length hil, hkey, xorCyclic_take (xorIsAnInvolution _ _ _ hx) i] at hxor
  exact ⟨hst, hout, (Option.some_inj.1 hxor).symm, hpix⟩

/-- Settles O50: the payload's first marker is the stream's. -/
theorem markerInPayloadTruncates : Obligations.MarkerInPayloadTruncates := by
  intro s a e x b t n m payload i hb hexec ha hend hidle hx hi hfirst hxb hpix hkl hkey hkm hcap hreq hexec' hend' hidle'
  obtain ⟨hc, hv⟩ := carriesStream_after_embed hb hexec ha hend hidle hx hpix hkl hkm hcap hreq
  have hlt : i < payload.length := Nat.lt_of_lt_of_le (by omega) hi.le_length
  exact extracted_after_embed hx hc hv ((markerAt_appendEndMarker hlt).2 hi) hfirst hxb hkey hreq hexec' hend' hidle'

/-- Settles O49: with no marker in the payload the stream's first one is its end; with one the message is cut short. -/
theorem roundTrip : Obligations.RoundTrip := by
  intro s a e x b t n m payload hb hexec ha hend hidle hx hxb hpix hkl hkey hkm hcap hreq hexec' hend' hidle'
  obtain ⟨hc, hv⟩ := carriesStream_after_embed hb hexec ha hend hidle hx hpix hkl hkm hcap hreq
  have hlen := length_payload hx
  constructor
  · rintro ⟨-, hout, -, -⟩ i hi
    obtain ⟨j, hj, hfirst⟩ : ∃ j, MarkerAt payload j ∧ ∀ k, k < j → ¬ MarkerAt payload k :=
      ⟨Nat.find ⟨i, hi⟩, Nat.find_spec ⟨i, hi⟩, fun k hk => Nat.find_min ⟨i, hi⟩ hk⟩
    obtain ⟨-, hcut, -, -⟩ := markerInPayloadTruncates s a e x b t n m payload j hb hexec ha hend hidle hx hj hfirst hxb
      hpix hkl hkey hkm hcap hreq hexec' hend' hidle'
    have hjl := hj.le_length
    omega
  · intro hno
    obtain ⟨hst, hout, hmsg, hend''⟩ := extracted_after_embed hx hc hv (markerAt_length_appendEndMarker payload)
      (fun j _ => hno j) hxb hkey hreq hexec' hend' hidle'
    rw [hlen] at hout hmsg hend''
    refine ⟨hst, hout, ?_, hend''⟩
    rw [hmsg, List.take_of_length_le (length_message s).le]

end Sys2Proof.Machine

/-! PROOFS. The family 43_host_bus.md, the transactions: what each of them does to the block, and which of them only mark
the run refused. -/

namespace Sys2Proof.Machine

/-! ## Register accesses -/

/-- A 32-bit access at a multiple of 4 up to 0xFC is not refused (43_host_bus.md R171, R172). -/
theorem registerRefusal_eq_none {off : Nat} (h4 : off % 4 = 0) (hle : off ≤ 0xFC) : registerRefusal 32 off = none := by
  unfold registerRefusal
  rw [if_neg (by decide), if_neg (by omega)]

/-- Any other register access is refused, with some reason (43_host_bus.md R177 (1), (2)). -/
theorem exists_registerRefusal {width off : Nat} (h : width ≠ 32 ∨ off % 4 ≠ 0 ∨ 0xFC < off) :
    ∃ r, registerRefusal width off = some r := by
  unfold registerRefusal
  by_cases hw : width ≠ 32
  · exact ⟨_, if_pos hw⟩
  · exact ⟨_, (if_neg hw).trans (if_pos (h.resolve_left hw))⟩

theorem performHost_rd {off : Nat} (h4 : off % 4 = 0) (hle : off ≤ 0xFC) (s : State) :
    performHost (.rd 32 off) s = .next (answer (readReg s (regAt off)) s) := by
  simp only [performHost, performRd, registerRefusal_eq_none h4 hle]

theorem performHost_wr {off : Nat} (h4 : off % 4 = 0) (hle : off ≤ 0xFC) (v : Word) (s : State) :
    performHost (.wr 32 off v) s = writeReg (regAt off) v s := by
  simp only [performHost, performWr, registerRefusal_eq_none h4 hle]

theorem performHost_rd_refused {width off : Nat} {r : Refusal} (h : registerRefusal width off = some r) (s : State) :
    performHost (.rd width off) s = .next (refuse r s) := by
  simp only [performHost, performRd, h]

theorem performHost_wr_refused {width off : Nat} {r : Refusal} (h : registerRefusal width off = some r) (v : Word)
    (s : State) : performHost (.wr width off v) s = .next (refuse r s) := by
  simp only [performHost, performWr, h]

/-- From CAPACITY on no register is written by the host (10_state.md R22). -/
theorem writeReg_regAt_readOnly {off : Nat} (h : 0x18 ≤ off) (v : Word) (s : State) :
    writeReg (regAt off) v s = .next s := by
  unfold regAt
  split
  case h_1 | h_2 | h_3 | h_4 | h_5 | h_6 => omega
  all_goals rfl

/-- Above BIT_COUNT the offsets are reserved (10_state.md R35). -/
theorem regAt_reserved {off : Nat} (h : 0x28 ≤ off) : regAt off = .reserved := by
  unfold regAt
  split
  case h_11 => rfl
  all_goals omega

theorem unlessBusy_of_busy {s : State} (hb : s.state = .busy) (write : State → State) :
    unlessBusy write s = dropWrite s := if_pos hb

theorem unlessBusy_of_not_busy {s : State} (hb : s.state ≠ .busy) (write : State → State) :
    unlessBusy write s = write s := if_neg hb

theorem writeCmd_of_decode_ok {w : Word} {i : Instr} (h : decode w = .ok i) (s : State) : writeCmd w s = exec i s := by
  simp only [writeCmd, h]

theorem writeCmd_of_decode_error {w : Word} {e : DecodeError} (h : decode w = .error e) (s : State) :
    writeCmd w s = .next (issueIllegal w s) := by
  simp only [writeCmd, h]

/-- The write of a command's word is dropped while BUSY (43_host_bus.md R175). -/
theorem exec_of_busy {s : State} (hb : s.state = .busy) (i : Instr) : exec i s = .next (dropWrite s) := by
  cases i with
  | canEmbed | embed | extract => exact congrArg Host.Outcome.next (unlessBusy_of_busy hb _)

/-- The five registers whose writes are dropped while BUSY (43_host_bus.md R175). -/
theorem performHost_wr_of_busy {s : State} (hb : s.state = .busy) {off : Nat} (v : Word)
    (hoff : off ∈ [0x00, 0x08, 0x0C, 0x10, 0x14]) : performHost (.wr 32 off v) s = .next (dropWrite s) := by
  simp only [List.mem_cons, List.not_mem_nil, or_false] at hoff
  rcases hoff with rfl | hoff
  · exact (writeCmd_eq v s).trans (congrArg Host.Outcome.next (if_pos hb))
  · rcases hoff with rfl | rfl | rfl | rfl <;> exact congrArg Host.Outcome.next (unlessBusy_of_busy hb _)

/-- A STATUS write touches LOST only, and only with bit 9 (10_state.md R24). -/
theorem writeStatus_eq (v : Word) (s : State) :
    writeStatus v s = if v.getLsbD 9 then { s with lost := false } else s := by
  unfold writeStatus
  cases v.getLsbD 9 <;> simp

/-- Settles O15, row by row of R172's table. -/
theorem registerWritesFollowTheTable : Obligations.RegisterWritesFollowTheTable := by
  intro s v
  refine ⟨fun hb => ⟨fun i hd => writeCmd_of_decode_ok hd s, fun e hd => writeCmd_of_decode_error hd s, ?width, ?height,
      ?msgLen, ?keyLen⟩,
    fun hb off hoff => performHost_wr_of_busy hb v hoff, congrArg Host.Outcome.next (writeStatus_eq v s),
    fun off h18 hle h4 => ?readOnly, fun off hoff => ?refused⟩
  case width | height | msgLen | keyLen =>
    rw [← BitVec.setWidth_eq_extractLsb' (by decide)]
    exact congrArg Host.Outcome.next (unlessBusy_of_not_busy hb _)
  case readOnly => rw [performHost_wr h4 hle, writeReg_regAt_readOnly h18]
  case refused =>
    obtain ⟨r, hr⟩ := exists_registerRefusal (width := 32) (.inr hoff)
    exact ⟨r, performHost_wr_refused hr v s⟩

/-! ## What a register reads -/

/-- STATUS is the sum of its fields at their places (10_state.md R24). -/
theorem statusWord_toNat (s : State) : (statusWord s).toNat =
    s.state.code.toNat + 2 ^ 4 * s.err.code.toNat + 2 ^ 8 * s.fits.toNat + 2 ^ 9 * s.lost.toNat := by
  simp only [statusWord, toNat_append_eq_add, BitVec.toNat_ofBool, BitVec.toNat_ofNat]
  omega

/-- CAPACITY reads W*H whole (10_state.md R31). -/
theorem readReg_capacity_toNat (s : State) : (readReg s .capacity).toNat = capacity s :=
  Nat.mod_eq_of_lt (capacity_lt s)

/-- REQ_BITS reads 8*L + 24 whole (10_state.md R32). -/
theorem readReg_reqBits_toNat (s : State) : (readReg s .reqBits).toNat = reqBits s := by
  have hl := s.msgLen.isLt
  refine Nat.mod_eq_of_lt ?_
  unfold reqBits messageBitLength
  omega

/-- Settles O16: an access that is not refused answers the register at its offset, whose value is then read off. -/
theorem registerReadsReturnTheRegister : Obligations.RegisterReadsReturnTheRegister := by
  intro s off
  refine ⟨fun hoff => ?_, fun h4 hle => ⟨readReg s (regAt off), performHost_rd h4 hle s, ?_⟩⟩
  · obtain ⟨r, hr⟩ := exists_registerRefusal (width := 32) (.inr hoff)
    exact ⟨r, performHost_rd_refused hr s⟩
  refine ⟨?cmd, ?status, ?width, ?height, ?msgLen, ?keyLen, ?capacity, ?reqBits, ?outLen, ?bitCount, ?reserved⟩
  case reserved => exact fun h28 => congrArg (readReg s) (regAt_reserved h28)
  all_goals rintro rfl
  case cmd | outLen | bitCount => rfl
  case width | height | msgLen | keyLen => exact BitVec.toNat_setWidth_of_le (by decide)
  case capacity => exact readReg_capacity_toNat s
  case reqBits => exact readReg_reqBits_toNat s
  case status =>
    refine (statusWord_toNat s).trans ?_
    congr 1
    · congr 1
      · congr 1
        · cases s.state <;> rfl
        · cases s.err <;> rfl
      · cases s.fits <;> rfl
    · cases s.lost <;> rfl

/-! ## Window accesses -/

theorem performHost_mrd_of_out_of_range {s : State} {sp : Space} {i : Nat} (h : s.sizes.of sp ≤ i) :
    performHost (.mrd sp i) s = .next (refuse .elementOutOfRange s) := if_pos h

theorem performHost_mwr_of_out_of_range {s : State} {sp : Space} {i : Nat} (h : s.sizes.of sp ≤ i) (v : Word) :
    performHost (.mwr sp i v) s = .next (refuse .elementOutOfRange s) := if_pos h

/-- Settles O18: the two branches of a read in range. -/
theorem windowReads : Obligations.WindowReads := fun _ _ _ hi =>
  ⟨fun hb => (if_neg (Nat.not_le.2 hi)).trans (if_neg hb), fun hb => (if_neg (Nat.not_le.2 hi)).trans (if_pos hb)⟩

/-- A window write outside BUSY and in range (43_host_bus.md R174). -/
theorem performHost_mwr {s : State} {sp : Space} {i : Nat} (hi : i < s.sizes.of sp) (hb : s.state ≠ .busy) (v : Word) :
    performHost (.mwr sp i v) s = .next (writeElement sp i v s) :=
  (if_neg (Nat.not_le.2 hi)).trans (if_neg hb)

/-- A window write while BUSY is refused, out of range or not (43_host_bus.md R176, R177). -/
theorem exists_refuse_mwr_of_busy {s : State} (hb : s.state = .busy) (sp : Space) (i : Nat) (v : Word) :
    ∃ r, performHost (.mwr sp i v) s = .next (refuse r s) := by
  by_cases hi : s.sizes.of sp ≤ i
  · exact ⟨_, performHost_mwr_of_out_of_range hi v⟩
  · exact ⟨_, (if_neg hi).trans (if_pos hb)⟩

/-- A window write changes the memories alone (43_host_bus.md R174). -/
theorem writeElement_frame (sp : Space) (i : Nat) (v : Word) (s : State) :
    writeElement sp i v s = { s with
      raster := (writeElement sp i v s).raster, msg := (writeElement sp i v s).msg, key := (writeElement sp i v s).key
      out := (writeElement sp i v s).out } := by
  cases sp <;> rfl

/-- Settles O19: `writeElement`, element by element. -/
theorem windowWrites : Obligations.WindowWrites := by
  intro s sp i v
  refine ⟨?_, fun hi hb => ⟨_, performHost_mwr hi hb v, writeElement_frame sp i v s, fun j => ?_, fun j => ?_, fun j => ?_,
    fun j => ?_⟩⟩
  · rintro (hi | hb)
    · exact ⟨_, performHost_mwr_of_out_of_range hi v⟩
    · exact exists_refuse_mwr_of_busy hb sp i v
  · exact pixelAt_writeElement sp i j v s
  · exact msgAt_writeElement sp i j v s
  · exact keyAt_writeElement sp i j v s
  · exact outAt_writeElement sp i j v s

/-! ## The observation at the end of a run -/

/-- The registers observed are all there are: the reserved offsets read 0 (10_state.md R35). -/
theorem observe_registers_eq_iff {s t : State} :
    (observe t).registers = (observe s).registers ↔ ∀ r, readReg t r = readReg s r := by
  unfold observe
  rw [List.map_inj_left]
  constructor
  · intro h r
    cases r with
    | reserved => rfl
    | _ => exact h _ (by decide)
  · exact fun h r _ => h r

/-- Settles O60, component by component of the observation. -/
theorem observationIsRegistersAndContents : Obligations.ObservationIsRegistersAndContents := by
  intro s t hz
  rw [← observe_registers_eq_iff]
  simp only [observe, hz, Observation.mk.injEq, List.map_inj_left, List.mem_range]

end Sys2Proof.Machine

/-! PROOFS. The family 43_host_bus.md, the step and the run: who moves, what a refusal does, and that every run reaches its
end. `Inv.step_nearer_end` says why: each step uses up an item of the program, a pixel, or a turn of the host. -/

namespace Sys2Proof.Machine

/-! ## Who moves -/

theorem dropHead_eq {s : State} {op : HostOp} {rest : List HostOp} (hp : s.program = op :: rest) :
    dropHead s = { s with program := rest } := by
  simp only [dropHead, hp, List.tail_cons]

/-- Outside BUSY the host moves (43_host_bus.md R170). -/
theorem step_of_not_busy {s : State} {op : HostOp} {rest : List HostOp} (hr : s.refusal = none)
    (hp : s.program = op :: rest) (hb : s.state ≠ .busy) : step s = performHost op { s with program := rest } := by
  rw [← dropHead_eq hp]
  simp only [step, systemStep, hr, hp, moveHost, if_neg hb]

/-- While BUSY the host moves when it has a turn (43_host_bus.md R170; log entry 6). -/
theorem step_of_hostTurn {s : State} {op : HostOp} {rest : List HostOp} (hr : s.refusal = none)
    (hp : s.program = op :: rest) (hb : s.state = .busy) (ht : turnsLeft s ≠ 0) :
    step s = performHost op { hostTurn s with program := rest } := by
  rw [← dropHead_eq (s := hostTurn s) hp]
  simp only [step, systemStep, hr, hp, moveHost, if_pos hb, if_neg ht]

/-- While BUSY the engine moves when the host has no turn (43_host_bus.md R170; log entry 6). -/
theorem step_of_engineTurn {s : State} {op : HostOp} {rest : List HostOp} (hr : s.refusal = none)
    (hp : s.program = op :: rest) (hb : s.state = .busy) (ht : turnsLeft s = 0) :
    step s = engineStep (engineTurn s) := by
  simp only [step, systemStep, hr, hp, moveHost, if_pos hb, if_pos ht]

/-- With nothing left and no command in progress the block keeps all state (60_exceptions.md R218). -/
theorem step_at_end {s : State} (hr : s.refusal = none) (hp : s.program = []) (hb : s.state ≠ .busy) :
    step s = .next s := by
  simp only [step, systemStep, hr, hp, moveAlone, if_neg hb]

/-- Settles O6: `step_alone` and `step_at_end`. -/
theorem blockAloneStepsOrStays : Obligations.BlockAloneStepsOrStays := fun _ hr hp =>
  ⟨step_alone hr hp, step_at_end hr hp⟩

/-- Settles O4: a step of the host performs the item, and a CMD write looks at what the word decodes to. -/
theorem stepRunsTheDecodedCommand : Obligations.StepRunsTheDecodedCommand := by
  intro s op rest hr hp
  refine ⟨step_of_not_busy hr hp, step_of_hostTurn hr hp, step_of_engineTurn hr hp, fun w i hop hd => ?_,
    fun w e hop hd => ?_⟩
  · subst hop
    exact ⟨fun hb => (step_of_not_busy hr hp hb).trans (writeCmd_of_decode_ok hd _),
      fun hb ht => (step_of_hostTurn hr hp hb ht).trans (writeCmd_of_decode_ok hd _)⟩
  · subst hop
    exact ⟨fun hb => (step_of_not_busy hr hp hb).trans (writeCmd_of_decode_error hd _),
      fun hb ht => (step_of_hostTurn hr hp hb ht).trans (writeCmd_of_decode_error hd _)⟩

/-! ## A placed command -/

theorem decode_of_decodeTableWord {nbits w : Nat} {i : Instr} (h : decodeTableWord nbits w = some i) :
    decode (BitVec.ofNat 32 (w % 2 ^ nbits)) = .ok i := by
  unfold decodeTableWord at h
  split_ifs at h
  split at h
  next j hd =>
    cases h
    exact hd
  next => cases h

/-- Outside BUSY a placed write runs on the state it was placed in (log entry 7). -/
theorem withCommand_taken_of_not_busy {s : State} (hb : s.state ≠ .busy) (w : Word) :
    { withCommand s w with program := s.program } = { s with refusal := none } := by
  simp only [withCommand, if_neg hb]

/-- While BUSY a placed write has the host's next turn (log entry 7). -/
theorem turnsLeft_withCommand {s : State} (hb : s.state = .busy) (w : Word) : turnsLeft (withCommand s w) ≠ 0 := by
  unfold turnsLeft withCommand
  cases s.turns <;> simp [hb]

/-- While BUSY a placed write uses up the turn it was given: what is left are the turns listed before (log entry 7). -/
theorem hostTurn_withCommand_of_busy {s : State} (hb : s.state = .busy) (w : Word) :
    { hostTurn (withCommand s w) with program := s.program } =
      { s with refusal := none, turns := if s.turns = [] then [0] else s.turns } := by
  cases ht : s.turns <;> simp [hostTurn, withCommand, turnsLeft, drawsAfterTurn, hb, ht]

theorem step_withCommand_of_not_busy {s : State} (hb : s.state ≠ .busy) (w : Word) :
    step (withCommand s w) = writeCmd w { s with refusal := none } := by
  rw [← withCommand_taken_of_not_busy hb w]
  exact step_of_not_busy (s := withCommand s w) rfl rfl hb

theorem step_withCommand_of_busy {s : State} (hb : s.state = .busy) (w : Word) :
    step (withCommand s w) =
      writeCmd w { s with refusal := none, turns := if s.turns = [] then [0] else s.turns } := by
  rw [← hostTurn_withCommand_of_busy hb w]
  exact step_of_hostTurn (s := withCommand s w) rfl rfl hb (turnsLeft_withCommand hb w)

/-- Settles O5: the placed write is the host's next item, and while BUSY it is the host's turn. -/
theorem placedCommandRunsNext : Obligations.PlacedCommandRunsNext := by
  intro s nbits w i h
  have hd := decode_of_decodeTableWord h
  by_cases hb : s.state = .busy
  · refine ⟨_, (step_withCommand_of_busy hb _).trans (writeCmd_of_decode_ok hd _), rfl, ?_⟩
    by_cases ht : s.turns = []
    · exact .inr ⟨hb, ht, if_pos ht⟩
    · exact .inl (if_neg ht)
  · exact ⟨_, (step_withCommand_of_not_busy hb _).trans (writeCmd_of_decode_ok hd _), rfl, .inl rfl⟩

/-! ## Refused runs -/

/-- A run marked refused stays refused until a reset is next (43_host_bus.md R177). -/
theorem step_of_refused {s : State} {r : Refusal} (hr : s.refusal = some r)
    (hreset : ∀ rest, s.program ≠ .reset :: rest) : step s = .refused r := by
  simp only [step, systemStep, hr]
  unfold moveRefused
  split
  next rest hp => exact absurd hp (hreset rest)
  next => rfl

/-- A reset ends a run, marked or not (70_reset_and_hazards.md R220). -/
theorem step_of_refused_reset {s : State} {r : Refusal} {rest : List HostOp} (hr : s.refusal = some r)
    (hp : s.program = .reset :: rest) : step s = .next (resetBlock (dropHead s)) := by
  simp only [step, systemStep, hr, moveRefused, hp]

theorem performHost_ne_refused (op : HostOp) (s : State) (r : Refusal) : performHost op s ≠ .refused r := by
  obtain ⟨t, ht⟩ := performHost_next op s
  rw [ht]
  exact fun h => nomatch h

/-- A run that is not marked is not refused, whoever moves (43_host_bus.md R177; 60_exceptions.md R219). -/
theorem step_ne_refused {s : State} (hr : s.refusal = none) (r : Refusal) : step s ≠ .refused r := by
  by_cases hb : s.state = .busy
  · cases hp : s.program with
    | nil => exact step_alone hr hp hb ▸ engineStep_ne_refused s r
    | cons op rest =>
      by_cases ht : turnsLeft s = 0
      · exact step_of_engineTurn hr hp hb ht ▸ engineStep_ne_refused _ r
      · exact step_of_hostTurn hr hp hb ht ▸ performHost_ne_refused op _ r
  · cases hp : s.program with
    | nil =>
      rw [step_at_end hr hp hb]
      exact fun h => nomatch h
    | cons op rest => exact step_of_not_busy hr hp hb ▸ performHost_ne_refused op _ r

/-- Settles O20: each of the four is refused with its reason, and the reason stays. -/
theorem refusedTransactionsMarkTheRun : Obligations.RefusedTransactionsMarkTheRun := by
  refine ⟨fun s width off v h => ?_, fun s sp i v hi => ?_, fun s sp i v hb => exists_refuse_mwr_of_busy hb sp i v,
    fun s r hr hreset => step_of_refused hr hreset⟩
  · obtain ⟨r, hr⟩ := exists_registerRefusal h
    exact ⟨r, performHost_rd_refused hr s, performHost_wr_refused hr v s⟩
  · exact ⟨_, performHost_mrd_of_out_of_range hi, performHost_mwr_of_out_of_range hi v⟩

/-- Settles O21: an unmarked run is never refused, and a marked one is unless a reset is next. -/
theorem onlyMarkedRunsAreRefused : Obligations.OnlyMarkedRunsAreRefused := by
  intro s r
  constructor
  · intro h
    cases hr : s.refusal with
    | none => exact absurd h (step_ne_refused hr r)
    | some r' =>
      by_cases hreset : ∃ rest, s.program = .reset :: rest
      · obtain ⟨rest, hp⟩ := hreset
        rw [step_of_refused_reset hr hp] at h
        cases h
      · have hreset := not_exists.1 hreset
        rw [step_of_refused hr hreset] at h
        cases h
        exact ⟨rfl, hreset⟩
  · exact fun ⟨hr, hreset⟩ => step_of_refused hr hreset

/-! ## Dropped writes -/

/-- While BUSY only a reset changes an operand register (43_host_bus.md R175). -/
theorem step_operands_while_busy {s t : State} (hb : s.state = .busy) (h : step s = .next t) :
    SameOperands s t ∨ ∃ rest, s.program = .reset :: rest := by
  rcases step_while_busy hb h with ⟨u, hu, -, hs⟩ | ⟨rest, hp, -⟩ | ⟨hk, -⟩
  · have hsu := hu.sameOperands
    have hut := (engineStep_frame hs).1.sameOperands
    exact .inl ⟨hut.width.trans hsu.width, hut.height.trans hsu.height, hut.msgLen.trans hsu.msgLen,
      hut.keyLen.trans hsu.keyLen⟩
  · exact .inr ⟨rest, hp⟩
  · exact .inl hk.sameOperands

/-- Settles O23: the dropped writes, what can clear LOST (10_state.md R37), and the operands in BUSY. -/
theorem droppedWritesLeaveTheirMark : Obligations.DroppedWritesLeaveTheirMark := by
  refine ⟨fun s off v hb hoff => performHost_wr_of_busy hb v hoff, fun s i hb => exec_of_busy hb i,
    fun s t h => ⟨fun hl => ?_, fun hb => ?_⟩⟩
  · by_cases hn : t.lost = s.lost
    · exact .inl (hn.trans hl)
    · obtain ⟨-, -, -, hlost⟩ := statusIsWrittenOnlyAsListed s t h
      rcases hlost hn with ⟨hl', -⟩ | ⟨-, hwrite⟩ | ⟨-, hreset⟩
      · exact .inl hl'
      · exact .inr (.inl hwrite)
      · exact .inr (.inr hreset)
  · exact (step_operands_while_busy hb h).imp_left fun o => ⟨o.width, o.height, o.msgLen, o.keyLen⟩

/-! ## Every run ends -/

/-- The engine steps that the command in progress has at most left (42_commands.md R153). -/
def pixelsLeft (s : State) : Nat := if s.state = .busy then capacity s - s.pix.toNat else 0

/-- What is still to do, in the order in which it counts: items of the program, pixels, turns of the host. -/
def workLeft (s : State) : ℕ ×ₗ ℕ ×ₗ ℕ := toLex (s.program.length, toLex (pixelsLeft s, turnsLeft s))

theorem workLeft_lt_of_program {s t : State} (h : t.program.length < s.program.length) : workLeft t < workLeft s :=
  Prod.Lex.toLex_lt_toLex.2 (.inl h)

theorem workLeft_lt_of_pixels {s t : State} (hp : t.program = s.program) (h : pixelsLeft t < pixelsLeft s) :
    workLeft t < workLeft s :=
  Prod.Lex.toLex_lt_toLex.2 (.inr ⟨congrArg List.length hp, Prod.Lex.toLex_lt_toLex.2 (.inl h)⟩)

theorem workLeft_lt_of_turns {s t : State} (hp : t.program = s.program) (hx : pixelsLeft t = pixelsLeft s)
    (h : turnsLeft t < turnsLeft s) : workLeft t < workLeft s :=
  Prod.Lex.toLex_lt_toLex.2 (.inr ⟨congrArg List.length hp, Prod.Lex.toLex_lt_toLex.2 (.inr ⟨hx, h⟩)⟩)

theorem writeCmd_program {w : Word} {s t : State} (h : writeCmd w s = .next t) : t.program = s.program := by
  have ht := Host.Outcome.next.inj (h.symm.trans (writeCmd_eq w s))
  by_cases hb : s.state = .busy
  · rw [ht, if_pos hb, dropWrite_program]
  · rcases accept_cases hb ht with ⟨-, rfl⟩ | ⟨e, -, -, rfl⟩ | ⟨-, -, rfl⟩ | ⟨e, -, -, -, rfl⟩ | ⟨-, -, rfl⟩ |
      ⟨-, -, rfl⟩ | ⟨-, rfl⟩ <;> rfl

/-- Only a poll that reads BUSY puts an item back on the program (30_encoding.md R78). -/
theorem performHost_program {op : HostOp} {s t : State} (h : performHost op s = .next t) :
    t.program = s.program ∨ (op = .poll ∧ s.state = .busy) := by
  rcases performHost_cases h with ⟨w, rfl, -⟩ | ⟨off, v, -, -, ⟨-, rfl⟩ | ⟨-, ht⟩⟩ | ⟨v, -, rfl⟩ | ⟨-, rfl⟩ |
    ⟨sp, i, v, -, -, -, rfl⟩ | ⟨-, hp⟩
  · exact .inl (writeCmd_program h)
  · exact .inl rfl
  · rcases ht with rfl | rfl | rfl | rfl <;> exact .inl rfl
  · exact .inl rfl
  · exact .inl rfl
  · cases sp <;> exact .inl rfl
  · exact hp.imp_right fun ⟨hop, hb, _⟩ => ⟨hop, hb⟩

/-- The engine's step uses up a pixel: PIX rises, or the command has ended (42_commands.md R153). -/
theorem Inv.engineStep_pixelsLeft {s t : State} (h : Inv s) (hb : s.state = .busy) (hs : engineStep s = .next t) :
    pixelsLeft t < pixelsLeft s := by
  have hlt := (h.pix_lt_capacity hb).1
  unfold pixelsLeft
  rw [if_pos hb, (engineStep_frame hs).1.sameOperands.capacity, engineStep_pix_toNat h hb hs]
  split_ifs <;> omega

/-- The engine, when it moves, has its step, and there is less to do after it. -/
theorem Inv.engineStep_nearer_end {s : State} (h : Inv s) (hb : s.state = .busy) :
    ∃ t, engineStep s = .next t ∧ t.program = s.program ∧ pixelsLeft t < pixelsLeft s := by
  obtain ⟨t, ht⟩ := h.engineStep_next hb
  exact ⟨t, ht, (engineStep_frame ht).1.program, h.engineStep_pixelsLeft hb ht⟩

/-- A turn of the host while BUSY uses up the item, or, where a poll stays, the turn (43_host_bus.md R178). -/
theorem hostTurn_nearer_end {s : State} {op : HostOp} {rest : List HostOp} (hp : s.program = op :: rest)
    (hb : s.state = .busy) (ht : turnsLeft s ≠ 0) :
    ∃ t, performHost op { hostTurn s with program := rest } = .next t ∧ workLeft t < workLeft s := by
  by_cases hpoll : op = .poll
  · subst hpoll
    obtain ⟨hread, -, -⟩ := pollReadsUntilNotBusy { hostTurn s with program := rest }
    exact ⟨_, hread hb, workLeft_lt_of_turns hp.symm rfl (Nat.sub_one_lt ht)⟩
  · obtain ⟨t, h⟩ := performHost_next op { hostTurn s with program := rest }
    have hrest : t.program = rest := (performHost_program h).resolve_right fun ⟨hop, _⟩ => hpoll hop
    exact ⟨t, h, workLeft_lt_of_program (by rw [hrest, hp]; exact Nat.lt_succ_self _)⟩

/-- Short of its end, a run that is not refused has a step, and there is less to do after it: weak fairness (43_host_bus.md
R178) in the form of the host's turns (log entry 6). -/
theorem Inv.step_nearer_end {s : State} (h : Inv s) (hr : s.refusal = none)
    (hend : s.program ≠ [] ∨ s.state = .busy) : ∃ t, step s = .next t ∧ workLeft t < workLeft s := by
  cases hp : s.program with
  | nil =>
    have hb := hend.resolve_left (not_not.2 hp)
    obtain ⟨t, hs, hprog, hlt⟩ := h.engineStep_nearer_end hb
    exact ⟨t, (step_alone hr hp hb).trans hs, workLeft_lt_of_pixels hprog hlt⟩
  | cons op rest =>
    by_cases hb : s.state = .busy
    · by_cases ht : turnsLeft s = 0
      · have hv : HostView s (engineTurn s) s.program := rfl
        obtain ⟨t, hs, hprog, hlt⟩ := (hv.inv h).engineStep_nearer_end hb
        exact ⟨t, (step_of_engineTurn hr hp hb ht).trans hs, workLeft_lt_of_pixels hprog hlt⟩
      · obtain ⟨t, hs, hlt⟩ := hostTurn_nearer_end hp hb ht
        exact ⟨t, (step_of_hostTurn hr hp hb ht).trans hs, hlt⟩
    · obtain ⟨t, hs⟩ := performHost_next op { s with program := rest }
      have hrest : t.program = rest := (performHost_program hs).resolve_right fun ⟨_, hbusy⟩ => hb hbusy
      exact ⟨t, (step_of_not_busy hr hp hb).trans hs, workLeft_lt_of_program (by rw [hrest, hp]; exact Nat.lt_succ_self _)⟩

/-- Settles O59, by induction on what is left to do. -/
theorem everyRunEnds : Obligations.EveryRunEnds := by
  intro s h
  induction hw : workLeft s using WellFoundedLT.induction generalizing s with
  | ind w ih =>
    by_cases hr : s.refusal = none
    · by_cases hend : s.program ≠ [] ∨ s.state = .busy
      · obtain ⟨u, hstep, hlt⟩ := h.step_nearer_end hr hend
        obtain ⟨n, t, hrun, ht⟩ := ih _ (hw ▸ hlt) u (everyStepKeepsTheInvariant s u h hstep) rfl
        exact ⟨n + 1, t, (runFor_succ_next hstep).trans hrun, ht⟩
      · obtain ⟨hp, hb⟩ := not_or.1 hend
        have hp := not_not.1 hp
        exact ⟨0, s, rfl, .inl ⟨⟨by simp [hp], hb⟩, hp⟩⟩
    · exact ⟨0, s, rfl, .inr hr⟩

end Sys2Proof.Machine

/-! PROOFS. The family 70_reset_and_hazards.md: a reset that comes next is taken, with a refusal recorded or without, BUSY or
not, and what the reset input leaves does not depend on what the host's turn used up. -/

namespace Sys2Proof.Machine

/-! ## The block after the reset input -/

/-- Every register reads its reset value after a reset (70_reset_and_hazards.md R220, R221). -/
@[simp] theorem readReg_resetBlock (s : State) (r : RegName) : readReg (resetBlock s) r = readReg State.reset r := by
  cases r <;> rfl

theorem resetBlock_cleanEntry (s : State) : CleanEntry (resetBlock s) :=
  ⟨fun hbusy => (nomatch hbusy), resetBlock_lost s, resetBlock_refusal s⟩

@[simp] theorem pixelAt_resetBlock (s : State) (i : Nat) :
    pixelAt (resetBlock s) i = Config.freePixel (s.raster.draw + 1) i := rfl

@[simp] theorem msgAt_resetBlock (s : State) (i : Nat) :
    msgAt (resetBlock s) i = Config.freeByte .msg (s.msg.draw + 1) i := rfl

@[simp] theorem keyAt_resetBlock (s : State) (i : Nat) :
    keyAt (resetBlock s) i = Config.freeByte .key (s.key.draw + 1) i := rfl

@[simp] theorem outAt_resetBlock (s : State) (i : Nat) :
    outAt (resetBlock s) i = Config.freeByte .out (s.out.draw + 1) i := rfl

/-! ## The step that takes a reset -/

/-- A reset that comes next is taken, unless it is the engine's turn in a good run; what the reset finds is the state as the
host's next item sees it (70_reset_and_hazards.md R220). -/
theorem step_of_reset {s : State} {rest : List HostOp} (hp : s.program = .reset :: rest)
    (hturn : s.refusal ≠ none ∨ s.state ≠ .busy ∨ turnsLeft s ≠ 0) :
    ∃ u, HostView s u rest ∧ step s = .next (resetBlock u) := by
  cases hr : s.refusal with
  | some r => exact ⟨dropHead s, hostView_dropHead hp, step_of_refused_reset hr hp⟩
  | none =>
    by_cases hb : s.state = .busy
    · have ht : turnsLeft s ≠ 0 := (hturn.resolve_left (not_not.2 hr)).resolve_left (not_not.2 hb)
      exact ⟨{ hostTurn s with program := rest }, rfl, step_of_hostTurn hr hp hb ht⟩
    · exact ⟨{ s with program := rest }, rfl, step_of_not_busy hr hp hb⟩

/-- Settles O8: `step_of_reset`, and what `resetBlock` leaves of the state that the host's item sees. -/
theorem resetInputResetsTheBlock : Obligations.ResetInputResetsTheBlock := by
  intro s rest hp hturn
  obtain ⟨u, hview, hstep⟩ := step_of_reset hp hturn
  rw [hview] at hstep
  exact ⟨_, hstep, resetBlock_cleanEntry _, rfl, rfl, rfl, readReg_resetBlock _, rfl, rfl, rfl, rfl, rfl, rfl, rfl,
    pixelAt_resetBlock _, msgAt_resetBlock _, keyAt_resetBlock _, outAt_resetBlock _⟩

end Sys2Proof.Machine
